-- ==== Sys2Proof/Word.lean ====
section
/-! DEFINITION. The word types of the core: every register but PC and every bus datum is a `u8`, PC and every address a
`u16` (00_scope.md R7); arithmetic on them wraps (R12). -/

namespace Sys2Proof

/-- A `u8`: A, X, Y, S, P and every bus datum (R7). -/
abbrev Byte := BitVec 8

/-- A `u16`: PC and every effective address; the address space has 65,536 bytes (R7, R51). -/
abbrev Addr := BitVec 16

end Sys2Proof
end

