-- ==== Sys2Proof/Syntax.lean ====
section
/-! DEFINITION. The syntax of the instruction set: the 13 addressing modes, an operand of each, the 56 handlers, and `Instr`,
one constructor per handler of spec/opcode_table.json (56 mnemonics and UNIMPLEMENTED). A row of the table is a constructor
at one operand form: the table's 151 assigned rows are the well-formed (constructor, mode) pairs of WellFormed.lean (log 8). -/

namespace Sys2Proof

/-- The 13 addressing modes (30_encoding.md R71). -/
inductive Mode where
  | implied | accumulator | immediate | zeropage | zeropageXIndex | zeropageYIndex | absolute | absoluteXIndex
  | absoluteYIndex | indirect | xIndexIndirect | indirectYIndex | relative
  deriving DecidableEq, Repr

/-- How many operand bytes follow the opcode (R70, R71, R86). -/
def Mode.operandBytes : Mode → Nat
  | .implied | .accumulator => 0
  | .immediate | .zeropage | .zeropageXIndex | .zeropageYIndex | .xIndexIndirect | .indirectYIndex | .relative => 1
  | .absolute | .absoluteXIndex | .absoluteYIndex | .indirect => 2

/-- The operand as the instruction stream writes it: the mode and its operand bytes, a 16-bit one already put together
low byte first (R72). -/
inductive Operand where
  | implied
  | accumulator
  | immediate (b : Byte)
  | zeropage (b : Byte)
  | zeropageXIndex (b : Byte)
  | zeropageYIndex (b : Byte)
  | absolute (a : Addr)
  | absoluteXIndex (a : Addr)
  | absoluteYIndex (a : Addr)
  | indirect (a : Addr)
  | xIndexIndirect (b : Byte)
  | indirectYIndex (b : Byte)
  | relative (d : Byte)
  deriving DecidableEq, Repr

/-- The addressing mode of an operand. -/
def Operand.mode : Operand → Mode
  | .implied => .implied
  | .accumulator => .accumulator
  | .immediate _ => .immediate
  | .zeropage _ => .zeropage
  | .zeropageXIndex _ => .zeropageXIndex
  | .zeropageYIndex _ => .zeropageYIndex
  | .absolute _ => .absolute
  | .absoluteXIndex _ => .absoluteXIndex
  | .absoluteYIndex _ => .absoluteYIndex
  | .indirect _ => .indirect
  | .xIndexIndirect _ => .xIndexIndirect
  | .indirectYIndex _ => .indirectYIndex
  | .relative _ => .relative

/-- The 56 handlers the dispatch table names (R87, R88). -/
inductive Mnemonic where
  | lda | ldx | ldy | sta | stx | sty | tax | tay | tsx | txa | txs | tya | adc | sbc | and | eor
  | ora | asl | lsr | rol | ror | inc | dec | inx | iny | dex | dey | cmp | cpx | cpy | bcc | bcs
  | beq | bmi | bne | bpl | bvc | bvs | jmp | jsr | rts | pha | php | pla | plp | clc | cld | cli
  | clv | sec | sed | sei | brk | rti | nop | bit
  deriving DecidableEq, Repr

/-- The instructions: one constructor per handler. A handler with the Implied mode alone takes no operand; every other takes
the operand its dispatch entry's mode gives it. `unimplemented` is the handler of every unassigned byte (R89, R194). -/
inductive Instr where
  /-- load accumulator (R100). -/
  | lda (o : Operand)
  /-- load X (R101). -/
  | ldx (o : Operand)
  /-- load Y (R102). -/
  | ldy (o : Operand)
  /-- store accumulator (R103). -/
  | sta (o : Operand)
  /-- store X (R104). -/
  | stx (o : Operand)
  /-- store Y (R105). -/
  | sty (o : Operand)
  /-- transfer A to X (R106). -/
  | tax
  /-- transfer A to Y (R107). -/
  | tay
  /-- transfer S to X (R108). -/
  | tsx
  /-- transfer X to A (R109). -/
  | txa
  /-- transfer X to S (R110). -/
  | txs
  /-- transfer Y to A (R111). -/
  | tya
  /-- add with carry (R120). -/
  | adc (o : Operand)
  /-- subtract with borrow (R121). -/
  | sbc (o : Operand)
  /-- bitwise AND (R122). -/
  | and (o : Operand)
  /-- bitwise exclusive OR (R123). -/
  | eor (o : Operand)
  /-- bitwise inclusive OR (R124). -/
  | ora (o : Operand)
  /-- arithmetic shift left (R130). -/
  | asl (o : Operand)
  /-- logical shift right (R131). -/
  | lsr (o : Operand)
  /-- rotate left through carry (R132). -/
  | rol (o : Operand)
  /-- rotate right through carry (R133). -/
  | ror (o : Operand)
  /-- increment memory (R134). -/
  | inc (o : Operand)
  /-- decrement memory (R135). -/
  | dec (o : Operand)
  /-- increment X (R136). -/
  | inx
  /-- increment Y (R137). -/
  | iny
  /-- decrement X (R138). -/
  | dex
  /-- decrement Y (R139). -/
  | dey
  /-- compare with A (R150). -/
  | cmp (o : Operand)
  /-- compare with X (R151). -/
  | cpx (o : Operand)
  /-- compare with Y (R152). -/
  | cpy (o : Operand)
  /-- branch if carry clear (R154). -/
  | bcc (o : Operand)
  /-- branch if carry set (R155). -/
  | bcs (o : Operand)
  /-- branch if zero set (R156). -/
  | beq (o : Operand)
  /-- branch if negative set (R157). -/
  | bmi (o : Operand)
  /-- branch if zero clear (R158). -/
  | bne (o : Operand)
  /-- branch if negative clear (R159). -/
  | bpl (o : Operand)
  /-- branch if overflow clear (R160). -/
  | bvc (o : Operand)
  /-- branch if overflow set (R161). -/
  | bvs (o : Operand)
  /-- jump (R162). -/
  | jmp (o : Operand)
  /-- jump to subroutine (R163). -/
  | jsr (o : Operand)
  /-- return from subroutine (R164). -/
  | rts
  /-- push A (R170). -/
  | pha
  /-- push P (R171). -/
  | php
  /-- pull A (R172). -/
  | pla
  /-- pull P (R173). -/
  | plp
  /-- clear carry (R174). -/
  | clc
  /-- clear decimal (R175). -/
  | cld
  /-- clear interrupt disable (R176). -/
  | cli
  /-- clear overflow (R177). -/
  | clv
  /-- set carry (R178). -/
  | sec
  /-- set decimal (R179). -/
  | sed
  /-- set interrupt disable (R180). -/
  | sei
  /-- software interrupt (R190). -/
  | brk
  /-- return from interrupt (R191). -/
  | rti
  /-- no operation (R192). -/
  | nop
  /-- test bits (R193). -/
  | bit (o : Operand)
  /-- an unassigned opcode byte (R194). -/
  | unimplemented (opcode : Byte)
  deriving DecidableEq, Repr

/-- The handler of an instruction; none for an unassigned byte. -/
def Instr.mnemonic : Instr → Option Mnemonic
  | .lda _ => some .lda
  | .ldx _ => some .ldx
  | .ldy _ => some .ldy
  | .sta _ => some .sta
  | .stx _ => some .stx
  | .sty _ => some .sty
  | .tax => some .tax
  | .tay => some .tay
  | .tsx => some .tsx
  | .txa => some .txa
  | .txs => some .txs
  | .tya => some .tya
  | .adc _ => some .adc
  | .sbc _ => some .sbc
  | .and _ => some .and
  | .eor _ => some .eor
  | .ora _ => some .ora
  | .asl _ => some .asl
  | .lsr _ => some .lsr
  | .rol _ => some .rol
  | .ror _ => some .ror
  | .inc _ => some .inc
  | .dec _ => some .dec
  | .inx => some .inx
  | .iny => some .iny
  | .dex => some .dex
  | .dey => some .dey
  | .cmp _ => some .cmp
  | .cpx _ => some .cpx
  | .cpy _ => some .cpy
  | .bcc _ => some .bcc
  | .bcs _ => some .bcs
  | .beq _ => some .beq
  | .bmi _ => some .bmi
  | .bne _ => some .bne
  | .bpl _ => some .bpl
  | .bvc _ => some .bvc
  | .bvs _ => some .bvs
  | .jmp _ => some .jmp
  | .jsr _ => some .jsr
  | .rts => some .rts
  | .pha => some .pha
  | .php => some .php
  | .pla => some .pla
  | .plp => some .plp
  | .clc => some .clc
  | .cld => some .cld
  | .cli => some .cli
  | .clv => some .clv
  | .sec => some .sec
  | .sed => some .sed
  | .sei => some .sei
  | .brk => some .brk
  | .rti => some .rti
  | .nop => some .nop
  | .bit _ => some .bit
  | .unimplemented _ => none

/-- The operand of an instruction; Implied for the instructions that take none, and for an unassigned byte, for which the
resolver is not run and no operand byte is read (R194). -/
def Instr.operand : Instr → Operand
  | .lda o | .ldx o | .ldy o | .sta o | .stx o | .sty o | .adc o | .sbc o
  | .and o | .eor o | .ora o | .asl o | .lsr o | .rol o | .ror o | .inc o
  | .dec o | .cmp o | .cpx o | .cpy o | .bcc o | .bcs o | .beq o | .bmi o
  | .bne o | .bpl o | .bvc o | .bvs o | .jmp o | .jsr o | .bit o => o
  | .tax | .tay | .tsx | .txa | .txs | .tya | .inx | .iny | .dex | .dey
  | .rts | .pha | .php | .pla | .plp | .clc | .cld | .cli | .clv | .sec
  | .sed | .sei | .brk | .rti | .nop => .implied
  | .unimplemented _ => .implied

/-- How many bytes an instruction takes, opcode and operand bytes (R86). -/
def Instr.length (i : Instr) : Nat := 1 + i.operand.mode.operandBytes

/-- The instruction of a handler and an operand; a handler of the Implied mode alone drops the operand. -/
def Mnemonic.build : Mnemonic → Operand → Instr
  | .lda, o => .lda o
  | .ldx, o => .ldx o
  | .ldy, o => .ldy o
  | .sta, o => .sta o
  | .stx, o => .stx o
  | .sty, o => .sty o
  | .tax, _ => .tax
  | .tay, _ => .tay
  | .tsx, _ => .tsx
  | .txa, _ => .txa
  | .txs, _ => .txs
  | .tya, _ => .tya
  | .adc, o => .adc o
  | .sbc, o => .sbc o
  | .and, o => .and o
  | .eor, o => .eor o
  | .ora, o => .ora o
  | .asl, o => .asl o
  | .lsr, o => .lsr o
  | .rol, o => .rol o
  | .ror, o => .ror o
  | .inc, o => .inc o
  | .dec, o => .dec o
  | .inx, _ => .inx
  | .iny, _ => .iny
  | .dex, _ => .dex
  | .dey, _ => .dey
  | .cmp, o => .cmp o
  | .cpx, o => .cpx o
  | .cpy, o => .cpy o
  | .bcc, o => .bcc o
  | .bcs, o => .bcs o
  | .beq, o => .beq o
  | .bmi, o => .bmi o
  | .bne, o => .bne o
  | .bpl, o => .bpl o
  | .bvc, o => .bvc o
  | .bvs, o => .bvs o
  | .jmp, o => .jmp o
  | .jsr, o => .jsr o
  | .rts, _ => .rts
  | .pha, _ => .pha
  | .php, _ => .php
  | .pla, _ => .pla
  | .plp, _ => .plp
  | .clc, _ => .clc
  | .cld, _ => .cld
  | .cli, _ => .cli
  | .clv, _ => .clv
  | .sec, _ => .sec
  | .sed, _ => .sed
  | .sei, _ => .sei
  | .brk, _ => .brk
  | .rti, _ => .rti
  | .nop, _ => .nop
  | .bit, o => .bit o

end Sys2Proof
end

