-- ==== Sys2Proof/WellFormed.lean ====
section
/-! DEFINITION. Which instructions are well formed: the operand forms of the "Operands:" lines of files 40–45 (the pairs of
handler and mode of the dispatch table, R88), and for `unimplemented` the 105 bytes of R89. Written from those lines, and
not from the opcode table of Decode.lean, so that the two check each other. -/

namespace Sys2Proof

/-- The eight forms of LDA, of the arithmetic and logical instructions and of CMP (R100, R120–R124, R150). -/
def readForms : List Mode :=
  [.immediate, .zeropage, .zeropageXIndex, .absolute, .absoluteXIndex, .absoluteYIndex, .xIndexIndirect, .indirectYIndex]

/-- The four memory forms of the read-modify-write instructions (R130–R135). -/
def rmwForms : List Mode := [.zeropage, .zeropageXIndex, .absolute, .absoluteXIndex]

/-- The addressing modes each handler has in the dispatch table: the "Operands:" line of its rule. -/
def Mnemonic.modes : Mnemonic → List Mode
  | .lda | .adc | .sbc | .and | .eor | .ora | .cmp => readForms
  | .ldx => [.immediate, .zeropage, .zeropageYIndex, .absolute, .absoluteYIndex]
  | .ldy => [.immediate, .zeropage, .zeropageXIndex, .absolute, .absoluteXIndex]
  | .sta => [.zeropage, .zeropageXIndex, .absolute, .absoluteXIndex, .absoluteYIndex, .xIndexIndirect, .indirectYIndex]
  | .stx => [.zeropage, .zeropageYIndex, .absolute]
  | .sty => [.zeropage, .zeropageXIndex, .absolute]
  | .asl | .lsr | .rol | .ror => .accumulator :: rmwForms
  | .inc | .dec => rmwForms
  | .cpx | .cpy => [.immediate, .zeropage, .absolute]
  | .bit => [.zeropage, .absolute]
  | .bcc | .bcs | .beq | .bmi | .bne | .bpl | .bvc | .bvs => [.relative]
  | .jmp => [.absolute, .indirect]
  | .jsr => [.absolute]
  | .tax | .tay | .tsx | .txa | .txs | .tya | .inx | .iny | .dex | .dey => [.implied]
  | .pha | .php | .pla | .plp | .clc | .cld | .cli | .clv | .sec | .sed | .sei => [.implied]
  | .rts | .brk | .rti | .nop => [.implied]

/-- The 105 unassigned opcode bytes, in R89's order. -/
def unassignedOpcodes : List Byte :=
  [0x02, 0x03, 0x04, 0x07, 0x0B, 0x0C, 0x0F, 0x12, 0x13, 0x14, 0x17, 0x1A, 0x1B, 0x1C, 0x1F]
  ++ [0x22, 0x23, 0x27, 0x2B, 0x2F, 0x32, 0x33, 0x34, 0x37, 0x3A, 0x3B, 0x3C, 0x3F, 0x42, 0x43]
  ++ [0x44, 0x47, 0x4B, 0x4F, 0x52, 0x53, 0x54, 0x57, 0x5A, 0x5B, 0x5C, 0x5F, 0x62, 0x63, 0x64]
  ++ [0x67, 0x6B, 0x6F, 0x72, 0x73, 0x74, 0x77, 0x7A, 0x7B, 0x7C, 0x7F, 0x80, 0x82, 0x83, 0x87]
  ++ [0x89, 0x8B, 0x8F, 0x92, 0x93, 0x97, 0x9B, 0x9C, 0x9E, 0x9F, 0xA3, 0xA7, 0xAB, 0xAF, 0xB2]
  ++ [0xB3, 0xB7, 0xBB, 0xBF, 0xC2, 0xC3, 0xC7, 0xCB, 0xCF, 0xD2, 0xD3, 0xD4, 0xD7, 0xDA, 0xDB]
  ++ [0xDC, 0xDF, 0xE2, 0xE3, 0xE7, 0xEB, 0xEF, 0xF2, 0xF3, 0xF4, 0xF7, 0xFA, 0xFB, 0xFC, 0xFF]

/-- An instruction is well formed when its handler has its operand's mode, and an unimplemented one when its byte is
unassigned. -/
def Instr.wellFormed (i : Instr) : Bool :=
  match i, i.mnemonic with
  | .unimplemented opcode, _ => unassignedOpcodes.contains opcode
  | _, some m => m.modes.contains i.operand.mode
  | _, none => false

/-- Well-formedness as a proposition. -/
abbrev Instr.WellFormed (i : Instr) : Prop := i.wellFormed = true

end Sys2Proof
end

