-- ==== Sys2Proof/Decode.lean ====
section
/-! DEFINITION. The dispatch table (30_encoding.md R87–R89), the decoder and, after it, the encoder. Decoding is total (R91):
every byte selects a row of the table or the unimplemented handler; what is refused, by name, is a list of bytes that ends
inside an instruction. -/

namespace Sys2Proof

/-- The 16-bit value `hi:lo` (R11; little-endian order in memory, R54). -/
def word (hi lo : Byte) : Addr := hi ++ lo

/-- Bits 15..8 of an address: its page. -/
def hiByte (a : Addr) : Byte := a.extractLsb' 8 8

/-- Bits 7..0 of an address. -/
def loByte (a : Addr) : Byte := a.extractLsb' 0 8

/-- One entry of the dispatch table: opcode byte, handler, addressing mode, base cycle cost (R87). -/
structure DispatchRow where
  opcode : Byte
  mnemonic : Mnemonic
  mode : Mode
  base : Nat
  deriving DecidableEq, Repr

/-- Rows 0x00–0x0F of the dispatch table (R88). -/
def dispatchRows0 : List DispatchRow :=
  [⟨0x00, .brk, .implied, 7⟩,
   ⟨0x01, .ora, .xIndexIndirect, 6⟩,
   ⟨0x05, .ora, .zeropage, 3⟩,
   ⟨0x06, .asl, .zeropage, 5⟩,
   ⟨0x08, .php, .implied, 3⟩,
   ⟨0x09, .ora, .immediate, 2⟩,
   ⟨0x0A, .asl, .accumulator, 2⟩,
   ⟨0x0D, .ora, .absolute, 4⟩,
   ⟨0x0E, .asl, .absolute, 6⟩]

/-- Rows 0x10–0x1F of the dispatch table (R88). -/
def dispatchRows1 : List DispatchRow :=
  [⟨0x10, .bpl, .relative, 2⟩,
   ⟨0x11, .ora, .indirectYIndex, 5⟩,
   ⟨0x15, .ora, .zeropageXIndex, 4⟩,
   ⟨0x16, .asl, .zeropageXIndex, 6⟩,
   ⟨0x18, .clc, .implied, 2⟩,
   ⟨0x19, .ora, .absoluteYIndex, 4⟩,
   ⟨0x1D, .ora, .absoluteXIndex, 4⟩,
   ⟨0x1E, .asl, .absoluteXIndex, 7⟩]

/-- Rows 0x20–0x2F of the dispatch table (R88). -/
def dispatchRows2 : List DispatchRow :=
  [⟨0x20, .jsr, .absolute, 6⟩,
   ⟨0x21, .and, .xIndexIndirect, 6⟩,
   ⟨0x24, .bit, .zeropage, 3⟩,
   ⟨0x25, .and, .zeropage, 3⟩,
   ⟨0x26, .rol, .zeropage, 5⟩,
   ⟨0x28, .plp, .implied, 4⟩,
   ⟨0x29, .and, .immediate, 2⟩,
   ⟨0x2A, .rol, .accumulator, 2⟩,
   ⟨0x2C, .bit, .absolute, 4⟩,
   ⟨0x2D, .and, .absolute, 4⟩,
   ⟨0x2E, .rol, .absolute, 6⟩]

/-- Rows 0x30–0x3F of the dispatch table (R88). -/
def dispatchRows3 : List DispatchRow :=
  [⟨0x30, .bmi, .relative, 2⟩,
   ⟨0x31, .and, .indirectYIndex, 5⟩,
   ⟨0x35, .and, .zeropageXIndex, 4⟩,
   ⟨0x36, .rol, .zeropageXIndex, 6⟩,
   ⟨0x38, .sec, .implied, 2⟩,
   ⟨0x39, .and, .absoluteYIndex, 4⟩,
   ⟨0x3D, .and, .absoluteXIndex, 4⟩,
   ⟨0x3E, .rol, .absoluteXIndex, 7⟩]

/-- Rows 0x40–0x4F of the dispatch table (R88). -/
def dispatchRows4 : List DispatchRow :=
  [⟨0x40, .rti, .implied, 6⟩,
   ⟨0x41, .eor, .xIndexIndirect, 6⟩,
   ⟨0x45, .eor, .zeropage, 3⟩,
   ⟨0x46, .lsr, .zeropage, 5⟩,
   ⟨0x48, .pha, .implied, 3⟩,
   ⟨0x49, .eor, .immediate, 2⟩,
   ⟨0x4A, .lsr, .accumulator, 2⟩,
   ⟨0x4C, .jmp, .absolute, 3⟩,
   ⟨0x4D, .eor, .absolute, 4⟩,
   ⟨0x4E, .lsr, .absolute, 6⟩]

/-- Rows 0x50–0x5F of the dispatch table (R88). -/
def dispatchRows5 : List DispatchRow :=
  [⟨0x50, .bvc, .relative, 2⟩,
   ⟨0x51, .eor, .indirectYIndex, 5⟩,
   ⟨0x55, .eor, .zeropageXIndex, 4⟩,
   ⟨0x56, .lsr, .zeropageXIndex, 6⟩,
   ⟨0x58, .cli, .implied, 2⟩,
   ⟨0x59, .eor, .absoluteYIndex, 4⟩,
   ⟨0x5D, .eor, .absoluteXIndex, 4⟩,
   ⟨0x5E, .lsr, .absoluteXIndex, 7⟩]

/-- Rows 0x60–0x6F of the dispatch table (R88). -/
def dispatchRows6 : List DispatchRow :=
  [⟨0x60, .rts, .implied, 6⟩,
   ⟨0x61, .adc, .xIndexIndirect, 6⟩,
   ⟨0x65, .adc, .zeropage, 3⟩,
   ⟨0x66, .ror, .zeropage, 5⟩,
   ⟨0x68, .pla, .implied, 4⟩,
   ⟨0x69, .adc, .immediate, 2⟩,
   ⟨0x6A, .ror, .accumulator, 2⟩,
   ⟨0x6C, .jmp, .indirect, 5⟩,
   ⟨0x6D, .adc, .absolute, 4⟩,
   ⟨0x6E, .ror, .absolute, 6⟩]

/-- Rows 0x70–0x7F of the dispatch table (R88). -/
def dispatchRows7 : List DispatchRow :=
  [⟨0x70, .bvs, .relative, 2⟩,
   ⟨0x71, .adc, .indirectYIndex, 5⟩,
   ⟨0x75, .adc, .zeropageXIndex, 4⟩,
   ⟨0x76, .ror, .zeropageXIndex, 6⟩,
   ⟨0x78, .sei, .implied, 2⟩,
   ⟨0x79, .adc, .absoluteYIndex, 4⟩,
   ⟨0x7D, .adc, .absoluteXIndex, 4⟩,
   ⟨0x7E, .ror, .absoluteXIndex, 7⟩]

/-- Rows 0x80–0x8F of the dispatch table (R88). -/
def dispatchRows8 : List DispatchRow :=
  [⟨0x81, .sta, .xIndexIndirect, 6⟩,
   ⟨0x84, .sty, .zeropage, 3⟩,
   ⟨0x85, .sta, .zeropage, 3⟩,
   ⟨0x86, .stx, .zeropage, 3⟩,
   ⟨0x88, .dey, .implied, 2⟩,
   ⟨0x8A, .txa, .implied, 2⟩,
   ⟨0x8C, .sty, .absolute, 4⟩,
   ⟨0x8D, .sta, .absolute, 4⟩,
   ⟨0x8E, .stx, .absolute, 4⟩]

/-- Rows 0x90–0x9F of the dispatch table (R88). -/
def dispatchRows9 : List DispatchRow :=
  [⟨0x90, .bcc, .relative, 2⟩,
   ⟨0x91, .sta, .indirectYIndex, 6⟩,
   ⟨0x94, .sty, .zeropageXIndex, 4⟩,
   ⟨0x95, .sta, .zeropageXIndex, 4⟩,
   ⟨0x96, .stx, .zeropageYIndex, 4⟩,
   ⟨0x98, .tya, .implied, 2⟩,
   ⟨0x99, .sta, .absoluteYIndex, 5⟩,
   ⟨0x9A, .txs, .implied, 2⟩,
   ⟨0x9D, .sta, .absoluteXIndex, 5⟩]

/-- Rows 0xA0–0xAF of the dispatch table (R88). -/
def dispatchRowsA : List DispatchRow :=
  [⟨0xA0, .ldy, .immediate, 2⟩,
   ⟨0xA1, .lda, .xIndexIndirect, 6⟩,
   ⟨0xA2, .ldx, .immediate, 2⟩,
   ⟨0xA4, .ldy, .zeropage, 3⟩,
   ⟨0xA5, .lda, .zeropage, 3⟩,
   ⟨0xA6, .ldx, .zeropage, 3⟩,
   ⟨0xA8, .tay, .implied, 2⟩,
   ⟨0xA9, .lda, .immediate, 2⟩,
   ⟨0xAA, .tax, .implied, 2⟩,
   ⟨0xAC, .ldy, .absolute, 4⟩,
   ⟨0xAD, .lda, .absolute, 4⟩,
   ⟨0xAE, .ldx, .absolute, 4⟩]

/-- Rows 0xB0–0xBF of the dispatch table (R88). -/
def dispatchRowsB : List DispatchRow :=
  [⟨0xB0, .bcs, .relative, 2⟩,
   ⟨0xB1, .lda, .indirectYIndex, 5⟩,
   ⟨0xB4, .ldy, .zeropageXIndex, 4⟩,
   ⟨0xB5, .lda, .zeropageXIndex, 4⟩,
   ⟨0xB6, .ldx, .zeropageYIndex, 4⟩,
   ⟨0xB8, .clv, .implied, 2⟩,
   ⟨0xB9, .lda, .absoluteYIndex, 4⟩,
   ⟨0xBA, .tsx, .implied, 2⟩,
   ⟨0xBC, .ldy, .absoluteXIndex, 4⟩,
   ⟨0xBD, .lda, .absoluteXIndex, 4⟩,
   ⟨0xBE, .ldx, .absoluteYIndex, 4⟩]

/-- Rows 0xC0–0xCF of the dispatch table (R88). -/
def dispatchRowsC : List DispatchRow :=
  [⟨0xC0, .cpy, .immediate, 2⟩,
   ⟨0xC1, .cmp, .xIndexIndirect, 6⟩,
   ⟨0xC4, .cpy, .zeropage, 3⟩,
   ⟨0xC5, .cmp, .zeropage, 3⟩,
   ⟨0xC6, .dec, .zeropage, 5⟩,
   ⟨0xC8, .iny, .implied, 2⟩,
   ⟨0xC9, .cmp, .immediate, 2⟩,
   ⟨0xCA, .dex, .implied, 2⟩,
   ⟨0xCC, .cpy, .absolute, 4⟩,
   ⟨0xCD, .cmp, .absolute, 4⟩,
   ⟨0xCE, .dec, .absolute, 6⟩]

/-- Rows 0xD0–0xDF of the dispatch table (R88). -/
def dispatchRowsD : List DispatchRow :=
  [⟨0xD0, .bne, .relative, 2⟩,
   ⟨0xD1, .cmp, .indirectYIndex, 5⟩,
   ⟨0xD5, .cmp, .zeropageXIndex, 4⟩,
   ⟨0xD6, .dec, .zeropageXIndex, 6⟩,
   ⟨0xD8, .cld, .implied, 2⟩,
   ⟨0xD9, .cmp, .absoluteYIndex, 4⟩,
   ⟨0xDD, .cmp, .absoluteXIndex, 4⟩,
   ⟨0xDE, .dec, .absoluteXIndex, 7⟩]

/-- Rows 0xE0–0xEF of the dispatch table (R88). -/
def dispatchRowsE : List DispatchRow :=
  [⟨0xE0, .cpx, .immediate, 2⟩,
   ⟨0xE1, .sbc, .xIndexIndirect, 6⟩,
   ⟨0xE4, .cpx, .zeropage, 3⟩,
   ⟨0xE5, .sbc, .zeropage, 3⟩,
   ⟨0xE6, .inc, .zeropage, 5⟩,
   ⟨0xE8, .inx, .implied, 2⟩,
   ⟨0xE9, .sbc, .immediate, 2⟩,
   ⟨0xEA, .nop, .implied, 2⟩,
   ⟨0xEC, .cpx, .absolute, 4⟩,
   ⟨0xED, .sbc, .absolute, 4⟩,
   ⟨0xEE, .inc, .absolute, 6⟩]

/-- Rows 0xF0–0xFF of the dispatch table (R88). -/
def dispatchRowsF : List DispatchRow :=
  [⟨0xF0, .beq, .relative, 2⟩,
   ⟨0xF1, .sbc, .indirectYIndex, 5⟩,
   ⟨0xF5, .sbc, .zeropageXIndex, 4⟩,
   ⟨0xF6, .inc, .zeropageXIndex, 6⟩,
   ⟨0xF8, .sed, .implied, 2⟩,
   ⟨0xF9, .sbc, .absoluteYIndex, 4⟩,
   ⟨0xFD, .sbc, .absoluteXIndex, 4⟩,
   ⟨0xFE, .inc, .absoluteXIndex, 7⟩]

/-- The assigned entries of one row of the 16 by 16 map of R88, by the opcode's high nibble. -/
def dispatchRows (high : Nat) : List DispatchRow :=
  match high with
  | 0x0 => dispatchRows0 | 0x1 => dispatchRows1 | 0x2 => dispatchRows2 | 0x3 => dispatchRows3
  | 0x4 => dispatchRows4 | 0x5 => dispatchRows5 | 0x6 => dispatchRows6 | 0x7 => dispatchRows7
  | 0x8 => dispatchRows8 | 0x9 => dispatchRows9 | 0xA => dispatchRowsA | 0xB => dispatchRowsB
  | 0xC => dispatchRowsC | 0xD => dispatchRowsD | 0xE => dispatchRowsE | 0xF => dispatchRowsF
  | _ => []

/-- The 151 assigned entries of the dispatch table (R88). -/
def dispatchTable : List DispatchRow := (List.range 16).flatMap dispatchRows

/-- The entry an opcode byte selects; none for an unassigned byte (R91). -/
def rowOfOpcode (opcode : Byte) : Option DispatchRow :=
  (dispatchRows (opcode.toNat / 16)).find? (fun r => r.opcode == opcode)

/-- The entry of a handler and a mode; at most one (R91). -/
def rowOfForm (m : Mnemonic) (mode : Mode) : Option DispatchRow :=
  dispatchTable.find? (fun r => r.mnemonic == m && r.mode == mode)

/-- The base cycle cost of a handler in a mode (R87, R88). A pair the table lacks has none; it counts as 0 (log 8). -/
def baseCycles (m : Mnemonic) (mode : Mode) : Nat := ((rowOfForm m mode).map DispatchRow.base).getD 0

/-- How many operand bytes the opcode's mode takes; an unassigned opcode takes none (R71, R194). -/
def operandBytesOf (opcode : Byte) : Nat := ((rowOfOpcode opcode).map (fun r => r.mode.operandBytes)).getD 0

/-- The operand a mode makes of the two bytes after the opcode (R70, R72); a mode that takes fewer ignores the rest. -/
def operandOf (mode : Mode) (b1 b2 : Byte) : Operand :=
  match mode with
  | .implied => .implied
  | .accumulator => .accumulator
  | .immediate => .immediate b1
  | .zeropage => .zeropage b1
  | .zeropageXIndex => .zeropageXIndex b1
  | .zeropageYIndex => .zeropageYIndex b1
  | .absolute => .absolute (word b2 b1)
  | .absoluteXIndex => .absoluteXIndex (word b2 b1)
  | .absoluteYIndex => .absoluteYIndex (word b2 b1)
  | .indirect => .indirect (word b2 b1)
  | .xIndexIndirect => .xIndexIndirect b1
  | .indirectYIndex => .indirectYIndex b1
  | .relative => .relative b1

/-- The instruction of an opcode byte and the two bytes after it, of which it takes as many as its mode says. -/
def instrOf (opcode b1 b2 : Byte) : Instr :=
  match rowOfOpcode opcode with
  | none => .unimplemented opcode
  | some r => r.mnemonic.build (operandOf r.mode b1 b2)

/-- Why a list of bytes does not decode: it ends before the instruction does. No byte value is refused (R91, R93). -/
inductive DecodeError where
  /-- No byte at all. -/
  | noOpcode
  /-- The bytes end before this opcode's operand bytes do. -/
  | truncated (opcode : Byte)
  deriving DecidableEq, Repr

/-- Decode the first instruction of a list of bytes: it and the bytes after it. -/
def decode : List Byte → Except DecodeError (Instr × List Byte)
  | [] => .error .noOpcode
  | opcode :: rest =>
    match operandBytesOf opcode, rest with
    | 0, _ => .ok (instrOf opcode 0 0, rest)
    | 1, b1 :: rest' => .ok (instrOf opcode b1 0, rest')
    | 2, b1 :: b2 :: rest' => .ok (instrOf opcode b1 b2, rest')
    | _, _ => .error (.truncated opcode)

/-- The operand bytes of an operand, low byte first (R70, R72). -/
def Operand.bytes : Operand → List Byte
  | .implied | .accumulator => []
  | .immediate b | .zeropage b | .zeropageXIndex b | .zeropageYIndex b | .xIndexIndirect b | .indirectYIndex b
  | .relative b => [b]
  | .absolute a | .absoluteXIndex a | .absoluteYIndex a | .indirect a => [loByte a, hiByte a]

/-- The bytes of a well-formed instruction (R70); none for a pair of handler and mode the table lacks. -/
def encode (i : Instr) : List Byte :=
  match i, i.mnemonic with
  | .unimplemented opcode, _ => [opcode]
  | _, none => []
  | _, some m =>
    match rowOfForm m i.operand.mode with
    | none => []
    | some r => r.opcode :: i.operand.bytes

/-- The three bytes of an instruction word numbered as spec/opcode_table.json numbers its bits: bits 7..0 are the opcode,
bits 15..8 the next byte, bits 23..16 the last; bits above `nbits` are 0. -/
def tableWordBytes (nbits w : Nat) : Byte × Byte × Byte :=
  let v := w % 2 ^ nbits
  (BitVec.ofNat 8 v, BitVec.ofNat 8 (v / 2 ^ 8), BitVec.ofNat 8 (v / 2 ^ 16))

/-- What the decoder reads from an instruction word of the table. -/
def decodeTableWord (nbits w : Nat) : Option Instr :=
  let (b0, b1, b2) := tableWordBytes nbits w
  match decode [b0, b1, b2] with
  | .ok (i, _) => some i
  | .error _ => none

end Sys2Proof
end

