-- ==== Sys2Proof/Config.lean ====
section
/-! DEFINITION. What an implementation fixes (the parameters and fixed addresses of the spec), and the two free values: what a
device behind the bus answers a read with, and whether it takes a write. -/

namespace Sys2Proof

/-- The named parameter of 00_scope.md R8. It stands in `State` as plain data, so that a claim over every state is a
claim over both values of it (log 6). -/
structure Config where
  /-- JMP_INDIRECT_PAGE_WRAP: `false` (the default) reads the high byte of `JMP ($xxFF)` from `$xxFF + 1`, `true` from
  `$xx00` (R8, R82). -/
  jmpIndirectPageWrap : Bool
  deriving DecidableEq, Repr

/-- The spec's default (R8; decision D9). -/
def Config.default : Config := { jmpIndirectPageWrap := false }

/-- One event in the life of the devices behind the bus: an access of the core (20_memory.md R60: "Each access is a separate,
single-byte event"), failed ones included (R205: "the failing one has had whatever effect the bus gives it"), or a change the
host makes between calls (60_exceptions.md R224). -/
inductive BusEvent where
  /-- A read of the address, answered with the byte or, with none, failed. -/
  | read (a : Addr) (answer : Option Byte)
  /-- A write of the byte to the address, taken or failed. -/
  | write (a : Addr) (v : Byte) (taken : Bool)
  /-- A change the host made to the devices' state, by a number that codes it. -/
  | host (change : Nat)
  deriving DecidableEq, Repr

/-- FREE VALUE (log 3): what a device answers a read of the address with, none where it fails it, given everything that has
happened to the devices before, newest first. R60: "a read may have side effects on the bus's state (memory-mapped I/O), two
reads of one address may return different bytes, and a write may not be seen by a later read"; R52: "any read or write may
fail"; 93 I5: "A device read is `any value`". It has no body, so nothing can be proved of its value. -/
opaque Config.deviceRead : List BusEvent → Addr → Option Byte

/-- FREE VALUE (log 3): whether a device takes a write of the byte to the address, given everything that has happened to the
devices before, newest first (R52: "any read or write may fail"). -/
opaque Config.deviceWrite : List BusEvent → Addr → Byte → Bool

/-- The base of the stack page, 0x0100–0x01FF (R15, R62; decision D6). -/
def Config.stackPage : Addr := 0x0100

/-- Low byte of the NMI vector, 0xFFFA–0xFFFB (R62, R211). -/
def Config.nmiVector : Addr := 0xFFFA

/-- Low byte of the vector IRQ and BRK share, 0xFFFE–0xFFFF (R62, R190, R210). -/
def Config.irqVector : Addr := 0xFFFE

/-- What a byte of memory nothing has written reads as. DESIGN CHOICE, unsafe (log 1): the contents at construction are
the host's (R240, I6); 0x00 is the convention of 95_test_vectors.md. -/
def Config.unlistedByte : Byte := 0x00

/-- Cycles of a taken IRQ entry and of an NMI entry (R210, R211; decision D13). -/
def Config.interruptCycles : Nat := 7

end Sys2Proof
end

