-- ==== Sys2Proof/Machine/State.lean ====
section
/-! DEFINITION. The state of the machine as plain data: the register file (10_state.md R20), the bus the core is generic over
(20_memory.md R50), the parameter of 00_scope.md R8 and the cycle count a call returns (R3); the reasons a call can end in
an error (60_exceptions.md R200); and the state after construction (70_reset_and_hazards.md R240). -/

namespace Sys2Proof.Machine

/-- Memory: address and byte, addresses strictly rising, no byte equal to what an unlisted address reads as
(`Memory.wf`). -/
abbrev Memory := List Host.Cell

/-- The addresses `first` to `last`, both included. -/
structure AddrRange where
  first : Nat
  last : Nat
  deriving DecidableEq, Repr

/-- The bus (R9, R50): memory, the ranges where nothing is mapped, so that every access fails (R52: "address outside the
device's mapped range"), and the ranges of devices, which answer or fail each access as they please (R52, R60). Any bus at all
is one device over the whole address space: what it answers and when it fails, and what its accesses do to its own state, are
the free functions of `Config` of all that has happened to it (Laws/AnyBus.lean). The core changes `ram` by its writes and
`log` by its accesses to devices; the ranges are the host's (log 2, 3). -/
structure Bus where
  /-- The bytes of the addresses that no device answers (R51, R61). -/
  ram : Memory
  /-- Addresses at which every read fails with InvalidRead and has no effect (R52). -/
  noRead : List AddrRange
  /-- Addresses at which every write fails with InvalidWrite and has no effect (R52). -/
  noWrite : List AddrRange
  /-- Addresses of devices: whether an access succeeds, and what a read answers, are free values (R52, R60; log 3). -/
  device : List AddrRange
  /-- What has happened to the devices, newest first: the accesses to them, failed ones included, and the host's changes. The
  model's own field, which stands for the devices' own state (log 3). -/
  log : List BusEvent
  deriving DecidableEq, Repr

/-- `RamBus` (R61), as loaded with nothing: every access succeeds and a read returns the byte last written. -/
def Bus.ramBus : Bus := { ram := [], noRead := [], noWrite := [], device := [], log := [] }

/-- The state. The core's own state is exactly the six registers A, X, Y, S, P and PC (R20); the rest is what the spec makes
a parameter (the bus, R9; the configuration, R8) or an output (the cycle count, R3). -/
structure State where
  /-- Accumulator (R22). -/
  A : Byte
  /-- Index register X (R23). -/
  X : Byte
  /-- Index register Y (R24). -/
  Y : Byte
  /-- Stack pointer: an offset into the page 0x0100–0x01FF (R26). -/
  S : Byte
  /-- Status register, bits N V U B D I Z C from bit 7 down (R32). -/
  P : Byte
  /-- Program counter (R28). -/
  PC : Addr
  /-- The bus (R50). -/
  bus : Bus
  /-- The parameter JMP_INDIRECT_PAGE_WRAP (R8; log 6). -/
  cfg : Config
  /-- The cycle count the last successful `step`, `irq` or `nmi` returned (R3, R251): an output, read by no rule (R44;
  log 4). -/
  cycles : Nat
  deriving DecidableEq, Repr

/-- The state after construction (R240): all registers zero but S = 0xFF and P = 0x20 (U set). The bus is not reset by the
core; it stands here as `RamBus` with nothing loaded (log 1, 2). -/
def State.reset : State :=
  { A := 0x00, X := 0x00, Y := 0x00, S := 0xFF, P := 0x20, PC := 0x0000,
    bus := Bus.ramBus, cfg := Config.default, cycles := 0 }

/-- The bus error taxonomy (R52). -/
inductive BusErrorKind where
  /-- A read outside the mapped range. -/
  | invalidRead
  /-- A write outside the mapped range. -/
  | invalidWrite
  deriving DecidableEq, Repr

/-- The error results of `step`, `irq` and `nmi` (R200). A fault is never continued by the core (R207). Each carries the
state the call had reached: there is no rollback, "instruction handlers that mutate state before a later sub-step fails
leave that mutation applied" (R204). -/
inductive Fault where
  /-- BusError(kind, addr), codes 0 and 1: raised by any bus access of any call that the bus fails (R201). Safe: the spec's
  own error result, and nothing is claimed beyond it. -/
  | busError (kind : BusErrorKind) (addr : Addr) (after : State)
  /-- AddressingModeError, code 2: raised by a handler given an operand shape it cannot use; never reached through `step`
  (R92, R202). Safe: the spec's own error result. -/
  | addressingModeError (after : State)
  /-- OpcodeNotImplemented(opcode), code 3: raised by `unimplemented` (R194, R203). Safe: the spec's own error result; what a
  host does next is its policy (R207). -/
  | opcodeNotImplemented (opcode : Byte) (after : State)
  deriving DecidableEq, Repr

/-- Why the model gives no meaning. No arm of `exec` is refused: every instruction of the table has its meaning. -/
inductive Refusal where
  /-- Reserved for an arm of `exec` that has no meaning yet; none is left. Safe: the model says nothing. -/
  | notModelled (mnemonic : String)
  deriving DecidableEq, Repr

/-- The answer of an operation of the machine: a value, or the error that ends the call. -/
abbrev Res (α : Type) := Host.Outcome α Fault Refusal

end Sys2Proof.Machine
end

