-- ==== Sys2Proof/Machine/Flags.lean ====
section
/-! DEFINITION. The status register P (10_state.md R32–R42): the place of each flag, reading and writing one flag, the images
of P on the stack, and every flag computation of the instruction rules, on bytes alone. -/

namespace Sys2Proof.Machine

/-- The named bits of P (R32). -/
inductive Flag where
  | N | V | U | B | D | I | Z | C
  deriving DecidableEq, Repr

/-- The bit number of a flag (R32; decision D5). -/
def Flag.bit : Flag → Nat
  | .N => 7
  | .V => 6
  | .U => 5
  | .B => 4
  | .D => 3
  | .I => 2
  | .Z => 1
  | .C => 0

/-- A byte with the one bit of the flag. -/
def Flag.mask (f : Flag) : Byte := BitVec.twoPow 8 f.bit

/-- Whether a flag is 1 in a status byte. -/
def getFlag (f : Flag) (p : Byte) : Bool := p.getLsbD f.bit

/-- A status byte with one flag written and the seven others kept. -/
def setFlag (f : Flag) (v : Bool) (p : Byte) : Byte := if v then p ||| f.mask else p &&& ~~~ f.mask

/-- SetNZ(r): N is bit 7 of the result, Z whether it is zero (R15). -/
def setNZ (r : Byte) (p : Byte) : Byte := setFlag .Z (r == 0) (setFlag .N r.msb p)

/-- The image PHP and BRK push: Break and Unused forced to 1 (R171, R190). -/
def imageWithBreak (p : Byte) : Byte := p ||| 0x30

/-- The image IRQ and NMI push: Break forced to 0, Unused to 1 (R210, R211). -/
def imageWithoutBreak (p : Byte) : Byte := (p &&& ~~~ (0x10 : Byte)) ||| 0x20

/-- What PLP and RTI load into P from the popped byte: Break and Unused forced to 1 (R173, R191). -/
def restoredStatus (popped : Byte) : Byte := popped ||| 0x30

/-- A carry as a number, 0 or 1. -/
def carryNat (c : Bool) : Nat := if c then 1 else 0

/-- The result, the carry out and the signed overflow of an addition with carry in (R120, R125, R126). -/
structure Sum where
  result : Byte
  carry : Bool
  overflow : Bool
  deriving DecidableEq, Repr

/-- `A + v + C` computed exactly (0 to 511); the result is its low 8 bits, the carry its bit 8, and V is set when the
operands' signs match and the result's differs (R120). Binary whatever D holds (R40; decision D10). -/
def addWithCarry (a v : Byte) (c : Bool) : Sum :=
  let sum := a.toNat + v.toNat + carryNat c
  let r := BitVec.ofNat 8 sum
  { result := r, carry := sum.testBit 8, overflow := a.msb == v.msb && r.msb != v.msb }

/-- The flags ADC and SBC write: C, V, N, Z (R120, R121). -/
def setSumFlags (r : Sum) (p : Byte) : Byte := setNZ r.result (setFlag .V r.overflow (setFlag .C r.carry p))

/-- The flags a compare writes: C when the register is not below the operand, Z when they are equal, N bit 7 of the 8-bit
difference (R150). -/
def setCompareFlags (reg m : Byte) (p : Byte) : Byte :=
  setFlag .N (reg - m).msb (setFlag .Z (reg == m) (setFlag .C (decide (m ≤ reg)) p))

/-- The flags BIT writes: Z from the AND, N and V from bits 7 and 6 of the operand (R193). -/
def setBitFlags (a m : Byte) (p : Byte) : Byte :=
  setFlag .V (m.getLsbD 6) (setFlag .N (m.getLsbD 7) (setFlag .Z (a &&& m == 0) p))

/-- The result of a shift or rotate and the bit shifted out. -/
structure Shifted where
  result : Byte
  carry : Bool
  deriving DecidableEq, Repr

/-- ASL: bit 0 becomes 0, bit 7 goes to the carry (R130). -/
def shiftLeft (v : Byte) (_ : Bool) : Shifted := { result := v <<< 1, carry := v.getLsbD 7 }

/-- LSR: bit 7 becomes 0, bit 0 goes to the carry (R131). -/
def shiftRight (v : Byte) (_ : Bool) : Shifted := { result := v >>> 1, carry := v.getLsbD 0 }

/-- ROL: the prior carry into bit 0, bit 7 to the carry (R132). -/
def rotateLeft (v : Byte) (c : Bool) : Shifted :=
  { result := (v <<< 1) ||| (if c then 0x01 else 0x00), carry := v.getLsbD 7 }

/-- ROR: the prior carry into bit 7, bit 0 to the carry (R133). -/
def rotateRight (v : Byte) (c : Bool) : Shifted :=
  { result := (v >>> 1) ||| (if c then 0x80 else 0x00), carry := v.getLsbD 0 }

/-- The flags a shift or rotate writes: C the bit shifted out, N and Z from the result (R130–R133). -/
def setShiftFlags (r : Shifted) (p : Byte) : Byte := setNZ r.result (setFlag .C r.carry p)

end Sys2Proof.Machine
end

