-- ==== Sys2Proof/Machine/Ops.lean ====
section
/-! DEFINITION. The named operations over memory, bus and registers that every meaning is written from: memory in its
canonical form, the bus's two fallible operations (20_memory.md R50), the primitives of 00_scope.md R14 and R15, interrupt
entry (60_exceptions.md R215) and the return from one (45_interrupt_misc.md R191). -/

namespace Sys2Proof.Machine

/-- `x`, then `f` of its value; an error of `x` ends the call at once (R14). -/
def andThen {α β : Type} (x : Res α) (f : α → Res β) : Res β :=
  match x with
  | .next a => f a
  | .fault e => .fault e
  | .refused r => .refused r

/-! Memory: 65,536 bytes (R51). -/

/-- The byte at an address; an unlisted address reads as `Config.unlistedByte` (log 1). -/
def Memory.read : Memory → Nat → Byte
  | [], _ => Config.unlistedByte
  | (k, w) :: m, a => if k = a then w else Memory.read m a

/-- Memory with the byte at an address written, in canonical form: the value an unlisted address reads as is not listed. -/
def Memory.write : Memory → Nat → Byte → Memory
  | [], a, v => if v = Config.unlistedByte then [] else [(a, v)]
  | (k, w) :: m, a, v =>
    if k < a then (k, w) :: Memory.write m a v
    else if k = a then (if v = Config.unlistedByte then m else (a, v) :: m)
    else if v = Config.unlistedByte then (k, w) :: m
    else (a, v) :: (k, w) :: m

/-- The canonical form from an address on: addresses strictly rising, in the address space, no listed byte equal to what an
unlisted address reads as. -/
def Memory.wfFrom : Nat → Memory → Bool
  | _, [] => true
  | lo, (k, w) :: m => decide (lo ≤ k) && decide (k < 65536) && (w != Config.unlistedByte) && Memory.wfFrom (k + 1) m

/-- Memory is in its canonical form. -/
def Memory.wf (m : Memory) : Bool := Memory.wfFrom 0 m

/-! The bus (R50, R52, R60). -/

/-- Whether an address lies in a range. -/
def AddrRange.contains (r : AddrRange) (a : Addr) : Bool := decide (r.first ≤ a.toNat) && decide (a.toNat ≤ r.last)

/-- The ranges that are left of one when one address is taken out of it. -/
def AddrRange.without (a : Addr) (r : AddrRange) : List AddrRange :=
  if r.contains a then
    (if r.first < a.toNat then [{ first := r.first, last := a.toNat - 1 }] else []) ++
    (if a.toNat < r.last then [{ first := a.toNat + 1, last := r.last }] else [])
  else [r]

/-- Whether an address lies in one of the ranges. -/
def inRanges (rs : List AddrRange) (a : Addr) : Bool := rs.any (fun r => r.contains a)

/-- Whether something is mapped for reads at the address (R52); a device there may still fail one. -/
def Bus.readable (b : Bus) (a : Addr) : Bool := ! inRanges b.noRead a

/-- Whether something is mapped for writes at the address (R52); a device there may still fail one. -/
def Bus.writable (b : Bus) (a : Addr) : Bool := ! inRanges b.noWrite a

/-- Whether the address is a device's (R60). -/
def Bus.isDevice (b : Bus) (a : Addr) : Bool := inRanges b.device a

/-- One bus read: the byte, or none where the bus fails it, and the bus after it (R50, R52). A device answers or fails with the
free value and has then seen the read (R205; log 3). -/
def Bus.read (b : Bus) (a : Addr) : Option Byte × Bus :=
  if b.readable a then
    if b.isDevice a then
      let answer := Config.deviceRead b.log a
      (answer, { b with log := .read a answer :: b.log })
    else (some (b.ram.read a.toNat), b)
  else (none, b)

/-- One bus write: whether the bus takes it, and the bus after it (R50, R52). A device takes or fails it by the free value and
has then seen it; memory keeps its bytes (R205; log 3). -/
def Bus.write (b : Bus) (a : Addr) (v : Byte) : Bool × Bus :=
  if b.writable a then
    if b.isDevice a then
      let taken := Config.deviceWrite b.log a v
      (taken, { b with log := .write a v taken :: b.log })
    else (true, { b with ram := b.ram.write a.toNat v })
  else (false, b)

/-! The registers: each has this one home, and every write goes through one of these. -/

def State.withA (s : State) (v : Byte) : State := { s with A := v }
def State.withX (s : State) (v : Byte) : State := { s with X := v }
def State.withY (s : State) (v : Byte) : State := { s with Y := v }
def State.withS (s : State) (v : Byte) : State := { s with S := v }
def State.withP (s : State) (v : Byte) : State := { s with P := v }
def State.withPC (s : State) (v : Addr) : State := { s with PC := v }
def State.withBus (s : State) (v : Bus) : State := { s with bus := v }
def State.withCycles (s : State) (v : Nat) : State := { s with cycles := v }

/-- Whether a flag of P is 1 (R33). -/
def State.flag (s : State) (f : Flag) : Bool := getFlag f s.P

/-- One flag of P written. -/
def State.setFlag (s : State) (f : Flag) (v : Bool) : State := s.withP (Machine.setFlag f v s.P)

/-- The byte of memory at an address, as the host sees it; the byte a read answers where no device does. -/
def State.byteAt (s : State) (a : Addr) : Byte := s.bus.ram.read a.toNat

/-! The primitives of R14, R15 and R56. -/

/-- MemRead(addr, 1): one bus read; a failing one raises BusError(InvalidRead, addr), whatever it did to the bus done (R14,
R205). -/
def memRead (a : Addr) (s : State) : Res (Byte × State) :=
  match s.bus.read a with
  | (some v, b) => .next (v, s.withBus b)
  | (none, b) => .fault (.busError .invalidRead a (s.withBus b))

/-- MemWrite(addr, 1, v): one bus write; a failing one raises BusError(InvalidWrite, addr), whatever it did to the bus done (R14,
R205). -/
def memWrite (a : Addr) (v : Byte) (s : State) : Res State :=
  match s.bus.write a v with
  | (true, b) => .next (s.withBus b)
  | (false, b) => .fault (.busError .invalidWrite a (s.withBus b))

/-- FetchByte(): one instruction-stream byte; PC advances after a read that succeeds (R15). -/
def fetchByte (s : State) : Res (Byte × State) :=
  andThen (memRead s.PC s) fun (v, s1) => .next (v, s1.withPC (s1.PC + 1))

/-- The address S points at: 0x0100 + S (R15, R26). -/
def stackAddr (sp : Byte) : Addr := Config.stackPage + sp.setWidth 16

/-- Push(v): write, then decrement S modulo 256 (R15). -/
def push (v : Byte) (s : State) : Res State :=
  andThen (memWrite (stackAddr s.S) v s) fun s1 => .next (s1.withS (s1.S - 1))

/-- Pop(): increment S modulo 256, then read; S stays incremented when the read fails (R15). -/
def pop (s : State) : Res (Byte × State) :=
  let s1 := s.withS (s.S + 1)
  memRead (stackAddr s1.S) s1

/-- Push a 16-bit value, high byte first, so that its low byte ends at the lower address (R54, R163, R190). -/
def pushWord (a : Addr) (s : State) : Res State :=
  andThen (push (hiByte a) s) fun s1 => push (loByte a) s1

/-- Pop a 16-bit value, low byte first (R164, R191). -/
def popWord (s : State) : Res (Addr × State) :=
  andThen (pop s) fun (lo, s1) => andThen (pop s1) fun (hi, s2) => .next (word hi lo, s2)

/-- Read16(addr), for vectors: low byte first, the high byte at the next address modulo 65,536 (R56). -/
def read16 (a : Addr) (s : State) : Res (Addr × State) :=
  andThen (memRead a s) fun (lo, s1) => andThen (memRead (a + 1) s1) fun (hi, s2) => .next (word hi lo, s2)

/-! Interrupt entry and return. -/

/-- The entry sequence of BRK, IRQ and NMI (R215): push the return address high byte, its low byte and the status image, read
the vector low byte first, then set I and load PC. I and PC are written only after the last access (decisions D15, D25). -/
def enterInterrupt (ret : Addr) (image : Byte) (vector : Addr) (s : State) : Res State :=
  andThen (pushWord ret s) fun s1 =>
  andThen (push image s1) fun s2 =>
  andThen (read16 vector s2) fun (target, s3) =>
  .next ((s3.setFlag .I true).withPC target)

/-- The return of RTI (R191, R216): pop the status, then the address low byte first; P takes the popped byte with B and U
forced to 1, PC the popped address exactly. Both are written only after the last access. -/
def returnFromInterrupt (s : State) : Res State :=
  andThen (pop s) fun (p, s1) =>
  andThen (popWord s1) fun (target, s2) =>
  .next ((s2.withP (restoredStatus p)).withPC target)

end Sys2Proof.Machine
end

