-- ==== Sys2Proof/Machine/Operands.lean ====
section
/-! DEFINITION. The addressing-mode resolver (30_encoding.md R71–R85) and the operand helpers of 00_scope.md R16. The step
engine has fetched the operand bytes, in the order R71 and R72 give, before the resolver's pointer reads, so PC is the
address after the instruction here (R28, R66). -/

namespace Sys2Proof.Machine

/-- The resolved operand the resolver hands a handler (R16); it is never stored between steps (R43). -/
inductive Resolved where
  | byte (v : Byte)
  | address (a : Addr)
  | addressWithOverflow (a : Addr) (crossed : Bool)
  | none
  deriving DecidableEq, Repr

/-- `zext_16`, a zero-page address (R12, R19). -/
def zeroPage (b : Byte) : Addr := b.setWidth 16

/-- An address indexed with 16-bit wrap, and whether the index carries out of the low address byte (R80, R81, R84; decision
D8). -/
def indexed (base : Addr) (index : Byte) : Resolved :=
  .addressWithOverflow (base + index.setWidth 16) (decide ((loByte base).toNat + index.toNat > 0xFF))

/-- A pointer in the zero page: its low byte at `t`, its high byte at `t + 1` modulo 256 (R83, R84; decision D7). -/
def readZeroPagePointer (t : Byte) (s : State) : Res (Addr × State) :=
  andThen (memRead (zeroPage t) s) fun (lo, s1) =>
  andThen (memRead (zeroPage (t + 1)) s1) fun (hi, s2) =>
  .next (word hi lo, s2)

/-- Where `JMP (ptr)` reads the high byte of its target: the next address, or with the parameter the next address within the
pointer's page (R82, R8). -/
def pointerHighAddr (cfg : Config) (ptr : Addr) : Addr :=
  if cfg.jmpIndirectPageWrap then word (hiByte ptr) (loByte ptr + 1) else ptr + 1

/-- The target of `JMP (ptr)`, low byte first (R82). -/
def readIndirect (ptr : Addr) (s : State) : Res (Addr × State) :=
  andThen (memRead ptr s) fun (lo, s1) =>
  andThen (memRead (pointerHighAddr s1.cfg ptr) s1) fun (hi, s2) =>
  .next (word hi lo, s2)

/-- The branch target of a displacement, relative to the address after the branch, and whether it lies in another page than
that address (R85; decision D19). -/
def relativeTarget (pc : Addr) (d : Byte) : Resolved :=
  let target := pc + d.signExtend 16
  .addressWithOverflow target (hiByte target != hiByte pc)

/-- The resolver, mode by mode (R73–R85). -/
def resolve (o : Operand) (s : State) : Res (Resolved × State) :=
  match o with
  | .implied => .next (.none, s)
  | .accumulator => .next (.byte s.A, s)
  | .immediate b => .next (.byte b, s)
  | .zeropage b => .next (.address (zeroPage b), s)
  | .zeropageXIndex b => .next (.address (zeroPage (b + s.X)), s)
  | .zeropageYIndex b => .next (.address (zeroPage (b + s.Y)), s)
  | .absolute a => .next (.address a, s)
  | .absoluteXIndex a => .next (indexed a s.X, s)
  | .absoluteYIndex a => .next (indexed a s.Y, s)
  | .indirect a => andThen (readIndirect a s) fun (target, s1) => .next (.address target, s1)
  | .xIndexIndirect b => andThen (readZeroPagePointer (b + s.X) s) fun (a, s1) => .next (.address a, s1)
  | .indirectYIndex b => andThen (readZeroPagePointer b s) fun (base, s1) => .next (indexed base s1.Y, s1)
  | .relative d => .next (relativeTarget s.PC d, s)

/-- OperandValue(op): the byte itself, or one bus read at the address (R16). -/
def operandValue (op : Resolved) (s : State) : Res (Byte × State) :=
  match op with
  | .byte v => .next (v, s)
  | .address a => memRead a s
  | .addressWithOverflow a _ => memRead a s
  | .none => .fault (.addressingModeError s)

/-- OperandAddress(op): the address, without an access (R16). -/
def operandAddress (op : Resolved) (s : State) : Res Addr :=
  match op with
  | .address a => .next a
  | .addressWithOverflow a _ => .next a
  | .byte _ => .fault (.addressingModeError s)
  | .none => .fault (.addressingModeError s)

/-- PageCross(op) (R16). -/
def pageCross (op : Resolved) : Bool :=
  match op with
  | .addressWithOverflow _ crossed => crossed
  | .byte _ | .address _ | .none => false

/-- The cycle a read-class handler adds on a page crossing (R88; decision D4). -/
def pageCrossExtra (op : Resolved) : Nat := if pageCross op then 1 else 0

end Sys2Proof.Machine
end

