-- ==== Sys2Proof/Machine/Handlers.lean ====
section
/-! DEFINITION. The shapes the handlers share. Each runs in the state the step engine leaves it (30_encoding.md R90): the
instruction's bytes fetched and PC after them; each runs the resolver, makes its data accesses, writes registers and flags
only after the last access (decision D15), and leaves the cycle count `base + extra` (R90, R251) in `cycles`. -/

namespace Sys2Proof.Machine

/-- The end of a successful handler: the step returns the base cost of the handler and mode plus `extra` (R90). -/
def finish (m : Mnemonic) (o : Operand) (extra : Nat) (s : State) : State := s.withCycles (baseCycles m o.mode + extra)

/-- The handlers that read one operand byte and use it: `use` writes registers and flags from the byte, `extra` is the
handler's extra cycles. -/
def readHandler (m : Mnemonic) (extra : Resolved → Nat) (use : Byte → State → State) (o : Operand) (s : State) :
    Res State :=
  andThen (resolve o s) fun (op, s1) =>
  andThen (operandValue op s1) fun (v, s2) =>
  .next (finish m o (extra op) (use v s2))

/-- The stores: one bus write of a register, no read of the target, no flag (R103–R105). -/
def storeHandler (m : Mnemonic) (value : State → Byte) (o : Operand) (s : State) : Res State :=
  andThen (resolve o s) fun (op, s1) =>
  andThen (operandAddress op s1) fun a =>
  andThen (memWrite a (value s1) s1) fun s2 =>
  .next (finish m o 0 s2)

/-- The read-modify-write sequence on memory: one read, one write of the result, then the flags (42_shift_incdec.md, RMW;
decisions D15, D17). -/
def modifyMemory (result : Byte → State → Byte) (flags : Byte → State → State) (op : Resolved) (s : State) : Res State :=
  andThen (operandAddress op s) fun a =>
  andThen (memRead a s) fun (v, s1) =>
  andThen (memWrite a (result v s1) s1) fun s2 =>
  .next (flags v s2)

/-- ASL, LSR, ROL, ROR: on A in the Accumulator mode, on memory otherwise (R74, R130–R133). -/
def shiftHandler (m : Mnemonic) (f : Byte → Bool → Shifted) (o : Operand) (s : State) : Res State :=
  andThen (resolve o s) fun (op, s1) =>
  if o.mode = .accumulator then
    let r := f s1.A (s1.flag .C)
    .next (finish m o 0 ((s1.withA r.result).withP (setShiftFlags r s1.P)))
  else
    andThen (modifyMemory (fun v t => (f v (t.flag .C)).result)
      (fun v t => t.withP (setShiftFlags (f v (t.flag .C)) t.P)) op s1) fun s2 =>
    .next (finish m o 0 s2)

/-- INC, DEC: read-modify-write on memory, N and Z from the result (R134, R135). -/
def incDecHandler (m : Mnemonic) (f : Byte → Byte) (o : Operand) (s : State) : Res State :=
  andThen (resolve o s) fun (op, s1) =>
  andThen (modifyMemory (fun v _ => f v) (fun v t => t.withP (setNZ (f v) t.P)) op s1) fun s2 =>
  .next (finish m o 0 s2)

/-- The eight branches: PC takes the target when the condition on P holds; 1 extra cycle when taken, 1 more when the target
lies in another page (R153). -/
def branchHandler (m : Mnemonic) (cond : Byte → Bool) (o : Operand) (s : State) : Res State :=
  andThen (resolve o s) fun (op, s1) =>
  match op with
  | .addressWithOverflow target crossed =>
    if cond s1.P then .next (finish m o (if crossed then 2 else 1) (s1.withPC target)) else .next (finish m o 0 s1)
  | .byte _ | .address _ | .none => .fault (.addressingModeError s1)

/-- The instructions of the Implied mode that touch registers alone: no bus access, nothing raised. -/
def registerHandler (m : Mnemonic) (f : State → State) (s : State) : Res State := .next (finish m .implied 0 (f s))

/-- The instructions of the Implied mode that use the bus. -/
def impliedHandler (m : Mnemonic) (f : State → Res State) (s : State) : Res State :=
  andThen (f s) fun s1 => .next (finish m .implied 0 s1)

end Sys2Proof.Machine
end

