-- ==== Sys2Proof/Machine/ArithLogic.lean ====
section
/-! DEFINITION. Arithmetic and logical instructions (41_arithmetic_logical.md). -/

namespace Sys2Proof.Machine

/-- A and the flags C, V, N, Z after adding a byte and the carry to A (R120). -/
def addToA (v : Byte) (s : State) : State :=
  let r := addWithCarry s.A v (s.flag .C)
  (s.withA r.result).withP (setSumFlags r s.P)

/-- A and the flags N, Z after a logical operation (R122–R124). -/
def logicToA (r : Byte) (s : State) : State := (s.withA r).withP (setNZ r s.P)

/-- ADC (R120): binary whatever D holds. -/
def execAdc (o : Operand) (s : State) : Res State := readHandler .adc pageCrossExtra addToA o s

/-- SBC (R121): ADC with the operand's bits inverted. -/
def execSbc (o : Operand) (s : State) : Res State := readHandler .sbc pageCrossExtra (fun m t => addToA (~~~ m) t) o s

/-- AND (R122). -/
def execAnd (o : Operand) (s : State) : Res State :=
  readHandler .and pageCrossExtra (fun v t => logicToA (t.A &&& v) t) o s

/-- EOR (R123). -/
def execEor (o : Operand) (s : State) : Res State :=
  readHandler .eor pageCrossExtra (fun v t => logicToA (t.A ^^^ v) t) o s

/-- ORA (R124). -/
def execOra (o : Operand) (s : State) : Res State :=
  readHandler .ora pageCrossExtra (fun v t => logicToA (t.A ||| v) t) o s

end Sys2Proof.Machine
end

