-- ==== Sys2Proof/Machine/CompareBranchJump.lean ====
section
/-! DEFINITION. Compares, branches, jumps and subroutines (43_compare_branch_jump.md). -/

namespace Sys2Proof.Machine

/-- CMP (R150). -/
def execCmp (o : Operand) (s : State) : Res State :=
  readHandler .cmp pageCrossExtra (fun m t => t.withP (setCompareFlags t.A m t.P)) o s

/-- CPX (R151): no extra cycle. -/
def execCpx (o : Operand) (s : State) : Res State :=
  readHandler .cpx (fun _ => 0) (fun m t => t.withP (setCompareFlags t.X m t.P)) o s

/-- CPY (R152): no extra cycle. -/
def execCpy (o : Operand) (s : State) : Res State :=
  readHandler .cpy (fun _ => 0) (fun m t => t.withP (setCompareFlags t.Y m t.P)) o s

/-- BCC (R154). -/
def execBcc (o : Operand) (s : State) : Res State := branchHandler .bcc (fun p => ! getFlag .C p) o s

/-- BCS (R155). -/
def execBcs (o : Operand) (s : State) : Res State := branchHandler .bcs (fun p => getFlag .C p) o s

/-- BEQ (R156). -/
def execBeq (o : Operand) (s : State) : Res State := branchHandler .beq (fun p => getFlag .Z p) o s

/-- BMI (R157). -/
def execBmi (o : Operand) (s : State) : Res State := branchHandler .bmi (fun p => getFlag .N p) o s

/-- BNE (R158). -/
def execBne (o : Operand) (s : State) : Res State := branchHandler .bne (fun p => ! getFlag .Z p) o s

/-- BPL (R159). -/
def execBpl (o : Operand) (s : State) : Res State := branchHandler .bpl (fun p => ! getFlag .N p) o s

/-- BVC (R160). -/
def execBvc (o : Operand) (s : State) : Res State := branchHandler .bvc (fun p => ! getFlag .V p) o s

/-- BVS (R161). -/
def execBvs (o : Operand) (s : State) : Res State := branchHandler .bvs (fun p => getFlag .V p) o s

/-- JMP (R162). -/
def execJmp (o : Operand) (s : State) : Res State :=
  andThen (resolve o s) fun (op, s1) =>
  andThen (operandAddress op s1) fun a =>
  .next (finish .jmp o 0 (s1.withPC a))

/-- JSR (R163): pushes the address of its own last byte, PC - 1, high byte first, then jumps. -/
def execJsr (o : Operand) (s : State) : Res State :=
  andThen (resolve o s) fun (op, s1) =>
  andThen (operandAddress op s1) fun a =>
  andThen (pushWord (s1.PC - 1) s1) fun s2 =>
  .next (finish .jsr o 0 (s2.withPC a))

/-- RTS (R164): pops the address, low byte first, and continues one after it. -/
def execRts (s : State) : Res State :=
  impliedHandler .rts (fun t => andThen (popWord t) fun (a, t1) => .next (t1.withPC (a + 1))) s

end Sys2Proof.Machine
end

