-- ==== Sys2Proof/Machine/InterruptMisc.lean ====
section
/-! DEFINITION. Interrupt, return and miscellaneous instructions, and the unimplemented handler (45_interrupt_misc.md). -/

namespace Sys2Proof.Machine

/-- BRK (R190): interrupt entry through the IRQ vector; the return address skips the signature byte, which is not read, and
the image has Break set. Taken whatever I holds. -/
def execBrk (s : State) : Res State :=
  impliedHandler .brk (fun t => enterInterrupt (t.PC + 1) (imageWithBreak t.P) Config.irqVector t) s

/-- RTI (R191). -/
def execRti (s : State) : Res State := impliedHandler .rti returnFromInterrupt s

/-- NOP (R192). -/
def execNop (s : State) : Res State := registerHandler .nop (fun t => t) s

/-- BIT (R193): no extra cycle. -/
def execBit (o : Operand) (s : State) : Res State :=
  readHandler .bit (fun _ => 0) (fun m t => t.withP (setBitFlags t.A m t.P)) o s

/-- The handler of an unassigned opcode byte (R194): the call ends with OpcodeNotImplemented; nothing is read or changed
beyond the opcode fetch. -/
def execUnimplemented (opcode : Byte) (s : State) : Res State := .fault (.opcodeNotImplemented opcode s)

end Sys2Proof.Machine
end

