-- ==== Sys2Proof/Machine/LoadStore.lean ====
section
/-! DEFINITION. Loads, stores and register transfers (40_load_store.md). -/

namespace Sys2Proof.Machine

/-- LDA (R100). -/
def execLda (o : Operand) (s : State) : Res State :=
  readHandler .lda pageCrossExtra (fun v t => (t.withA v).withP (setNZ v t.P)) o s

/-- LDX (R101). -/
def execLdx (o : Operand) (s : State) : Res State :=
  readHandler .ldx pageCrossExtra (fun v t => (t.withX v).withP (setNZ v t.P)) o s

/-- LDY (R102). -/
def execLdy (o : Operand) (s : State) : Res State :=
  readHandler .ldy pageCrossExtra (fun v t => (t.withY v).withP (setNZ v t.P)) o s

/-- STA (R103). -/
def execSta (o : Operand) (s : State) : Res State := storeHandler .sta State.A o s

/-- STX (R104). -/
def execStx (o : Operand) (s : State) : Res State := storeHandler .stx State.X o s

/-- STY (R105). -/
def execSty (o : Operand) (s : State) : Res State := storeHandler .sty State.Y o s

/-- TAX (R106). -/
def execTax (s : State) : Res State := registerHandler .tax (fun t => (t.withX t.A).withP (setNZ t.A t.P)) s

/-- TAY (R107). -/
def execTay (s : State) : Res State := registerHandler .tay (fun t => (t.withY t.A).withP (setNZ t.A t.P)) s

/-- TSX (R108; decision D32: N and Z are set). -/
def execTsx (s : State) : Res State := registerHandler .tsx (fun t => (t.withX t.S).withP (setNZ t.S t.P)) s

/-- TXA (R109). -/
def execTxa (s : State) : Res State := registerHandler .txa (fun t => (t.withA t.X).withP (setNZ t.X t.P)) s

/-- TXS (R110): the one transfer that sets no flag. -/
def execTxs (s : State) : Res State := registerHandler .txs (fun t => t.withS t.X) s

/-- TYA (R111). -/
def execTya (s : State) : Res State := registerHandler .tya (fun t => (t.withA t.Y).withP (setNZ t.Y t.P)) s

end Sys2Proof.Machine
end

