-- ==== Sys2Proof/Machine/ShiftIncDec.lean ====
section
/-! DEFINITION. Shifts, rotates, increments and decrements (42_shift_incdec.md). -/

namespace Sys2Proof.Machine

/-- ASL (R130). -/
def execAsl (o : Operand) (s : State) : Res State := shiftHandler .asl shiftLeft o s

/-- LSR (R131). -/
def execLsr (o : Operand) (s : State) : Res State := shiftHandler .lsr shiftRight o s

/-- ROL (R132). -/
def execRol (o : Operand) (s : State) : Res State := shiftHandler .rol rotateLeft o s

/-- ROR (R133). -/
def execRor (o : Operand) (s : State) : Res State := shiftHandler .ror rotateRight o s

/-- INC (R134): modulo 256, C and V unchanged. -/
def execInc (o : Operand) (s : State) : Res State := incDecHandler .inc (fun v => v + 1) o s

/-- DEC (R135): modulo 256, C and V unchanged. -/
def execDec (o : Operand) (s : State) : Res State := incDecHandler .dec (fun v => v - 1) o s

/-- INX (R136). -/
def execInx (s : State) : Res State :=
  registerHandler .inx (fun t => (t.withX (t.X + 1)).withP (setNZ (t.X + 1) t.P)) s

/-- INY (R137). -/
def execIny (s : State) : Res State :=
  registerHandler .iny (fun t => (t.withY (t.Y + 1)).withP (setNZ (t.Y + 1) t.P)) s

/-- DEX (R138). -/
def execDex (s : State) : Res State :=
  registerHandler .dex (fun t => (t.withX (t.X - 1)).withP (setNZ (t.X - 1) t.P)) s

/-- DEY (R139). -/
def execDey (s : State) : Res State :=
  registerHandler .dey (fun t => (t.withY (t.Y - 1)).withP (setNZ (t.Y - 1) t.P)) s

end Sys2Proof.Machine
end

