-- ==== Sys2Proof/Machine/StackFlag.lean ====
section
/-! DEFINITION. Stack and flag instructions (44_stack_flags.md). -/

namespace Sys2Proof.Machine

/-- PHA (R170). -/
def execPha (s : State) : Res State := impliedHandler .pha (fun t => push t.A t) s

/-- PHP (R171): the image has B and U set, P itself is unchanged. -/
def execPhp (s : State) : Res State := impliedHandler .php (fun t => push (imageWithBreak t.P) t) s

/-- PLA (R172). -/
def execPla (s : State) : Res State :=
  impliedHandler .pla (fun t => andThen (pop t) fun (v, t1) => .next ((t1.withA v).withP (setNZ v t1.P))) s

/-- PLP (R173): B and U are set whatever the popped byte holds. -/
def execPlp (s : State) : Res State :=
  impliedHandler .plp (fun t => andThen (pop t) fun (v, t1) => .next (t1.withP (restoredStatus v))) s

/-- CLC (R174). -/
def execClc (s : State) : Res State := registerHandler .clc (fun t => t.setFlag .C false) s

/-- CLD (R175). -/
def execCld (s : State) : Res State := registerHandler .cld (fun t => t.setFlag .D false) s

/-- CLI (R176). -/
def execCli (s : State) : Res State := registerHandler .cli (fun t => t.setFlag .I false) s

/-- CLV (R177). -/
def execClv (s : State) : Res State := registerHandler .clv (fun t => t.setFlag .V false) s

/-- SEC (R178). -/
def execSec (s : State) : Res State := registerHandler .sec (fun t => t.setFlag .C true) s

/-- SED (R179). -/
def execSed (s : State) : Res State := registerHandler .sed (fun t => t.setFlag .D true) s

/-- SEI (R180). -/
def execSei (s : State) : Res State := registerHandler .sei (fun t => t.setFlag .I true) s

end Sys2Proof.Machine
end

