-- ==== Sys2Proof/Machine/Fetch.lean ====
section
/-! DEFINITION. Fetching and decoding the instruction at PC (30_encoding.md R70–R72, R90), and placing an instruction word
where the next fetch finds it. -/

namespace Sys2Proof.Machine

/-- The fetch half of `step` (R90): the opcode, then as many operand bytes as its mode takes, one bus read each, PC advancing
after each read that succeeds (R15). An unassigned opcode takes none (R194). -/
def fetchInstr (s : State) : Res (Instr × State) :=
  andThen (fetchByte s) fun (opcode, s1) =>
  match operandBytesOf opcode with
  | 0 => .next (instrOf opcode 0 0, s1)
  | 1 => andThen (fetchByte s1) fun (b1, s2) => .next (instrOf opcode b1 0, s2)
  | _ =>
    andThen (fetchByte s1) fun (b1, s2) =>
    andThen (fetchByte s2) fun (b2, s3) =>
    .next (instrOf opcode b1 b2, s3)

/-- The bus with a byte placed at an address as memory that can be read: what the host does when it loads a program (R244).
The address is taken out of the unmapped and the device ranges; every other address keeps them. -/
def Bus.place (b : Bus) (a : Addr) (v : Byte) : Bus :=
  { b with
    ram := b.ram.write a.toNat v
    noRead := b.noRead.flatMap (AddrRange.without a)
    device := b.device.flatMap (AddrRange.without a) }

end Sys2Proof.Machine
end

