-- ==== Sys2Proof/Machine/Step.lean ====
section
/-! DEFINITION. `step`: one whole instruction (30_encoding.md R90). The step engine does not poll for interrupts (R212); `irq`
and `nmi` are host calls of their own, in HostInterface.lean. -/

namespace Sys2Proof.Machine

/-- One instruction: fetch and decode it, then run its handler in the state the fetch leaves (R90). -/
def step (s : State) : Host.Outcome State Fault Refusal := andThen (fetchInstr s) fun (i, s1) => exec i s1

/-- `s` with an instruction word of the opcode table stored at PC, where `step` fetches its next instruction: bits 7..0 at
PC, bits 15..8 at PC + 1, bits 23..16 at PC + 2, addresses modulo 65,536 (R29, R70; log 9). -/
def State.withFetchWord (s : State) (nbits w : Nat) : State :=
  let (b0, b1, b2) := tableWordBytes nbits w
  s.withBus (((s.bus.place s.PC b0).place (s.PC + 1) b1).place (s.PC + 2) b2)

end Sys2Proof.Machine
end

