-- ==== Sys2Proof/Machine/HostInterface.lean ====
section
/-! DEFINITION. What the host can do to the core (60_exceptions.md R209–R216, R224): the interrupt entries `irq` and `nmi`, the
PC write, the bus between calls, and a run as a list of host calls. `step` takes no interrupt (R212): IRQ and NMI exist only
as these calls (R44; log 7). -/

namespace Sys2Proof.Machine

/-- IRQ entry (R210): ignored entirely when I is set, and 0 cycles; otherwise the entry sequence with the current PC, Break
clear in the image, the vector 0xFFFE, and 7 cycles. -/
def irq (s : State) : Res State :=
  if s.flag .I then .next (s.withCycles 0)
  else
    andThen (enterInterrupt s.PC (imageWithoutBreak s.P) Config.irqVector s) fun s1 =>
    .next (s1.withCycles Config.interruptCycles)

/-- NMI entry (R211): never masked, the vector 0xFFFA, 7 cycles. -/
def nmi (s : State) : Res State :=
  andThen (enterInterrupt s.PC (imageWithoutBreak s.P) Config.nmiVector s) fun s1 =>
  .next (s1.withCycles Config.interruptCycles)

/-- One interaction of the host with the core (R224). The host reads every register (R33: the fields of `State` and
`State.flag`) and writes PC alone (R31; decision D33); the bus is its own. -/
inductive HostCall where
  /-- `step(bus)` (R90). -/
  | step
  /-- `irq(bus)` (R210). -/
  | irq
  /-- `nmi(bus)` (R211). -/
  | nmi
  /-- PC <- value, between calls (R31). -/
  | writePC (v : Addr)
  /-- A byte of the bus's memory written by the host: loading an image (R224, R244). -/
  | loadByte (a : Addr) (v : Byte)
  /-- The devices' own state changed by the host (R224: "the whole bus, between calls (loading images, device state)"), in the
  way the number codes: every later answer of a device is a free value of it too. -/
  | changeDevices (change : Nat)
  /-- The bus mapped anew: which addresses fail and which are a device's (R52, R60). -/
  | remap (noRead noWrite device : List AddrRange)
  deriving DecidableEq, Repr

/-- What a host call does (R224). -/
def hostCall (c : HostCall) (s : State) : Res State :=
  match c with
  | .step => Machine.step s
  | .irq => Machine.irq s
  | .nmi => Machine.nmi s
  | .writePC v => .next (s.withPC v)
  | .loadByte a v => .next (s.withBus { s.bus with ram := s.bus.ram.write a.toNat v })
  | .changeDevices change => .next (s.withBus { s.bus with log := .host change :: s.bus.log })
  | .remap noRead noWrite device =>
    .next (s.withBus { s.bus with noRead := noRead, noWrite := noWrite, device := device })

/-- The state an error leaves (R204). -/
def Fault.after : Fault → State
  | .busError _ _ t => t
  | .addressingModeError t => t
  | .opcodeNotImplemented _ t => t

/-- The numeric code of an error (R200; decision D20). -/
def Fault.code : Fault → Nat
  | .busError .invalidRead _ _ => 0
  | .busError .invalidWrite _ _ => 1
  | .addressingModeError _ => 2
  | .opcodeNotImplemented _ _ => 3

/-- The parameter HostPolicy (R10): what the host does after an error. -/
inductive HostPolicy where
  /-- Halt: the error ends the run. The default, and what a model with no host policy does (R207). -/
  | halt
  /-- Go on from the state the error left, as a host that logs it and calls again does (R194). -/
  | resume
  deriving DecidableEq, Repr

/-- A run: the host's calls in order, the sequence being the host's input (R212, 93 I11). -/
def runCalls (policy : HostPolicy) : List HostCall → State → Res State
  | [], s => .next s
  | c :: cs, s =>
    match hostCall c s, policy with
    | .next t, _ => runCalls policy cs t
    | .fault e, .halt => .fault e
    | .fault e, .resume => runCalls policy cs e.after
    | .refused r, _ => .refused r

end Sys2Proof.Machine
end

