-- ==== Sys2Proof/Safety.lean ====
section
/-! DEFINITION. What counts as a good state and a safe run, in the terms the statements use. -/

namespace Sys2Proof.Machine

/-- The invariant of the machine: memory is in its canonical form, and P's Unused bit is 1 (10_state.md R38: "P.U = 1 in every
reachable state"). -/
structure State.Inv (s : State) : Prop where
  memory : s.bus.ram.wf = true
  unused : s.flag .U = true

/-- The four byte registers (10_state.md R22–R26). -/
inductive Reg where
  | A | X | Y | S
  deriving DecidableEq, Repr

/-- The value of a byte register. -/
def State.reg (s : State) : Reg → Byte
  | .A => s.A
  | .X => s.X
  | .Y => s.Y
  | .S => s.S

/-- The frame of an instruction, from `s` to `t`: every byte register outside `regs`, every flag outside `flags`, every byte of
memory outside `stored`, the configuration and the bus's ranges are unchanged. It says nothing of PC, of the cycle count and
of what devices have seen. -/
structure State.Frame (regs : List Reg) (flags : List Flag) (stored : List Addr) (s t : State) : Prop where
  regs : ∀ r, r ∉ regs → t.reg r = s.reg r
  flags : ∀ f, f ∉ flags → t.flag f = s.flag f
  memory : ∀ a, a ∉ stored → t.byteAt a = s.byteAt a
  cfg : t.cfg = s.cfg
  noRead : t.bus.noRead = s.bus.noRead
  noWrite : t.bus.noWrite = s.bus.noWrite
  device : t.bus.device = s.bus.device

/-- The state an error leaves, mapped. -/
def Fault.mapAfter (f : State → State) : Fault → Fault
  | .busError k a t => .busError k a (f t)
  | .addressingModeError t => .addressingModeError (f t)
  | .opcodeNotImplemented c t => .opcodeNotImplemented c (f t)

/-- The states of an answer, of a next state or of an error, mapped. -/
def mapStates (f : State → State) : Res State → Res State
  | .next t => .next (f t)
  | .fault e => .fault (e.mapAfter f)
  | .refused r => .refused r

/-- The bus fails no access, whatever happens to its devices from here on: the case of `RamBus` (R61), and of a bus of memory and
of devices that never fail an access. -/
def State.BusAnswers (s : State) : Prop :=
  ∀ (later : List BusEvent) (a : Addr),
    ({ s.bus with log := later ++ s.bus.log }.read a).1.isSome = true ∧
    ∀ v, ({ s.bus with log := later ++ s.bus.log }.write a v).1 = true

/-- The address is plain memory: a read gives the byte last written, with no effect (R61). -/
def State.PlainMemory (s : State) (a : Addr) : Prop := s.bus.readable a = true ∧ s.bus.isDevice a = false

/-- How a handler that reads its operand ends in an error, once the resolver has answered `op` in `s1`: the data read fails, or
the operand has no value (the "Exceptions" line of 40_load_store.md R100). -/
def ReadErrors (i : Instr) (op : Resolved) (s s1 : State) : Prop :=
  (∀ a b, operandAddress op s1 = .next a → s1.bus.read a = (none, b) →
    exec i s = .fault (.busError .invalidRead a { s1 with bus := b })) ∧
  (op = .none → exec i s = .fault (.addressingModeError s1))

/-- How a store of the byte `v` ends in an error: the write fails, or the operand is not an address (R103). -/
def StoreErrors (i : Instr) (v : Byte) (op : Resolved) (s s1 : State) : Prop :=
  (∀ a b, operandAddress op s1 = .next a → s1.bus.write a v = (false, b) →
    exec i s = .fault (.busError .invalidWrite a { s1 with bus := b })) ∧
  ((∀ a, operandAddress op s1 ≠ .next a) → exec i s = .fault (.addressingModeError s1))

/-- How a read-modify-write of memory ends in an error, `isResult v r` saying that the byte `v` becomes `r`: the read fails, the
write fails after it, or the operand is not an address (R134). -/
def ModifyErrors (i : Instr) (isResult : Byte → Byte → Prop) (op : Resolved) (s s1 : State) : Prop :=
  (∀ a b, operandAddress op s1 = .next a → s1.bus.read a = (none, b) →
    exec i s = .fault (.busError .invalidRead a { s1 with bus := b })) ∧
  (∀ a v r b b', operandAddress op s1 = .next a → s1.bus.read a = (some v, b) → isResult v r → b.write a r = (false, b') →
    exec i s = .fault (.busError .invalidWrite a { s1 with bus := b' })) ∧
  ((∀ a, operandAddress op s1 ≠ .next a) → exec i s = .fault (.addressingModeError s1))

/-- The "base cycles" column of 30_encoding.md R88, by kind of handler: handlers that read their operand, stores, those that
modify it, branches, jumps, and the handlers of the Implied mode by cost. A pair of handler and mode it lacks is no row. -/
def costColumn : List (List Mnemonic × List (Mode × Nat)) :=
  [([.lda, .ldx, .ldy, .adc, .sbc, .and, .eor, .ora, .cmp, .cpx, .cpy, .bit],
      [(.immediate, 2), (.zeropage, 3), (.zeropageXIndex, 4), (.zeropageYIndex, 4), (.absolute, 4), (.absoluteXIndex, 4),
        (.absoluteYIndex, 4), (.xIndexIndirect, 6), (.indirectYIndex, 5)]),
    ([.sta, .stx, .sty],
      [(.zeropage, 3), (.zeropageXIndex, 4), (.zeropageYIndex, 4), (.absolute, 4), (.absoluteXIndex, 5), (.absoluteYIndex, 5),
        (.xIndexIndirect, 6), (.indirectYIndex, 6)]),
    ([.asl, .lsr, .rol, .ror, .inc, .dec],
      [(.accumulator, 2), (.zeropage, 5), (.zeropageXIndex, 6), (.absolute, 6), (.absoluteXIndex, 7)]),
    ([.bcc, .bcs, .beq, .bmi, .bne, .bpl, .bvc, .bvs], [(.relative, 2)]),
    ([.jmp], [(.absolute, 3), (.indirect, 5)]),
    ([.jsr], [(.absolute, 6)]),
    ([.tax, .tay, .tsx, .txa, .txs, .tya, .inx, .iny, .dex, .dey, .clc, .cld, .cli, .clv, .sec, .sed, .sei, .nop],
      [(.implied, 2)]),
    ([.pha, .php], [(.implied, 3)]),
    ([.pla, .plp], [(.implied, 4)]),
    ([.rts, .rti], [(.implied, 6)]),
    ([.brk], [(.implied, 7)])]

/-- `k` steps end without an error (R207: the premise "no step returned an error"). -/
def ErrorFree (k : Nat) (s : State) : Prop := ∃ t, Host.Core.run Sys2Proof.core k s = .next t

/-- Steps until the stop condition of a claim holds (60_exceptions.md R225), at most `fuel` of them. -/
def runUntil (stop : State → Bool) : Nat → State → Res State
  | 0, s => .next s
  | fuel + 1, s => if stop s then .next s else andThen (step s) (runUntil stop fuel)

end Sys2Proof.Machine
end

