-- ==== Sys2Proof/Certificates/Slice0/Obligations.lean ====
section
/-! DEFINITION. The statements for the provers. A meaning runs in the state the fetch leaves: PC is the address after the
instruction (10_state.md R28). `s.bus.read a = (some v, b)` says that the bus answers a read of `a` with `v` and is `b` afterwards,
`(none, b)` that it fails the read; `b.write a v = (true, b')` that it takes the write, `(false, b')` that it fails it. A failing
access has whatever effect the bus gives it (60_exceptions.md R205). Naming the bus after each access says which accesses
happen, in which order, and that there is no other (20_memory.md R59). -/

open Sys2Proof Sys2Proof.Machine

/-! ## Encoding -/

/-- R70, R88 (all forms): no bit of an encoding is dropped. -/
def Obligations.DecodeOfEncodeIsTheInstruction : Prop :=
  ∀ (i : Instr) (rest : List Byte), i.WellFormed → decode (encode i ++ rest) = .ok (i, rest)

/-- R70, R91, the other direction: bytes that decode are the encoding of the well-formed instruction they decode to. -/
def Obligations.EncodeOfDecodeGivesTheBytesBack : Prop :=
  ∀ (bytes rest : List Byte) (i : Instr), decode bytes = .ok (i, rest) → i.WellFormed ∧ encode i ++ rest = bytes

/-- R91, R89, R86: every opcode byte decodes, whatever follows it; to the unimplemented handler exactly when it is one of the
105 bytes of R89; and the instruction takes `length` bytes. -/
def Obligations.EveryOpcodeByteDecodes : Prop :=
  ∀ (opcode b1 b2 : Byte) (rest : List Byte), ∃ i,
    decode (opcode :: b1 :: b2 :: rest) = .ok (i, (opcode :: b1 :: b2 :: rest).drop i.length) ∧
    (i = .unimplemented opcode ↔ opcode ∈ unassignedOpcodes) ∧ (∀ c, i = .unimplemented c → c = opcode)

/-- Words written out from the "Encoding:" lines of the rules and the examples of R94. -/
def Obligations.SampleWordsDecode : Prop :=
  decode [0xA2, 0xEE] = .ok (.ldx (.immediate 0xEE), []) ∧
  decode [0xB5, 0xA1] = .ok (.lda (.zeropageXIndex 0xA1), []) ∧
  decode [0x99, 0x00, 0x02] = .ok (.sta (.absoluteYIndex 0x0200), []) ∧
  decode [0x71, 0x10] = .ok (.adc (.indirectYIndex 0x10), []) ∧
  decode [0x0A] = .ok (.asl .accumulator, []) ∧
  decode [0xE6, 0x10] = .ok (.inc (.zeropage 0x10), []) ∧
  decode [0xD0, 0xFE] = .ok (.bne (.relative 0xFE), []) ∧
  decode [0x6C, 0xFC, 0xFF] = .ok (.jmp (.indirect 0xFFFC), []) ∧
  decode [0x20, 0x00, 0x07] = .ok (.jsr (.absolute 0x0700), []) ∧
  decode [0x28] = .ok (.plp, []) ∧ decode [0x00, 0xEA] = .ok (.brk, [0xEA]) ∧
  decode [0x02] = .ok (.unimplemented 0x02, [])

/-! ## The resolver -/

/-- R73–R79: the modes that make no bus access. The zero-page addresses are below 0x0100 and wrap modulo 256. R16: what the
operand helpers answer for each of the four shapes: the value (one read at most), the address, the page crossing. -/
def Obligations.PlainModesAndOperandHelpers : Prop :=
  ∀ (s : State) (b : Byte) (a : Addr),
    resolve .implied s = .next (.none, s) ∧
    resolve .accumulator s = .next (.byte s.A, s) ∧
    resolve (.immediate b) s = .next (.byte b, s) ∧
    resolve (.absolute a) s = .next (.address a, s) ∧
    (∃ ea : Addr, resolve (.zeropage b) s = .next (.address ea, s) ∧ ea.toNat = b.toNat) ∧
    (∃ ea : Addr, resolve (.zeropageXIndex b) s = .next (.address ea, s) ∧ ea.toNat = (b.toNat + s.X.toNat) % 256) ∧
    (∃ ea : Addr, resolve (.zeropageYIndex b) s = .next (.address ea, s) ∧ ea.toNat = (b.toNat + s.Y.toNat) % 256) ∧
    (operandValue (.byte b) s = .next (b, s) ∧ operandAddress (.byte b) s = .fault (.addressingModeError s) ∧
      pageCross (.byte b) = false) ∧
    (operandValue .none s = .fault (.addressingModeError s) ∧ operandAddress .none s = .fault (.addressingModeError s) ∧
      pageCross .none = false) ∧
    ∀ (crossed : Bool) (op : Resolved), op = .address a ∧ crossed = false ∨ op = .addressWithOverflow a crossed →
      operandAddress op s = .next a ∧ pageCross op = crossed ∧
      (∀ v bus, s.bus.read a = (some v, bus) → operandValue op s = .next (v, { s with bus := bus })) ∧
      (∀ bus, s.bus.read a = (none, bus) → operandValue op s = .fault (.busError .invalidRead a { s with bus := bus }))

/-- R80, R81: the address wraps modulo 65,536; the crossing is the carry out of the low byte, which is the same as a change of
page, at the top of memory too. -/
def Obligations.IndexedAbsoluteAddressAndCrossing : Prop :=
  ∀ (s : State) (base : Addr),
    (∃ ea crossed, resolve (.absoluteXIndex base) s = .next (.addressWithOverflow ea crossed, s) ∧
      ea.toNat = (base.toNat + s.X.toNat) % 65536 ∧
      (crossed = true ↔ base.toNat % 256 + s.X.toNat > 0xFF) ∧
      (crossed = true ↔ ea.toNat / 256 ≠ base.toNat / 256)) ∧
    (∃ ea crossed, resolve (.absoluteYIndex base) s = .next (.addressWithOverflow ea crossed, s) ∧
      ea.toNat = (base.toNat + s.Y.toNat) % 65536 ∧
      (crossed = true ↔ base.toNat % 256 + s.Y.toNat > 0xFF) ∧
      (crossed = true ↔ ea.toNat / 256 ≠ base.toNat / 256))

/-- R83: the pointer is in the zero page, its high byte one after its low byte modulo 256. R71, R201: where a pointer read fails,
every instruction with that operand ends with InvalidRead at that byte of the pointer, PC after the instruction. -/
def Obligations.XIndexIndirectPointerWrapsInZeroPage : Prop :=
  ∀ (s : State) (b : Byte) (low high : Addr), low.toNat = (b.toNat + s.X.toNat) % 256 →
    high.toNat = (b.toNat + s.X.toNat + 1) % 256 →
    (∀ (i : Instr) (b1 : Bus), i.operand = .xIndexIndirect b → s.bus.read low = (none, b1) →
      exec i s = .fault (.busError .invalidRead low { s with bus := b1 })) ∧
    ∀ (lo : Byte) (b1 : Bus), s.bus.read low = (some lo, b1) →
    (∀ (i : Instr) (b2 : Bus), i.operand = .xIndexIndirect b → b1.read high = (none, b2) →
      exec i s = .fault (.busError .invalidRead high { s with bus := b2 })) ∧
    ∀ (hi : Byte) (b2 : Bus), b1.read high = (some hi, b2) →
      resolve (.xIndexIndirect b) s = .next (.address (BitVec.ofNat 16 (hi.toNat * 256 + lo.toNat)), { s with bus := b2 })

/-- R84: the zero-page pointer, then Y added with 16-bit wrap; the crossing is the carry out of the pointer's low byte. R71,
R201: where a pointer read fails, every instruction with that operand ends with InvalidRead at that byte of the pointer, PC
after the instruction. -/
def Obligations.IndirectYIndexAddressAndCrossing : Prop :=
  ∀ (s : State) (b : Byte) (low high : Addr), low.toNat = b.toNat → high.toNat = (b.toNat + 1) % 256 →
    (∀ (i : Instr) (b1 : Bus), i.operand = .indirectYIndex b → s.bus.read low = (none, b1) →
      exec i s = .fault (.busError .invalidRead low { s with bus := b1 })) ∧
    ∀ (lo : Byte) (b1 : Bus), s.bus.read low = (some lo, b1) →
    (∀ (i : Instr) (b2 : Bus), i.operand = .indirectYIndex b → b1.read high = (none, b2) →
      exec i s = .fault (.busError .invalidRead high { s with bus := b2 })) ∧
    ∀ (hi : Byte) (b2 : Bus), b1.read high = (some hi, b2) →
    ∃ ea crossed, resolve (.indirectYIndex b) s = .next (.addressWithOverflow ea crossed, { s with bus := b2 }) ∧
      ea.toNat = (hi.toNat * 256 + lo.toNat + s.Y.toNat) % 65536 ∧
      (crossed = true ↔ lo.toNat + s.Y.toNat > 0xFF)

/-- R82: the pointer's high byte is at the next address, or with JMP_INDIRECT_PAGE_WRAP at the next address within the
pointer's page. R71, R162: where a pointer read fails, JMP ends with InvalidRead at that byte of the pointer, PC after the
instruction. -/
def Obligations.IndirectPointerFollowsThePageWrapParameter : Prop :=
  ∀ (s : State) (ptr high : Addr),
    high.toNat = (if s.cfg.jmpIndirectPageWrap then ptr.toNat / 256 * 256 + (ptr.toNat + 1) % 256
      else (ptr.toNat + 1) % 65536) →
    (∀ (i : Instr) (b1 : Bus), i.operand = .indirect ptr → s.bus.read ptr = (none, b1) →
      exec i s = .fault (.busError .invalidRead ptr { s with bus := b1 })) ∧
    ∀ (lo : Byte) (b1 : Bus), s.bus.read ptr = (some lo, b1) →
    (∀ (i : Instr) (b2 : Bus), i.operand = .indirect ptr → b1.read high = (none, b2) →
      exec i s = .fault (.busError .invalidRead high { s with bus := b2 })) ∧
    ∀ (hi : Byte) (b2 : Bus), b1.read high = (some hi, b2) →
    resolve (.indirect ptr) s = .next (.address (BitVec.ofNat 16 (hi.toNat * 256 + lo.toNat)), { s with bus := b2 })

/-- R85: the signed displacement is added to the address after the branch, modulo 65,536; the crossing compares the two
pages. -/
def Obligations.RelativeTargetAndCrossing : Prop :=
  ∀ (s : State) (d : Byte), ∃ target crossed,
    resolve (.relative d) s = .next (.addressWithOverflow target crossed, s) ∧
    (target.toNat : Int) = ((s.PC.toNat : Int) + d.toInt) % 65536 ∧
    (crossed = true ↔ target.toNat / 256 ≠ s.PC.toNat / 256)

/-! ## The step engine -/

/-- R90: where the instruction's bytes are plain memory, a step is the decoded instruction's handler, run with PC after its
bytes. -/
def Obligations.StepRunsTheDecodedInstruction : Prop :=
  ∀ (s : State) (i : Instr) (rest : List Byte),
    decode [s.byteAt s.PC, s.byteAt (s.PC + 1), s.byteAt (s.PC + 2)] = .ok (i, rest) →
    (∀ k, k < i.length → s.PlainMemory (s.PC + BitVec.ofNat 16 k)) →
    step s = exec i { s with PC := s.PC + BitVec.ofNat 16 i.length }

/-- R90, R15, R201: a failing opcode fetch leaves PC; a failing operand fetch leaves PC at the failing byte. -/
def Obligations.FailingFetchLeavesPCAtTheByte : Prop :=
  ∀ s : State,
    (∀ b, s.bus.read s.PC = (none, b) → step s = .fault (.busError .invalidRead s.PC { s with bus := b })) ∧
    ∀ opcode b, s.bus.read s.PC = (some opcode, b) →
    (∀ b', 1 ≤ operandBytesOf opcode → b.read (s.PC + 1) = (none, b') →
      step s = .fault (.busError .invalidRead (s.PC + 1) { s with PC := s.PC + 1, bus := b' })) ∧
    ∀ b1 b', operandBytesOf opcode = 2 → b.read (s.PC + 1) = (some b1, b') →
    ∀ b'', b'.read (s.PC + 2) = (none, b'') →
      step s = .fault (.busError .invalidRead (s.PC + 2) { s with PC := s.PC + 2, bus := b'' })

/-- R194, R89: the step ends with OpcodeNotImplemented; PC is one after the opcode and nothing else is changed or read. The
meaning of `unimplemented` stops so in every state. -/
def Obligations.UnassignedOpcodeEndsTheStep : Prop :=
  (∀ (opcode : Byte) (s : State), exec (.unimplemented opcode) s = .fault (.opcodeNotImplemented opcode s)) ∧
  ∀ (opcode : Byte) (s : State) (b : Bus), s.bus.read s.PC = (some opcode, b) → opcode ∈ unassignedOpcodes →
    step s = .fault (.opcodeNotImplemented opcode { s with PC := s.PC + 1, bus := b })

/-- The word the host places at PC is the instruction the next step runs (log 9). -/
def Obligations.PlacedWordIsTheNextInstruction : Prop :=
  ∀ (s : State) (nbits w : Nat) (i : Instr), s.bus.ram.wf = true → decodeTableWord nbits w = some i →
    step (s.withFetchWord nbits w) =
      exec i { s.withFetchWord nbits w with PC := s.PC + BitVec.ofNat 16 i.length }

/-! ## Loads, stores, transfers -/

/-- R100–R102, every operand form: the register, N and Z take the byte; one more cycle on a page crossing. -/
def Obligations.LoadsSetTheRegisterAndNZ : Prop :=
  ∀ (o : Operand) (s s1 : State) (op : Resolved), resolve o s = .next (op, s1) →
    (∀ (v : Byte) (s2 : State), operandValue op s1 = .next (v, s2) →
      (∃ t, exec (.lda o) s = .next t ∧ t.A = v ∧ t.flag .N = v.msb ∧ t.flag .Z = (v == 0) ∧ t.PC = s.PC ∧ t.bus = s2.bus ∧
        t.cycles = baseCycles .lda o.mode + (if pageCross op then 1 else 0) ∧ State.Frame [.A] [.N, .Z] [] s t) ∧
      (∃ t, exec (.ldx o) s = .next t ∧ t.X = v ∧ t.flag .N = v.msb ∧ t.flag .Z = (v == 0) ∧ t.PC = s.PC ∧ t.bus = s2.bus ∧
        t.cycles = baseCycles .ldx o.mode + (if pageCross op then 1 else 0) ∧ State.Frame [.X] [.N, .Z] [] s t) ∧
      (∃ t, exec (.ldy o) s = .next t ∧ t.Y = v ∧ t.flag .N = v.msb ∧ t.flag .Z = (v == 0) ∧ t.PC = s.PC ∧ t.bus = s2.bus ∧
        t.cycles = baseCycles .ldy o.mode + (if pageCross op then 1 else 0) ∧ State.Frame [.Y] [.N, .Z] [] s t)) ∧
    ReadErrors (.lda o) op s s1 ∧ ReadErrors (.ldx o) op s s1 ∧ ReadErrors (.ldy o) op s s1

/-- R103–R105, every operand form: one write of the register to the effective address, and no other change. -/
def Obligations.StoresWriteOneByteAndNoFlag : Prop :=
  ∀ (o : Operand) (s s1 : State) (op : Resolved), resolve o s = .next (op, s1) →
    (∀ (a : Addr) (b : Bus), operandAddress op s1 = .next a →
      (s1.bus.write a s.A = (true, b) → ∃ t, exec (.sta o) s = .next t ∧ t.bus = b ∧ t.PC = s.PC ∧
        t.cycles = baseCycles .sta o.mode ∧ State.Frame [] [] [a] s t) ∧
      (s1.bus.write a s.X = (true, b) → ∃ t, exec (.stx o) s = .next t ∧ t.bus = b ∧ t.PC = s.PC ∧
        t.cycles = baseCycles .stx o.mode ∧ State.Frame [] [] [a] s t) ∧
      (s1.bus.write a s.Y = (true, b) → ∃ t, exec (.sty o) s = .next t ∧ t.bus = b ∧ t.PC = s.PC ∧
        t.cycles = baseCycles .sty o.mode ∧ State.Frame [] [] [a] s t)) ∧
    StoreErrors (.sta o) s.A op s s1 ∧ StoreErrors (.stx o) s.X op s s1 ∧ StoreErrors (.sty o) s.Y op s s1

/-- R103, R202: a store given a byte operand or none raises AddressingModeError, and so does a read given none (R92). -/
def Obligations.WrongOperandShapeIsAnAddressingModeError : Prop :=
  ∀ (s : State) (v : Byte),
    exec (.sta (.immediate v)) s = .fault (.addressingModeError s) ∧
    exec (.stx .accumulator) s = .fault (.addressingModeError s) ∧
    exec (.sty .implied) s = .fault (.addressingModeError s) ∧
    exec (.lda .implied) s = .fault (.addressingModeError s) ∧
    exec (.inc (.immediate v)) s = .fault (.addressingModeError s) ∧
    exec (.jmp .implied) s = .fault (.addressingModeError s) ∧
    exec (.bne (.immediate v)) s = .fault (.addressingModeError s)

/-- R106–R111: in every state; TXS sets no flag. -/
def Obligations.TransfersCopyAndSetNZ : Prop :=
  ∀ s : State,
    (∃ t, exec .tax s = .next t ∧ t.X = s.A ∧ t.flag .N = s.A.msb ∧ t.flag .Z = (s.A == 0) ∧ t.PC = s.PC ∧ t.bus = s.bus ∧
      t.cycles = 2 ∧ State.Frame [.X] [.N, .Z] [] s t) ∧
    (∃ t, exec .tay s = .next t ∧ t.Y = s.A ∧ t.flag .N = s.A.msb ∧ t.flag .Z = (s.A == 0) ∧ t.PC = s.PC ∧ t.bus = s.bus ∧
      t.cycles = 2 ∧ State.Frame [.Y] [.N, .Z] [] s t) ∧
    (∃ t, exec .tsx s = .next t ∧ t.X = s.S ∧ t.flag .N = s.S.msb ∧ t.flag .Z = (s.S == 0) ∧ t.PC = s.PC ∧ t.bus = s.bus ∧
      t.cycles = 2 ∧ State.Frame [.X] [.N, .Z] [] s t) ∧
    (∃ t, exec .txa s = .next t ∧ t.A = s.X ∧ t.flag .N = s.X.msb ∧ t.flag .Z = (s.X == 0) ∧ t.PC = s.PC ∧ t.bus = s.bus ∧
      t.cycles = 2 ∧ State.Frame [.A] [.N, .Z] [] s t) ∧
    (∃ t, exec .txs s = .next t ∧ t.S = s.X ∧ t.PC = s.PC ∧ t.bus = s.bus ∧ t.cycles = 2 ∧
      State.Frame [.S] [] [] s t) ∧
    (∃ t, exec .tya s = .next t ∧ t.A = s.Y ∧ t.flag .N = s.Y.msb ∧ t.flag .Z = (s.Y == 0) ∧ t.PC = s.PC ∧ t.bus = s.bus ∧
      t.cycles = 2 ∧ State.Frame [.A] [.N, .Z] [] s t)

/-! ## Arithmetic and logic -/

/-- R120: the exact 9-bit sum, its carry, the sign rule of V; binary whatever D holds. -/
def Obligations.AddWithCarryResultAndFlags : Prop :=
  ∀ (o : Operand) (s s1 : State) (op : Resolved), resolve o s = .next (op, s1) →
    (∀ (v : Byte) (s2 : State), operandValue op s1 = .next (v, s2) →
      ∃ t, exec (.adc o) s = .next t ∧
        t.A.toNat = (s.A.toNat + v.toNat + (if s.flag .C then 1 else 0)) % 256 ∧
        (t.flag .C = true ↔ s.A.toNat + v.toNat + (if s.flag .C then 1 else 0) > 0xFF) ∧
        (t.flag .V = true ↔ s.A.msb = v.msb ∧ t.A.msb ≠ v.msb) ∧
        t.flag .N = t.A.msb ∧ t.flag .Z = (t.A == 0) ∧ t.PC = s.PC ∧ t.bus = s2.bus ∧
        t.cycles = baseCycles .adc o.mode + (if pageCross op then 1 else 0) ∧
        State.Frame [.A] [.C, .V, .N, .Z] [] s t) ∧
    ReadErrors (.adc o) op s s1

/-- R121: `r = (A - m - (1 - c)) mod 256`, C set exactly when there is no borrow, V from the signed difference. -/
def Obligations.SubtractWithBorrowResultAndFlags : Prop :=
  ∀ (o : Operand) (s s1 : State) (op : Resolved), resolve o s = .next (op, s1) →
    (∀ (m : Byte) (s2 : State), operandValue op s1 = .next (m, s2) →
      ∃ t, exec (.sbc o) s = .next t ∧
        (t.A.toNat : Int) = ((s.A.toNat : Int) - m.toNat - (if s.flag .C then 0 else 1)) % 256 ∧
        (t.flag .C = true ↔ (s.A.toNat : Int) - m.toNat - (if s.flag .C then 0 else 1) ≥ 0) ∧
        (t.flag .V = true ↔ s.A.msb = (~~~ m).msb ∧ t.A.msb ≠ (~~~ m).msb) ∧
        t.flag .N = t.A.msb ∧ t.flag .Z = (t.A == 0) ∧ t.PC = s.PC ∧ t.bus = s2.bus ∧
        t.cycles = baseCycles .sbc o.mode + (if pageCross op then 1 else 0) ∧
        State.Frame [.A] [.C, .V, .N, .Z] [] s t) ∧
    ReadErrors (.sbc o) op s s1

/-- R126, R125, every operand form: V is set exactly when the exact signed sum lies outside -128..127, and the carry is the
source's wording of it; for ADC of the operand `v`, for SBC of the operand with its bits inverted. -/
def Obligations.OverflowIsSignedAndCarryIsTheSourcesWording : Prop :=
  ∀ (o : Operand) (s s1 s2 t : State) (op : Resolved) (m v : Byte),
    resolve o s = .next (op, s1) → operandValue op s1 = .next (m, s2) →
    exec (.adc o) s = .next t ∧ v = m ∨ exec (.sbc o) s = .next t ∧ v = ~~~ m →
    (t.flag .V = true ↔ s.A.toInt + v.toInt + (if s.flag .C then 1 else 0) < -128 ∨
      s.A.toInt + v.toInt + (if s.flag .C then 1 else 0) > 127) ∧
    (t.flag .C = true ↔ t.A < s.A ∨ (t.A = s.A ∧ v ≠ 0))

/-- R120, R121, R40: the value of D is never used; a run from the state with D written is the same run with D written. -/
def Obligations.AddAndSubtractIgnoreDecimal : Prop :=
  ∀ (o : Operand) (s : State) (d : Bool),
    exec (.adc o) (s.setFlag .D d) = mapStates (fun t => t.setFlag .D d) (exec (.adc o) s) ∧
    exec (.sbc o) (s.setFlag .D d) = mapStates (fun t => t.setFlag .D d) (exec (.sbc o) s)

/-- R122–R124, every operand form. The page-crossing cycle is decision D4 (log 11). -/
def Obligations.LogicSetsAAndNZ : Prop :=
  ∀ (o : Operand) (s s1 : State) (op : Resolved), resolve o s = .next (op, s1) →
    (∀ (v : Byte) (s2 : State), operandValue op s1 = .next (v, s2) →
      (∃ t, exec (.and o) s = .next t ∧ t.A = s.A &&& v ∧ t.flag .N = (s.A &&& v).msb ∧ t.flag .Z = (s.A &&& v == 0) ∧
        t.PC = s.PC ∧ t.bus = s2.bus ∧ t.cycles = baseCycles .and o.mode + (if pageCross op then 1 else 0) ∧
        State.Frame [.A] [.N, .Z] [] s t) ∧
      (∃ t, exec (.eor o) s = .next t ∧ t.A = s.A ^^^ v ∧ t.flag .N = (s.A ^^^ v).msb ∧ t.flag .Z = (s.A ^^^ v == 0) ∧
        t.PC = s.PC ∧ t.bus = s2.bus ∧ t.cycles = baseCycles .eor o.mode + (if pageCross op then 1 else 0) ∧
        State.Frame [.A] [.N, .Z] [] s t) ∧
      (∃ t, exec (.ora o) s = .next t ∧ t.A = s.A ||| v ∧ t.flag .N = (s.A ||| v).msb ∧ t.flag .Z = (s.A ||| v == 0) ∧
        t.PC = s.PC ∧ t.bus = s2.bus ∧ t.cycles = baseCycles .ora o.mode + (if pageCross op then 1 else 0) ∧
        State.Frame [.A] [.N, .Z] [] s t)) ∧
    ReadErrors (.and o) op s s1 ∧ ReadErrors (.eor o) op s s1 ∧ ReadErrors (.ora o) op s s1

/-! ## Shifts, increments, decrements -/

/-- R130–R133, Accumulator form: 2 cycles, no bus access. The prior carry is bit 0 (ROL) or bit 7 (ROR) of the result. -/
def Obligations.AccumulatorShifts : Prop :=
  ∀ s : State,
    (∃ t, exec (.asl .accumulator) s = .next t ∧ t.A.toNat = 2 * s.A.toNat % 256 ∧ t.flag .C = s.A.getLsbD 7 ∧
      t.flag .N = t.A.msb ∧ t.flag .Z = (t.A == 0) ∧ t.PC = s.PC ∧ t.bus = s.bus ∧ t.cycles = 2 ∧
      State.Frame [.A] [.C, .N, .Z] [] s t) ∧
    (∃ t, exec (.lsr .accumulator) s = .next t ∧ t.A.toNat = s.A.toNat / 2 ∧ t.flag .C = s.A.getLsbD 0 ∧
      t.flag .N = false ∧ t.flag .Z = (t.A == 0) ∧ t.PC = s.PC ∧ t.bus = s.bus ∧ t.cycles = 2 ∧
      State.Frame [.A] [.C, .N, .Z] [] s t) ∧
    (∃ t, exec (.rol .accumulator) s = .next t ∧ t.A.toNat = 2 * s.A.toNat % 256 + (if s.flag .C then 1 else 0) ∧
      t.flag .C = s.A.getLsbD 7 ∧ t.flag .N = t.A.msb ∧ t.flag .Z = (t.A == 0) ∧ t.PC = s.PC ∧ t.bus = s.bus ∧
      t.cycles = 2 ∧ State.Frame [.A] [.C, .N, .Z] [] s t) ∧
    (∃ t, exec (.ror .accumulator) s = .next t ∧ t.A.toNat = s.A.toNat / 2 + (if s.flag .C then 128 else 0) ∧
      t.flag .C = s.A.getLsbD 0 ∧ t.flag .N = s.flag .C ∧ t.flag .Z = (t.A == 0) ∧ t.PC = s.PC ∧ t.bus = s.bus ∧
      t.cycles = 2 ∧ State.Frame [.A] [.C, .N, .Z] [] s t)

/-- R130–R133, memory forms: one read and one write at the effective address, A unchanged, no extra cycle. -/
def Obligations.MemoryShifts : Prop :=
  ∀ (o : Operand) (s s1 : State) (op : Resolved), o ≠ .accumulator → resolve o s = .next (op, s1) →
    (∀ (a : Addr) (v r : Byte) (b1 b2 : Bus), operandAddress op s1 = .next a → s1.bus.read a = (some v, b1) →
      b1.write a r = (true, b2) →
      (r.toNat = 2 * v.toNat % 256 →
        ∃ t, exec (.asl o) s = .next t ∧ t.bus = b2 ∧ t.flag .C = v.getLsbD 7 ∧ t.flag .N = r.msb ∧ t.flag .Z = (r == 0) ∧
          t.PC = s.PC ∧ t.cycles = baseCycles .asl o.mode ∧ State.Frame [] [.C, .N, .Z] [a] s t) ∧
      (r.toNat = v.toNat / 2 →
        ∃ t, exec (.lsr o) s = .next t ∧ t.bus = b2 ∧ t.flag .C = v.getLsbD 0 ∧ t.flag .N = false ∧ t.flag .Z = (r == 0) ∧
          t.PC = s.PC ∧ t.cycles = baseCycles .lsr o.mode ∧ State.Frame [] [.C, .N, .Z] [a] s t) ∧
      (r.toNat = 2 * v.toNat % 256 + (if s.flag .C then 1 else 0) →
        ∃ t, exec (.rol o) s = .next t ∧ t.bus = b2 ∧ t.flag .C = v.getLsbD 7 ∧ t.flag .N = r.msb ∧ t.flag .Z = (r == 0) ∧
          t.PC = s.PC ∧ t.cycles = baseCycles .rol o.mode ∧ State.Frame [] [.C, .N, .Z] [a] s t) ∧
      (r.toNat = v.toNat / 2 + (if s.flag .C then 128 else 0) →
        ∃ t, exec (.ror o) s = .next t ∧ t.bus = b2 ∧ t.flag .C = v.getLsbD 0 ∧ t.flag .N = s.flag .C ∧
          t.flag .Z = (r == 0) ∧ t.PC = s.PC ∧ t.cycles = baseCycles .ror o.mode ∧ State.Frame [] [.C, .N, .Z] [a] s t)) ∧
    ModifyErrors (.asl o) (fun v r => r.toNat = 2 * v.toNat % 256) op s s1 ∧
    ModifyErrors (.lsr o) (fun v r => r.toNat = v.toNat / 2) op s s1 ∧
    ModifyErrors (.rol o) (fun v r => r.toNat = 2 * v.toNat % 256 + (if s.flag .C then 1 else 0)) op s s1 ∧
    ModifyErrors (.ror o) (fun v r => r.toNat = v.toNat / 2 + (if s.flag .C then 128 else 0)) op s s1

/-- R134, R135: one read and one write, modulo 256, C and V unchanged. That there is no other access, that the flags are written
last and what a failing write leaves are decisions D17 and D15 (log 15). -/
def Obligations.MemoryIncrementAndDecrement : Prop :=
  ∀ (o : Operand) (s s1 : State) (op : Resolved), resolve o s = .next (op, s1) →
    (∀ (a : Addr) (v r : Byte) (b1 b2 : Bus), operandAddress op s1 = .next a → s1.bus.read a = (some v, b1) →
      b1.write a r = (true, b2) →
      (r.toNat = (v.toNat + 1) % 256 →
        ∃ t, exec (.inc o) s = .next t ∧ t.bus = b2 ∧ t.flag .N = r.msb ∧ t.flag .Z = (r == 0) ∧ t.PC = s.PC ∧
          t.cycles = baseCycles .inc o.mode ∧ State.Frame [] [.N, .Z] [a] s t) ∧
      (r.toNat = (v.toNat + 255) % 256 →
        ∃ t, exec (.dec o) s = .next t ∧ t.bus = b2 ∧ t.flag .N = r.msb ∧ t.flag .Z = (r == 0) ∧ t.PC = s.PC ∧
          t.cycles = baseCycles .dec o.mode ∧ State.Frame [] [.N, .Z] [a] s t)) ∧
    ModifyErrors (.inc o) (fun v r => r.toNat = (v.toNat + 1) % 256) op s s1 ∧
    ModifyErrors (.dec o) (fun v r => r.toNat = (v.toNat + 255) % 256) op s s1

/-- R136–R139: X and Y modulo 256, N and Z from the new value. -/
def Obligations.RegisterIncrementAndDecrement : Prop :=
  ∀ s : State,
    (∃ t, exec .inx s = .next t ∧ t.X.toNat = (s.X.toNat + 1) % 256 ∧ t.flag .N = t.X.msb ∧ t.flag .Z = (t.X == 0) ∧
      t.PC = s.PC ∧ t.bus = s.bus ∧ t.cycles = 2 ∧ State.Frame [.X] [.N, .Z] [] s t) ∧
    (∃ t, exec .iny s = .next t ∧ t.Y.toNat = (s.Y.toNat + 1) % 256 ∧ t.flag .N = t.Y.msb ∧ t.flag .Z = (t.Y == 0) ∧
      t.PC = s.PC ∧ t.bus = s.bus ∧ t.cycles = 2 ∧ State.Frame [.Y] [.N, .Z] [] s t) ∧
    (∃ t, exec .dex s = .next t ∧ t.X.toNat = (s.X.toNat + 255) % 256 ∧ t.flag .N = t.X.msb ∧ t.flag .Z = (t.X == 0) ∧
      t.PC = s.PC ∧ t.bus = s.bus ∧ t.cycles = 2 ∧ State.Frame [.X] [.N, .Z] [] s t) ∧
    (∃ t, exec .dey s = .next t ∧ t.Y.toNat = (s.Y.toNat + 255) % 256 ∧ t.flag .N = t.Y.msb ∧ t.flag .Z = (t.Y == 0) ∧
      t.PC = s.PC ∧ t.bus = s.bus ∧ t.cycles = 2 ∧ State.Frame [.Y] [.N, .Z] [] s t)

/-! ## Compare, branch, jump -/

/-- R150–R152: C is the unsigned order, Z equality, N bit 7 of the 8-bit difference; no register changes. CMP's page-crossing
cycle is decision D4 (log 11). -/
def Obligations.ComparesSetCZN : Prop :=
  ∀ (o : Operand) (s s1 : State) (op : Resolved), resolve o s = .next (op, s1) →
    (∀ (m : Byte) (s2 : State), operandValue op s1 = .next (m, s2) →
      (∃ t, exec (.cmp o) s = .next t ∧ (t.flag .C = true ↔ m.toNat ≤ s.A.toNat) ∧ (t.flag .Z = true ↔ s.A = m) ∧
        t.flag .N = ((s.A.toNat + 256 - m.toNat) % 256).testBit 7 ∧ t.PC = s.PC ∧ t.bus = s2.bus ∧
        t.cycles = baseCycles .cmp o.mode + (if pageCross op then 1 else 0) ∧ State.Frame [] [.C, .Z, .N] [] s t) ∧
      (∃ t, exec (.cpx o) s = .next t ∧ (t.flag .C = true ↔ m.toNat ≤ s.X.toNat) ∧ (t.flag .Z = true ↔ s.X = m) ∧
        t.flag .N = ((s.X.toNat + 256 - m.toNat) % 256).testBit 7 ∧ t.PC = s.PC ∧ t.bus = s2.bus ∧
        t.cycles = baseCycles .cpx o.mode ∧ State.Frame [] [.C, .Z, .N] [] s t) ∧
      (∃ t, exec (.cpy o) s = .next t ∧ (t.flag .C = true ↔ m.toNat ≤ s.Y.toNat) ∧ (t.flag .Z = true ↔ s.Y = m) ∧
        t.flag .N = ((s.Y.toNat + 256 - m.toNat) % 256).testBit 7 ∧ t.PC = s.PC ∧ t.bus = s2.bus ∧
        t.cycles = baseCycles .cpy o.mode ∧ State.Frame [] [.C, .Z, .N] [] s t)) ∧
    ReadErrors (.cmp o) op s s1 ∧ ReadErrors (.cpx o) op s s1 ∧ ReadErrors (.cpy o) op s s1

/-- R193: Z from the AND, N and V from bits 7 and 6 of the operand. -/
def Obligations.BitTestSetsZNV : Prop :=
  ∀ (o : Operand) (s s1 : State) (op : Resolved), resolve o s = .next (op, s1) →
    (∀ (m : Byte) (s2 : State), operandValue op s1 = .next (m, s2) →
      ∃ t, exec (.bit o) s = .next t ∧ t.flag .Z = (s.A &&& m == 0) ∧ t.flag .N = m.getLsbD 7 ∧ t.flag .V = m.getLsbD 6 ∧
        t.PC = s.PC ∧ t.bus = s2.bus ∧ t.cycles = baseCycles .bit o.mode ∧ State.Frame [] [.Z, .N, .V] [] s t) ∧
    ReadErrors (.bit o) op s s1

/-- R153–R161: taken to the Relative target exactly when the named flag has the named value; 2 cycles not taken, 3 taken
within the page of the next instruction, 4 taken to another; nothing but PC changes. That the crossing compares the target with
the address after the branch is decision D19 (log 14). -/
def Obligations.BranchesGoWhereTheFlagSays : Prop :=
  ∀ (s : State) (d : Byte) (i : Instr) (f : Flag) (v : Bool),
    (i, f, v) ∈ [(Instr.bcc (.relative d), Flag.C, false), (.bcs (.relative d), .C, true), (.beq (.relative d), .Z, true),
      (.bmi (.relative d), .N, true), (.bne (.relative d), .Z, false), (.bpl (.relative d), .N, false),
      (.bvc (.relative d), .V, false), (.bvs (.relative d), .V, true)] →
    ∃ t, exec i s = .next t ∧
      (t.PC.toNat : Int) = (if s.flag f = v then ((s.PC.toNat : Int) + d.toInt) % 65536 else s.PC.toNat) ∧
      t.cycles = (if s.flag f = v then (if t.PC.toNat / 256 = s.PC.toNat / 256 then 3 else 4) else 2) ∧
      t.bus = s.bus ∧ State.Frame [] [] [] s t

/-- R162: PC takes the effective address; no flag, no register. -/
def Obligations.JumpLoadsPC : Prop :=
  ∀ (o : Operand) (s s1 : State) (op : Resolved) (a : Addr),
    resolve o s = .next (op, s1) → operandAddress op s1 = .next a →
    ∃ t, exec (.jmp o) s = .next t ∧ t.PC = a ∧ t.bus = s1.bus ∧ t.cycles = baseCycles .jmp o.mode ∧
      State.Frame [] [] [] s t

/-- R163: the address of JSR's last byte is pushed, high byte first; S wraps. Where a push fails, the pushes done before it
remain and PC is the address after the instruction. -/
def Obligations.JumpToSubroutinePushesItsLastByteAddress : Prop :=
  ∀ (s : State) (a : Addr),
    (∀ b1 : Bus, s.bus.write (0x0100 + s.S.setWidth 16) (BitVec.ofNat 8 ((s.PC - 1).toNat / 256)) = (false, b1) →
      exec (.jsr (.absolute a)) s = .fault (.busError .invalidWrite (0x0100 + s.S.setWidth 16) { s with bus := b1 })) ∧
    ∀ b1 : Bus, s.bus.write (0x0100 + s.S.setWidth 16) (BitVec.ofNat 8 ((s.PC - 1).toNat / 256)) = (true, b1) →
      (∀ b2 : Bus, b1.write (0x0100 + (s.S - 1).setWidth 16) (BitVec.ofNat 8 ((s.PC - 1).toNat % 256)) = (false, b2) →
        exec (.jsr (.absolute a)) s =
          .fault (.busError .invalidWrite (0x0100 + (s.S - 1).setWidth 16) { s with S := s.S - 1, bus := b2 })) ∧
      ∀ b2 : Bus, b1.write (0x0100 + (s.S - 1).setWidth 16) (BitVec.ofNat 8 ((s.PC - 1).toNat % 256)) = (true, b2) →
        ∃ t, exec (.jsr (.absolute a)) s = .next t ∧ t.PC = a ∧ t.S = s.S - 2 ∧ t.bus = b2 ∧ t.cycles = 6 ∧
          State.Frame [.S] [] [0x0100 + s.S.setWidth 16, 0x0100 + (s.S - 1).setWidth 16] s t

/-- R164: the popped address plus one, modulo 65,536; S wraps. Where a pop fails, S stays incremented for each pop started and
PC is unchanged. -/
def Obligations.ReturnFromSubroutinePopsPCPlusOne : Prop :=
  ∀ s : State,
    (∀ b1 : Bus, s.bus.read (0x0100 + (s.S + 1).setWidth 16) = (none, b1) →
      exec .rts s = .fault (.busError .invalidRead (0x0100 + (s.S + 1).setWidth 16) { s with S := s.S + 1, bus := b1 })) ∧
    ∀ (lo : Byte) (b1 : Bus), s.bus.read (0x0100 + (s.S + 1).setWidth 16) = (some lo, b1) →
      (∀ b2 : Bus, b1.read (0x0100 + (s.S + 2).setWidth 16) = (none, b2) →
        exec .rts s =
          .fault (.busError .invalidRead (0x0100 + (s.S + 2).setWidth 16) { s with S := s.S + 2, bus := b2 })) ∧
      ∀ (hi : Byte) (b2 : Bus), b1.read (0x0100 + (s.S + 2).setWidth 16) = (some hi, b2) →
        ∃ t, exec .rts s = .next t ∧ t.PC.toNat = (hi.toNat * 256 + lo.toNat + 1) % 65536 ∧ t.S = s.S + 2 ∧ t.bus = b2 ∧
          t.cycles = 6 ∧ State.Frame [.S] [] [] s t

/-- The source's JSR/RTS round trip (R164): with the stack page in plain writable memory, the RTS of a subroutine that leaves
the stack alone returns to the instruction after the JSR with S as before. -/
def Obligations.SubroutineRoundTrip : Prop :=
  ∀ (s : State) (a : Addr), s.bus.ram.wf = true →
    (∀ sp : Byte, s.PlainMemory (0x0100 + sp.setWidth 16) ∧ s.bus.writable (0x0100 + sp.setWidth 16) = true) →
    ∃ t u, exec (.jsr (.absolute a)) s = .next t ∧ t.PC = a ∧ exec .rts t = .next u ∧ u.PC = s.PC ∧ u.S = s.S ∧
      State.Frame [] [] [0x0100 + s.S.setWidth 16, 0x0100 + (s.S - 1).setWidth 16] s u

/-! ## Stack and flags -/

/-- R170, R171: the byte, or P with bits 4 and 5 forced to 1, is written at 0x0100 + S, then S is decremented; where the write
fails, S is unchanged. -/
def Obligations.PushesWriteThenDecrementS : Prop :=
  ∀ s : State,
    (∀ b : Bus, s.bus.write (0x0100 + s.S.setWidth 16) s.A = (true, b) →
      ∃ t, exec .pha s = .next t ∧ t.S = s.S - 1 ∧ t.bus = b ∧ t.PC = s.PC ∧ t.cycles = 3 ∧
        State.Frame [.S] [] [0x0100 + s.S.setWidth 16] s t) ∧
    (∀ b : Bus, s.bus.write (0x0100 + s.S.setWidth 16) (s.P ||| 0x30) = (true, b) →
      ∃ t, exec .php s = .next t ∧ t.S = s.S - 1 ∧ t.bus = b ∧ t.PC = s.PC ∧ t.cycles = 3 ∧
        State.Frame [.S] [] [0x0100 + s.S.setWidth 16] s t) ∧
    (∀ b : Bus, s.bus.write (0x0100 + s.S.setWidth 16) s.A = (false, b) →
      exec .pha s = .fault (.busError .invalidWrite (0x0100 + s.S.setWidth 16) { s with bus := b })) ∧
    (∀ b : Bus, s.bus.write (0x0100 + s.S.setWidth 16) (s.P ||| 0x30) = (false, b) →
      exec .php s = .fault (.busError .invalidWrite (0x0100 + s.S.setWidth 16) { s with bus := b }))

/-- R172, R173: S is incremented, then the byte read; PLA sets A, N, Z; PLP sets the six flags and forces B and U to 1. Where
the read fails, S stays incremented. That PLP forces B and U is decision D11 (log 13). -/
def Obligations.PullsIncrementSThenRead : Prop :=
  ∀ s : State,
    (∀ (v : Byte) (b : Bus), s.bus.read (0x0100 + (s.S + 1).setWidth 16) = (some v, b) →
      (∃ t, exec .pla s = .next t ∧ t.A = v ∧ t.flag .N = v.msb ∧ t.flag .Z = (v == 0) ∧ t.S = s.S + 1 ∧ t.bus = b ∧
        t.PC = s.PC ∧ t.cycles = 4 ∧ State.Frame [.A, .S] [.N, .Z] [] s t) ∧
      (∃ t, exec .plp s = .next t ∧ t.P = v ||| 0x30 ∧ t.flag .B = true ∧ t.flag .U = true ∧ t.flag .N = v.getLsbD 7 ∧
        t.flag .V = v.getLsbD 6 ∧ t.flag .D = v.getLsbD 3 ∧ t.flag .I = v.getLsbD 2 ∧ t.flag .Z = v.getLsbD 1 ∧
        t.flag .C = v.getLsbD 0 ∧ t.S = s.S + 1 ∧ t.bus = b ∧ t.PC = s.PC ∧ t.cycles = 4 ∧
        State.Frame [.S] [.N, .V, .B, .U, .D, .I, .Z, .C] [] s t)) ∧
    (∀ b : Bus, s.bus.read (0x0100 + (s.S + 1).setWidth 16) = (none, b) →
      exec .pla s = .fault (.busError .invalidRead (0x0100 + (s.S + 1).setWidth 16) { s with S := s.S + 1, bus := b }) ∧
      exec .plp s = .fault (.busError .invalidRead (0x0100 + (s.S + 1).setWidth 16) { s with S := s.S + 1, bus := b }))

/-- R26: "wraps modulo 256 on push/pop": 256 pushes bring S back to its start. -/
def Obligations.TwoHundredFiftySixPushesWrapS : Prop :=
  ∀ s : State, s.BusAnswers →
    ∃ t, (fun x : Res State => andThen x (exec .pha))^[256] (.next s) = .next t ∧ t.S = s.S

/-- R174–R180: one flag, and nothing else, in every state. -/
def Obligations.FlagInstructionsWriteOneFlag : Prop :=
  ∀ (s : State) (i : Instr) (f : Flag) (v : Bool),
    (i, f, v) ∈ [(Instr.clc, Flag.C, false), (.cld, .D, false), (.cli, .I, false), (.clv, .V, false), (.sec, .C, true),
      (.sed, .D, true), (.sei, .I, true)] →
    ∃ t, exec i s = .next t ∧ t.flag f = v ∧ t.PC = s.PC ∧ t.bus = s.bus ∧ t.cycles = 2 ∧ State.Frame [] [f] [] s t

/-- R192. -/
def Obligations.NoOperationChangesNothing : Prop :=
  ∀ s : State, exec .nop s = .next { s with cycles := 2 }

/-! ## Interrupts -/

/-- R190: the pushes in order, the vector 0xFFFE low byte first, I set, D and B kept; the address pushed is two after the
opcode, and the byte after the opcode is not read. Where an access fails, the pushes done before it remain, and I and PC are
not written. -/
def Obligations.BreakTakesTheInterruptEntry : Prop :=
  ∀ s : State,
    (∀ b1 : Bus, s.bus.write (0x0100 + s.S.setWidth 16) (BitVec.ofNat 8 ((s.PC + 1).toNat / 256)) = (false, b1) →
      exec .brk s = .fault (.busError .invalidWrite (0x0100 + s.S.setWidth 16) { s with bus := b1 })) ∧
    ∀ b1 : Bus, s.bus.write (0x0100 + s.S.setWidth 16) (BitVec.ofNat 8 ((s.PC + 1).toNat / 256)) = (true, b1) →
    (∀ b2 : Bus, b1.write (0x0100 + (s.S - 1).setWidth 16) (BitVec.ofNat 8 ((s.PC + 1).toNat % 256)) = (false, b2) →
      exec .brk s = .fault (.busError .invalidWrite (0x0100 + (s.S - 1).setWidth 16) { s with S := s.S - 1, bus := b2 })) ∧
    ∀ b2 : Bus, b1.write (0x0100 + (s.S - 1).setWidth 16) (BitVec.ofNat 8 ((s.PC + 1).toNat % 256)) = (true, b2) →
    (∀ b3 : Bus, b2.write (0x0100 + (s.S - 2).setWidth 16) (s.P ||| 0x30) = (false, b3) →
      exec .brk s = .fault (.busError .invalidWrite (0x0100 + (s.S - 2).setWidth 16) { s with S := s.S - 2, bus := b3 })) ∧
    ∀ b3 : Bus, b2.write (0x0100 + (s.S - 2).setWidth 16) (s.P ||| 0x30) = (true, b3) →
    (∀ b4 : Bus, b3.read 0xFFFE = (none, b4) →
      exec .brk s = .fault (.busError .invalidRead 0xFFFE { s with S := s.S - 3, bus := b4 })) ∧
    ∀ (lo : Byte) (b4 : Bus), b3.read 0xFFFE = (some lo, b4) →
    (∀ b5 : Bus, b4.read 0xFFFF = (none, b5) →
      exec .brk s = .fault (.busError .invalidRead 0xFFFF { s with S := s.S - 3, bus := b5 })) ∧
    ∀ (hi : Byte) (b5 : Bus), b4.read 0xFFFF = (some hi, b5) →
      ∃ t, exec .brk s = .next t ∧ t.PC.toNat = hi.toNat * 256 + lo.toNat ∧ t.S = s.S - 3 ∧ t.flag .I = true ∧ t.bus = b5 ∧
        t.cycles = 7 ∧
        State.Frame [.S] [.I]
          [0x0100 + s.S.setWidth 16, 0x0100 + (s.S - 1).setWidth 16, 0x0100 + (s.S - 2).setWidth 16] s t

/-- R191: the status with B and U forced to 1, then the address, low byte first, exactly. Where a pop fails, S stays
incremented for each pop started, and P and PC are unchanged. -/
def Obligations.ReturnFromInterruptRestoresPAndPC : Prop :=
  ∀ s : State,
    (∀ b1 : Bus, s.bus.read (0x0100 + (s.S + 1).setWidth 16) = (none, b1) →
      exec .rti s = .fault (.busError .invalidRead (0x0100 + (s.S + 1).setWidth 16) { s with S := s.S + 1, bus := b1 })) ∧
    ∀ (p : Byte) (b1 : Bus), s.bus.read (0x0100 + (s.S + 1).setWidth 16) = (some p, b1) →
    (∀ b2 : Bus, b1.read (0x0100 + (s.S + 2).setWidth 16) = (none, b2) →
      exec .rti s = .fault (.busError .invalidRead (0x0100 + (s.S + 2).setWidth 16) { s with S := s.S + 2, bus := b2 })) ∧
    ∀ (lo : Byte) (b2 : Bus), b1.read (0x0100 + (s.S + 2).setWidth 16) = (some lo, b2) →
    (∀ b3 : Bus, b2.read (0x0100 + (s.S + 3).setWidth 16) = (none, b3) →
      exec .rti s = .fault (.busError .invalidRead (0x0100 + (s.S + 3).setWidth 16) { s with S := s.S + 3, bus := b3 })) ∧
    ∀ (hi : Byte) (b3 : Bus), b2.read (0x0100 + (s.S + 3).setWidth 16) = (some hi, b3) →
      ∃ t, exec .rti s = .next t ∧ t.P = p ||| 0x30 ∧ t.PC.toNat = hi.toNat * 256 + lo.toNat ∧ t.S = s.S + 3 ∧ t.bus = b3 ∧
        t.cycles = 6 ∧ State.Frame [.S] [.N, .V, .B, .U, .D, .I, .Z, .C] [] s t

/-- R210: with I set, an `irq` call changes nothing and reports zero cycles. -/
def Obligations.MaskedIrqIsIgnored : Prop :=
  ∀ s : State, s.flag .I = true → irq s = .next { s with cycles := 0 }

/-- R210, R211: IRQ when I is clear, NMI whatever I holds: the current PC and the status with Break clear are pushed, I is
set, PC comes from 0xFFFE and 0xFFFF or from 0xFFFA and 0xFFFB, 7 cycles. Where an access fails, the call ends with its bus
error, the pushes done before it remain, and I and PC are not written (R204). -/
def Obligations.HardwareInterruptEntry : Prop :=
  ∀ (s : State) (call : State → Res State) (low high : Addr),
    call = irq ∧ s.flag .I = false ∧ low = 0xFFFE ∧ high = 0xFFFF ∨ call = nmi ∧ low = 0xFFFA ∧ high = 0xFFFB →
    (∀ b1 : Bus, s.bus.write (0x0100 + s.S.setWidth 16) (BitVec.ofNat 8 (s.PC.toNat / 256)) = (false, b1) →
      call s = .fault (.busError .invalidWrite (0x0100 + s.S.setWidth 16) { s with bus := b1 })) ∧
    ∀ b1 : Bus, s.bus.write (0x0100 + s.S.setWidth 16) (BitVec.ofNat 8 (s.PC.toNat / 256)) = (true, b1) →
    (∀ b2 : Bus, b1.write (0x0100 + (s.S - 1).setWidth 16) (BitVec.ofNat 8 (s.PC.toNat % 256)) = (false, b2) →
      call s = .fault (.busError .invalidWrite (0x0100 + (s.S - 1).setWidth 16) { s with S := s.S - 1, bus := b2 })) ∧
    ∀ b2 : Bus, b1.write (0x0100 + (s.S - 1).setWidth 16) (BitVec.ofNat 8 (s.PC.toNat % 256)) = (true, b2) →
    (∀ b3 : Bus, b2.write (0x0100 + (s.S - 2).setWidth 16) ((s.P &&& 0xEF) ||| 0x20) = (false, b3) →
      call s = .fault (.busError .invalidWrite (0x0100 + (s.S - 2).setWidth 16) { s with S := s.S - 2, bus := b3 })) ∧
    ∀ b3 : Bus, b2.write (0x0100 + (s.S - 2).setWidth 16) ((s.P &&& 0xEF) ||| 0x20) = (true, b3) →
    (∀ b4 : Bus, b3.read low = (none, b4) →
      call s = .fault (.busError .invalidRead low { s with S := s.S - 3, bus := b4 })) ∧
    ∀ (lo : Byte) (b4 : Bus), b3.read low = (some lo, b4) →
    (∀ b5 : Bus, b4.read high = (none, b5) →
      call s = .fault (.busError .invalidRead high { s with S := s.S - 3, bus := b5 })) ∧
    ∀ (hi : Byte) (b5 : Bus), b4.read high = (some hi, b5) →
      ∃ t, call s = .next t ∧ t.PC.toNat = hi.toNat * 256 + lo.toNat ∧ t.S = s.S - 3 ∧ t.flag .I = true ∧ t.bus = b5 ∧
        t.cycles = 7 ∧
        State.Frame [.S] [.I]
          [0x0100 + s.S.setWidth 16, 0x0100 + (s.S - 1).setWidth 16, 0x0100 + (s.S - 2).setWidth 16] s t

/-- R216: RTI undoes an entry: PC at the interrupted instruction (for BRK, its address plus two), S and the six flags as
before, so IRQ is enabled again exactly when it was; B and U are 1. -/
def Obligations.InterruptRoundTrip : Prop :=
  ∀ (s : State), s.bus.ram.wf = true → s.BusAnswers →
    (∀ sp : Byte, s.bus.isDevice (0x0100 + sp.setWidth 16) = false) →
    (∃ t u, exec .brk s = .next t ∧ exec .rti t = .next u ∧ u.PC = s.PC + 1 ∧ u.P = s.P ||| 0x30 ∧ u.S = s.S ∧
      u.A = s.A ∧ u.X = s.X ∧ u.Y = s.Y) ∧
    (s.flag .I = false → ∃ t u, irq s = .next t ∧ exec .rti t = .next u ∧ u.PC = s.PC ∧ u.P = s.P ||| 0x30 ∧ u.S = s.S ∧
      u.A = s.A ∧ u.X = s.X ∧ u.Y = s.Y) ∧
    (∃ t u, nmi s = .next t ∧ exec .rti t = .next u ∧ u.PC = s.PC ∧ u.P = s.P ||| 0x30 ∧ u.S = s.S ∧
      u.A = s.A ∧ u.X = s.X ∧ u.Y = s.Y)

/-! ## Reset, invariants, whole-machine rules -/

/-- R240: the register file after construction. -/
def Obligations.ResetRegisters : Prop :=
  State.reset.A = 0x00 ∧ State.reset.X = 0x00 ∧ State.reset.Y = 0x00 ∧ State.reset.S = 0xFF ∧ State.reset.P = 0x20 ∧
  State.reset.PC = 0x0000

/-- The invariant holds after construction. That memory lists nothing there is the model's choice (log 1). -/
def Obligations.ResetMeetsTheInvariant : Prop := State.reset.Inv

/-- R38 and the canonical form of memory: every step keeps the invariant, from every state that meets it. -/
def Obligations.StepKeepsTheInvariant : Prop := ∀ s t : State, s.Inv → step s = .next t → t.Inv

/-- The host's calls keep it too, whatever the host loads, maps or does to the devices; and a call that is not `step`, `irq` or
`nmi` writes PC and the bus alone (R38, R210, R211, R224). -/
def Obligations.HostCallsKeepTheInvariant : Prop :=
  ∀ (c : HostCall) (s t : State), s.Inv → hostCall c s = .next t →
    t.Inv ∧ (c ≠ .step → c ≠ .irq → c ≠ .nmi → t = { s with PC := t.PC, bus := t.bus })

/-- R21, R92, R93: on a bus that answers, every well-formed instruction of the table completes in every state. -/
def Obligations.EveryInstructionCompletesOnAnAnsweringBus : Prop :=
  ∀ (i : Instr) (s : State), i.WellFormed → (∀ c, i ≠ .unimplemented c) → s.BusAnswers →
    ∃ t, exec i s = .next t ∧ t.BusAnswers ∧ t.cfg = s.cfg

/-- R92, R93: on a bus that answers, a step completes or ends with OpcodeNotImplemented of an unassigned byte. -/
def Obligations.StepCompletesOrMeetsAnUnassignedOpcode : Prop :=
  ∀ s : State, s.BusAnswers →
    (∃ t, step s = .next t) ∨ ∃ c t, step s = .fault (.opcodeNotImplemented c t) ∧ c ∈ unassignedOpcodes

/-- R92, R202: AddressingModeError is unreachable, on every bus; and no step is refused. -/
def Obligations.StepNeverRaisesAddressingModeError : Prop :=
  ∀ s : State, (∀ t, step s ≠ .fault (.addressingModeError t)) ∧ ∀ r, step s ≠ .refused r

/-- R204: after an error A, X, Y and the flags are unchanged. -/
def Obligations.ErrorsLeaveAXYAndFlags : Prop :=
  ∀ (s : State) (e : Fault), step s = .fault e ∨ irq s = .fault e ∨ nmi s = .fault e →
    e.after.A = s.A ∧ e.after.X = s.X ∧ e.after.Y = s.Y ∧ e.after.P = s.P

/-- R39: "No instruction's behaviour depends on the register's B": runs from two states that differ in B alone agree in
everything but B, errors included, and so do the interrupt calls. -/
def Obligations.BreakFlagIsNeverRead : Prop :=
  ∀ (s : State) (v : Bool),
    mapStates (fun t => t.setFlag .B false) (step (s.setFlag .B v)) =
      mapStates (fun t => t.setFlag .B false) (step s) ∧
    mapStates (fun t => t.setFlag .B false) (irq (s.setFlag .B v)) =
      mapStates (fun t => t.setFlag .B false) (irq s) ∧
    mapStates (fun t => t.setFlag .B false) (nmi (s.setFlag .B v)) =
      mapStates (fun t => t.setFlag .B false) (nmi s)

/-- R22–R24, R27: which instructions write A, X, Y and S. -/
def Obligations.OnlyTheListedInstructionsWriteARegister : Prop :=
  ∀ (i : Instr) (s t : State), exec i s = .next t →
    (t.A ≠ s.A → (∃ m, i.mnemonic = some m ∧ m ∈ [Mnemonic.lda, .pla, .txa, .tya, .adc, .sbc, .and, .eor, .ora]) ∨
      i ∈ [Instr.asl .accumulator, .lsr .accumulator, .rol .accumulator, .ror .accumulator]) ∧
    (t.X ≠ s.X → ∃ m, i.mnemonic = some m ∧ m ∈ [Mnemonic.ldx, .inx, .dex, .tax, .tsx]) ∧
    (t.Y ≠ s.Y → ∃ m, i.mnemonic = some m ∧ m ∈ [Mnemonic.ldy, .iny, .dey, .tay]) ∧
    (t.S ≠ s.S → ∃ m, i.mnemonic = some m ∧ m ∈ [Mnemonic.pha, .php, .pla, .plp, .jsr, .rts, .brk, .rti, .txs])

/-- R34–R41: which instructions write each flag. B and U are only ever set, and PLP and RTI are the only writers of either. -/
def Obligations.OnlyTheListedInstructionsWriteAFlag : Prop :=
  ∀ (i : Instr) (s t : State), exec i s = .next t →
    (t.flag .C ≠ s.flag .C → ∃ m, i.mnemonic = some m ∧ m ∈ [Mnemonic.adc, .sbc, .asl, .lsr, .rol, .ror, .cmp, .cpx, .cpy,
      .clc, .sec, .plp, .rti]) ∧
    (t.flag .Z ≠ s.flag .Z ∨ t.flag .N ≠ s.flag .N → ∃ m, i.mnemonic = some m ∧ m ∈ [Mnemonic.lda, .ldx, .ldy, .adc, .sbc,
      .and, .eor, .ora, .asl, .lsr, .rol, .ror, .inc, .dec, .inx, .iny, .dex, .dey, .pla, .tax, .tay, .tsx, .txa, .tya,
      .cmp, .cpx, .cpy, .bit, .plp, .rti]) ∧
    (t.flag .V ≠ s.flag .V → ∃ m, i.mnemonic = some m ∧ m ∈ [Mnemonic.adc, .sbc, .bit, .clv, .plp, .rti]) ∧
    (t.flag .D ≠ s.flag .D → ∃ m, i.mnemonic = some m ∧ m ∈ [Mnemonic.sed, .cld, .plp, .rti]) ∧
    (t.flag .I ≠ s.flag .I → ∃ m, i.mnemonic = some m ∧ m ∈ [Mnemonic.sei, .cli, .plp, .rti, .brk]) ∧
    (t.flag .B ≠ s.flag .B → t.flag .B = true ∧ ∃ m, i.mnemonic = some m ∧ m ∈ [Mnemonic.plp, .rti]) ∧
    (t.flag .U ≠ s.flag .U → t.flag .U = true ∧ ∃ m, i.mnemonic = some m ∧ m ∈ [Mnemonic.plp, .rti])

/-- R30: every instruction but the ones that load PC leaves it at the address after the instruction. -/
def Obligations.OnlyControlFlowWritesPC : Prop :=
  ∀ (i : Instr) (s t : State), exec i s = .next t → t.PC ≠ s.PC → ∃ m, i.mnemonic = some m ∧
    m ∈ [Mnemonic.bcc, .bcs, .beq, .bmi, .bne, .bpl, .bvc, .bvs, .jmp, .jsr, .rts, .brk, .rti]

/-- R251, R88: the cost column for the handler and the mode, plus the handler's extra: one more on a page crossing for the nine
read instructions that have a crossing mode, the branch rule of R153 for the branches, 0 for every other. -/
def Obligations.CyclesAreBasePlusExtra : Prop :=
  ∀ (i : Instr) (m : Mnemonic) (s s1 t : State) (op : Resolved), i.mnemonic = some m → i.WellFormed →
    resolve i.operand s = .next (op, s1) → exec i s = .next t →
    ∃ base extra, t.cycles = base + extra ∧ baseCycles m i.operand.mode = base ∧
      (∃ row ∈ costColumn, m ∈ row.1 ∧ (i.operand.mode, base) ∈ row.2) ∧
      (m ∈ [Mnemonic.lda, .ldx, .ldy, .adc, .sbc, .and, .eor, .ora, .cmp] → extra = if pageCross op then 1 else 0) ∧
      (∀ f v, (m, f, v) ∈ [(Mnemonic.bcc, Flag.C, false), (.bcs, .C, true), (.beq, .Z, true), (.bmi, .N, true),
          (.bne, .Z, false), (.bpl, .N, false), (.bvc, .V, false), (.bvs, .V, true)] →
        extra = if s.flag f = v then (if pageCross op then 2 else 1) else 0) ∧
      (m ∉ [Mnemonic.bcc, .bcs, .beq, .bmi, .bne, .bpl, .bvc, .bvs, .lda, .ldx, .ldy, .adc, .sbc, .and, .eor, .ora, .cmp] →
        extra = 0)

/-- R62, R8: a step, one that ends in an error too, changes neither the parameter nor the mapping of the bus; and what has
happened to the devices only grows. -/
def Obligations.StepLeavesTheEnvironment : Prop :=
  ∀ s t : State, step s = .next t ∨ (∃ e, step s = .fault e ∧ e.after = t) → t.cfg = s.cfg ∧ t.bus.noRead = s.bus.noRead ∧
    t.bus.noWrite = s.bus.noWrite ∧ t.bus.device = s.bus.device ∧ s.bus.log <:+ t.bus.log

/-- R61: at an address of plain memory a read returns the byte last written, and a write changes no other byte. -/
def Obligations.PlainMemoryReadsTheLastWrite : Prop :=
  ∀ (s t : State) (a : Addr) (v : Byte), s.Inv → s.PlainMemory a → memWrite a v s = .next t →
    memRead a t = .next (v, t) ∧ ∀ a', a' ≠ a → t.byteAt a' = s.byteAt a'

/-- R249, R205: a device sees one read then one write of a read-modify-write, one write and no read of a store, one read of a
load, up to the access it fails, which it has seen too; memory keeps its bytes. What it answers and takes are the free values
(log 3), and each outcome follows from them. -/
def Obligations.DeviceSeesExactlyTheListedAccesses : Prop :=
  ∀ (s : State) (a : Addr), s.bus.readable a = true → s.bus.writable a = true → s.bus.isDevice a = true →
    (match Config.deviceRead s.bus.log a with
      | none => exec (.lda (.absolute a)) s =
          .fault (.busError .invalidRead a { s with bus := { s.bus with log := .read a none :: s.bus.log } })
      | some v => ∃ t, exec (.lda (.absolute a)) s = .next t ∧ t.A = v ∧
          t.bus = { s.bus with log := .read a (some v) :: s.bus.log }) ∧
    (match Config.deviceWrite s.bus.log a s.A with
      | false => exec (.sta (.absolute a)) s =
          .fault (.busError .invalidWrite a { s with bus := { s.bus with log := .write a s.A false :: s.bus.log } })
      | true => ∃ t, exec (.sta (.absolute a)) s = .next t ∧
          t.bus = { s.bus with log := .write a s.A true :: s.bus.log }) ∧
    (match Config.deviceRead s.bus.log a with
      | none => exec (.inc (.absolute a)) s =
          .fault (.busError .invalidRead a { s with bus := { s.bus with log := .read a none :: s.bus.log } })
      | some v =>
        match Config.deviceWrite (.read a (some v) :: s.bus.log) a (v + 1) with
        | false => exec (.inc (.absolute a)) s = .fault (.busError .invalidWrite a
            { s with bus := { s.bus with log := .write a (v + 1) false :: .read a (some v) :: s.bus.log } })
        | true => ∃ t, exec (.inc (.absolute a)) s = .next t ∧
            t.bus = { s.bus with log := .write a (v + 1) true :: .read a (some v) :: s.bus.log })
end

