-- ==== Sys2Proof/Laws/AnyBus.lean ====
section
/-! SUPPORT. That a device whose answers are a free function of all that has happened to it is any bus at all (20_memory.md R50:
"generic over any implementation"): a bus with a state of its own, of any type, whose accesses may fail and may change that
state when they fail, is one choice of the two free functions of Config.lean. -/

namespace Sys2Proof.Machine

/-- A bus as R50 has it: two fallible operations over a state of its own, and what the host does to that state (R224). -/
structure AnyBus (σ : Type) where
  read : σ → Addr → Option Byte × σ
  write : σ → Addr → Byte → Bool × σ
  host : σ → Nat → σ

variable {σ : Type} (B : AnyBus σ) (start : σ)

/-- The state of the bus after a list of events, newest first. -/
def AnyBus.after : List BusEvent → σ
  | [] => start
  | .read a _ :: earlier => (B.read (AnyBus.after earlier) a).2
  | .write a v _ :: earlier => (B.write (AnyBus.after earlier) a v).2
  | .host change :: earlier => B.host (AnyBus.after earlier) change

/-- Its answers as a function of the events alone: the form of `Config.deviceRead`. -/
def AnyBus.deviceRead (log : List BusEvent) (a : Addr) : Option Byte := (B.read (B.after start log) a).1

/-- Which writes it takes as a function of the events alone: the form of `Config.deviceWrite`. -/
def AnyBus.deviceWrite (log : List BusEvent) (a : Addr) (v : Byte) : Bool := (B.write (B.after start log) a v).1

/-- A read of the bus is the answer the events give, and the bus is then the one the longer list of events gives. -/
theorem AnyBus.read_eq (log : List BusEvent) (a : Addr) :
    B.read (B.after start log) a =
      (B.deviceRead start log a, B.after start (.read a (B.deviceRead start log a) :: log)) := rfl

/-- A write likewise. -/
theorem AnyBus.write_eq (log : List BusEvent) (a : Addr) (v : Byte) :
    B.write (B.after start log) a v =
      (B.deviceWrite start log a v, B.after start (.write a v (B.deviceWrite start log a v) :: log)) := rfl

end Sys2Proof.Machine
end

