-- ==== Sys2Proof/Laws/State.lean ====
section
/-! SUPPORT. One lemma per field per update of the state, so that no proof unfolds a record update. -/

namespace Sys2Proof.Machine

variable (s : State)

@[simp] theorem State.withA_A (v : Byte) : (s.withA v).A = v := rfl
@[simp] theorem State.withA_X (v : Byte) : (s.withA v).X = s.X := rfl
@[simp] theorem State.withA_Y (v : Byte) : (s.withA v).Y = s.Y := rfl
@[simp] theorem State.withA_S (v : Byte) : (s.withA v).S = s.S := rfl
@[simp] theorem State.withA_P (v : Byte) : (s.withA v).P = s.P := rfl
@[simp] theorem State.withA_PC (v : Byte) : (s.withA v).PC = s.PC := rfl
@[simp] theorem State.withA_bus (v : Byte) : (s.withA v).bus = s.bus := rfl
@[simp] theorem State.withA_cfg (v : Byte) : (s.withA v).cfg = s.cfg := rfl
@[simp] theorem State.withA_cycles (v : Byte) : (s.withA v).cycles = s.cycles := rfl
@[simp] theorem State.withA_withA (v w : Byte) : (s.withA v).withA w = s.withA w := rfl
@[simp] theorem State.withA_self : s.withA s.A = s := rfl
@[simp] theorem State.withA_flag (v : Byte) (f : Flag) : (s.withA v).flag f = s.flag f := rfl
@[simp] theorem State.withA_byteAt (v : Byte) (a : Addr) : (s.withA v).byteAt a = s.byteAt a := rfl

@[simp] theorem State.withX_A (v : Byte) : (s.withX v).A = s.A := rfl
@[simp] theorem State.withX_X (v : Byte) : (s.withX v).X = v := rfl
@[simp] theorem State.withX_Y (v : Byte) : (s.withX v).Y = s.Y := rfl
@[simp] theorem State.withX_S (v : Byte) : (s.withX v).S = s.S := rfl
@[simp] theorem State.withX_P (v : Byte) : (s.withX v).P = s.P := rfl
@[simp] theorem State.withX_PC (v : Byte) : (s.withX v).PC = s.PC := rfl
@[simp] theorem State.withX_bus (v : Byte) : (s.withX v).bus = s.bus := rfl
@[simp] theorem State.withX_cfg (v : Byte) : (s.withX v).cfg = s.cfg := rfl
@[simp] theorem State.withX_cycles (v : Byte) : (s.withX v).cycles = s.cycles := rfl
@[simp] theorem State.withX_withX (v w : Byte) : (s.withX v).withX w = s.withX w := rfl
@[simp] theorem State.withX_self : s.withX s.X = s := rfl
@[simp] theorem State.withX_flag (v : Byte) (f : Flag) : (s.withX v).flag f = s.flag f := rfl
@[simp] theorem State.withX_byteAt (v : Byte) (a : Addr) : (s.withX v).byteAt a = s.byteAt a := rfl

@[simp] theorem State.withY_A (v : Byte) : (s.withY v).A = s.A := rfl
@[simp] theorem State.withY_X (v : Byte) : (s.withY v).X = s.X := rfl
@[simp] theorem State.withY_Y (v : Byte) : (s.withY v).Y = v := rfl
@[simp] theorem State.withY_S (v : Byte) : (s.withY v).S = s.S := rfl
@[simp] theorem State.withY_P (v : Byte) : (s.withY v).P = s.P := rfl
@[simp] theorem State.withY_PC (v : Byte) : (s.withY v).PC = s.PC := rfl
@[simp] theorem State.withY_bus (v : Byte) : (s.withY v).bus = s.bus := rfl
@[simp] theorem State.withY_cfg (v : Byte) : (s.withY v).cfg = s.cfg := rfl
@[simp] theorem State.withY_cycles (v : Byte) : (s.withY v).cycles = s.cycles := rfl
@[simp] theorem State.withY_withY (v w : Byte) : (s.withY v).withY w = s.withY w := rfl
@[simp] theorem State.withY_self : s.withY s.Y = s := rfl
@[simp] theorem State.withY_flag (v : Byte) (f : Flag) : (s.withY v).flag f = s.flag f := rfl
@[simp] theorem State.withY_byteAt (v : Byte) (a : Addr) : (s.withY v).byteAt a = s.byteAt a := rfl

@[simp] theorem State.withS_A (v : Byte) : (s.withS v).A = s.A := rfl
@[simp] theorem State.withS_X (v : Byte) : (s.withS v).X = s.X := rfl
@[simp] theorem State.withS_Y (v : Byte) : (s.withS v).Y = s.Y := rfl
@[simp] theorem State.withS_S (v : Byte) : (s.withS v).S = v := rfl
@[simp] theorem State.withS_P (v : Byte) : (s.withS v).P = s.P := rfl
@[simp] theorem State.withS_PC (v : Byte) : (s.withS v).PC = s.PC := rfl
@[simp] theorem State.withS_bus (v : Byte) : (s.withS v).bus = s.bus := rfl
@[simp] theorem State.withS_cfg (v : Byte) : (s.withS v).cfg = s.cfg := rfl
@[simp] theorem State.withS_cycles (v : Byte) : (s.withS v).cycles = s.cycles := rfl
@[simp] theorem State.withS_withS (v w : Byte) : (s.withS v).withS w = s.withS w := rfl
@[simp] theorem State.withS_self : s.withS s.S = s := rfl
@[simp] theorem State.withS_flag (v : Byte) (f : Flag) : (s.withS v).flag f = s.flag f := rfl
@[simp] theorem State.withS_byteAt (v : Byte) (a : Addr) : (s.withS v).byteAt a = s.byteAt a := rfl

@[simp] theorem State.withP_A (v : Byte) : (s.withP v).A = s.A := rfl
@[simp] theorem State.withP_X (v : Byte) : (s.withP v).X = s.X := rfl
@[simp] theorem State.withP_Y (v : Byte) : (s.withP v).Y = s.Y := rfl
@[simp] theorem State.withP_S (v : Byte) : (s.withP v).S = s.S := rfl
@[simp] theorem State.withP_P (v : Byte) : (s.withP v).P = v := rfl
@[simp] theorem State.withP_PC (v : Byte) : (s.withP v).PC = s.PC := rfl
@[simp] theorem State.withP_bus (v : Byte) : (s.withP v).bus = s.bus := rfl
@[simp] theorem State.withP_cfg (v : Byte) : (s.withP v).cfg = s.cfg := rfl
@[simp] theorem State.withP_cycles (v : Byte) : (s.withP v).cycles = s.cycles := rfl
@[simp] theorem State.withP_withP (v w : Byte) : (s.withP v).withP w = s.withP w := rfl
@[simp] theorem State.withP_self : s.withP s.P = s := rfl
@[simp] theorem State.withP_flag (v : Byte) (f : Flag) : (s.withP v).flag f = getFlag f v := rfl
@[simp] theorem State.withP_byteAt (v : Byte) (a : Addr) : (s.withP v).byteAt a = s.byteAt a := rfl

@[simp] theorem State.withPC_A (v : Addr) : (s.withPC v).A = s.A := rfl
@[simp] theorem State.withPC_X (v : Addr) : (s.withPC v).X = s.X := rfl
@[simp] theorem State.withPC_Y (v : Addr) : (s.withPC v).Y = s.Y := rfl
@[simp] theorem State.withPC_S (v : Addr) : (s.withPC v).S = s.S := rfl
@[simp] theorem State.withPC_P (v : Addr) : (s.withPC v).P = s.P := rfl
@[simp] theorem State.withPC_PC (v : Addr) : (s.withPC v).PC = v := rfl
@[simp] theorem State.withPC_bus (v : Addr) : (s.withPC v).bus = s.bus := rfl
@[simp] theorem State.withPC_cfg (v : Addr) : (s.withPC v).cfg = s.cfg := rfl
@[simp] theorem State.withPC_cycles (v : Addr) : (s.withPC v).cycles = s.cycles := rfl
@[simp] theorem State.withPC_withPC (v w : Addr) : (s.withPC v).withPC w = s.withPC w := rfl
@[simp] theorem State.withPC_self : s.withPC s.PC = s := rfl
@[simp] theorem State.withPC_flag (v : Addr) (f : Flag) : (s.withPC v).flag f = s.flag f := rfl
@[simp] theorem State.withPC_byteAt (v : Addr) (a : Addr) : (s.withPC v).byteAt a = s.byteAt a := rfl

@[simp] theorem State.withBus_A (v : Bus) : (s.withBus v).A = s.A := rfl
@[simp] theorem State.withBus_X (v : Bus) : (s.withBus v).X = s.X := rfl
@[simp] theorem State.withBus_Y (v : Bus) : (s.withBus v).Y = s.Y := rfl
@[simp] theorem State.withBus_S (v : Bus) : (s.withBus v).S = s.S := rfl
@[simp] theorem State.withBus_P (v : Bus) : (s.withBus v).P = s.P := rfl
@[simp] theorem State.withBus_PC (v : Bus) : (s.withBus v).PC = s.PC := rfl
@[simp] theorem State.withBus_bus (v : Bus) : (s.withBus v).bus = v := rfl
@[simp] theorem State.withBus_cfg (v : Bus) : (s.withBus v).cfg = s.cfg := rfl
@[simp] theorem State.withBus_cycles (v : Bus) : (s.withBus v).cycles = s.cycles := rfl
@[simp] theorem State.withBus_withBus (v w : Bus) : (s.withBus v).withBus w = s.withBus w := rfl
@[simp] theorem State.withBus_self : s.withBus s.bus = s := rfl
@[simp] theorem State.withBus_flag (v : Bus) (f : Flag) : (s.withBus v).flag f = s.flag f := rfl
@[simp] theorem State.withBus_byteAt (v : Bus) (a : Addr) : (s.withBus v).byteAt a = v.ram.read a.toNat := rfl

@[simp] theorem State.withCycles_A (v : Nat) : (s.withCycles v).A = s.A := rfl
@[simp] theorem State.withCycles_X (v : Nat) : (s.withCycles v).X = s.X := rfl
@[simp] theorem State.withCycles_Y (v : Nat) : (s.withCycles v).Y = s.Y := rfl
@[simp] theorem State.withCycles_S (v : Nat) : (s.withCycles v).S = s.S := rfl
@[simp] theorem State.withCycles_P (v : Nat) : (s.withCycles v).P = s.P := rfl
@[simp] theorem State.withCycles_PC (v : Nat) : (s.withCycles v).PC = s.PC := rfl
@[simp] theorem State.withCycles_bus (v : Nat) : (s.withCycles v).bus = s.bus := rfl
@[simp] theorem State.withCycles_cfg (v : Nat) : (s.withCycles v).cfg = s.cfg := rfl
@[simp] theorem State.withCycles_cycles (v : Nat) : (s.withCycles v).cycles = v := rfl
@[simp] theorem State.withCycles_withCycles (v w : Nat) : (s.withCycles v).withCycles w = s.withCycles w := rfl
@[simp] theorem State.withCycles_self : s.withCycles s.cycles = s := rfl
@[simp] theorem State.withCycles_flag (v : Nat) (f : Flag) : (s.withCycles v).flag f = s.flag f := rfl
@[simp] theorem State.withCycles_byteAt (v : Nat) (a : Addr) : (s.withCycles v).byteAt a = s.byteAt a := rfl

theorem State.setFlag_eq (f : Flag) (v : Bool) : s.setFlag f v = s.withP (Machine.setFlag f v s.P) := rfl

end Sys2Proof.Machine
end

