-- ==== Sys2Proof/Laws/Flags.lean ====
section
/-! SUPPORT. The flag operations, flag by flag. -/

namespace Sys2Proof.Machine

/-- A written flag reads as written and the seven others as before. -/
@[simp] theorem getFlag_setFlag (f g : Flag) (v : Bool) (p : Byte) :
    getFlag f (setFlag g v p) = if f = g then v else getFlag f p := by
  cases f <;> cases g <;> cases v <;> simp [getFlag, setFlag, Flag.mask, Flag.bit]

/-- Two status bytes with the same flags are equal. -/
theorem eq_of_getFlag_eq {p q : Byte} (h : ∀ f, getFlag f p = getFlag f q) : p = q := by
  apply BitVec.eq_of_getLsbD_eq
  intro i hi
  have hb : ∀ f : Flag, p.getLsbD f.bit = q.getLsbD f.bit := h
  interval_cases i
  · exact hb .C
  · exact hb .Z
  · exact hb .I
  · exact hb .D
  · exact hb .B
  · exact hb .U
  · exact hb .V
  · exact hb .N

@[simp] theorem getFlag_setNZ (f : Flag) (r p : Byte) :
    getFlag f (setNZ r p) = if f = .Z then (r == 0) else if f = .N then r.msb else getFlag f p := by
  simp [setNZ]

@[simp] theorem getFlag_setSumFlags (f : Flag) (r : Sum) (p : Byte) :
    getFlag f (setSumFlags r p) =
      if f = .Z then (r.result == 0) else if f = .N then r.result.msb else if f = .V then r.overflow
      else if f = .C then r.carry else getFlag f p := by
  simp [setSumFlags]

@[simp] theorem getFlag_setCompareFlags (f : Flag) (reg m p : Byte) :
    getFlag f (setCompareFlags reg m p) =
      if f = .N then (reg - m).msb else if f = .Z then (reg == m) else if f = .C then decide (m ≤ reg)
      else getFlag f p := by
  simp [setCompareFlags]

@[simp] theorem getFlag_setBitFlags (f : Flag) (a m p : Byte) :
    getFlag f (setBitFlags a m p) =
      if f = .V then m.getLsbD 6 else if f = .N then m.getLsbD 7 else if f = .Z then (a &&& m == 0)
      else getFlag f p := by
  simp [setBitFlags]

@[simp] theorem getFlag_setShiftFlags (f : Flag) (r : Shifted) (p : Byte) :
    getFlag f (setShiftFlags r p) =
      if f = .Z then (r.result == 0) else if f = .N then r.result.msb else if f = .C then r.carry
      else getFlag f p := by
  simp [setShiftFlags]

/-- What PLP and RTI load: B and U are 1, every other flag is the popped byte's (R173, R191). -/
@[simp] theorem getFlag_restoredStatus (f : Flag) (v : Byte) :
    getFlag f (restoredStatus v) = if f = .B ∨ f = .U then true else getFlag f v := by
  cases f <;> simp [getFlag, restoredStatus, Flag.bit]

/-- Writing two different flags commutes. -/
theorem setFlag_comm {f g : Flag} (h : f ≠ g) (v w : Bool) (p : Byte) :
    setFlag f v (setFlag g w p) = setFlag g w (setFlag f v p) := by
  apply eq_of_getFlag_eq
  intro k
  by_cases h1 : k = f <;> by_cases h2 : k = g <;> simp_all

/-- Only the last of two writes of one flag counts. -/
@[simp] theorem setFlag_setFlag (f : Flag) (v w : Bool) (p : Byte) : setFlag f v (setFlag f w p) = setFlag f v p := by
  apply eq_of_getFlag_eq
  intro k
  by_cases h : k = f <;> simp [h]

/-- The image BRK and PHP push does not depend on the register's B (R39). -/
@[simp] theorem imageWithBreak_setFlag_B (v : Bool) (p : Byte) : imageWithBreak (setFlag .B v p) = imageWithBreak p := by
  apply eq_of_getFlag_eq
  intro k
  cases k <;> cases v <;> simp [imageWithBreak, getFlag, setFlag, Flag.mask, Flag.bit]

/-- The image IRQ and NMI push does not depend on the register's B (R39). -/
@[simp] theorem imageWithoutBreak_setFlag_B (v : Bool) (p : Byte) :
    imageWithoutBreak (setFlag .B v p) = imageWithoutBreak p := by
  apply eq_of_getFlag_eq
  intro k
  cases k <;> cases v <;> simp [imageWithoutBreak, getFlag, setFlag, Flag.mask, Flag.bit]

end Sys2Proof.Machine
end

