-- ==== Sys2Proof/Laws/Memory.lean ====
section
/-! SUPPORT. The laws of memory: a read after a write, and that every operation keeps the canonical form. -/

namespace Sys2Proof.Machine

/-- A write leaves every other address alone, in any memory. -/
theorem Memory.read_write_of_ne (m : Memory) {a a' : Nat} (v : Byte) (h : a' ≠ a) :
    Memory.read (Memory.write m a v) a' = Memory.read m a' := by
  induction m with
  | nil =>
    have h' := h.symm
    simp only [Memory.write]
    split <;> simp [Memory.read, h']
  | cons c m ih =>
    obtain ⟨k, w⟩ := c
    have h' := h.symm
    simp only [Memory.write]
    split
    · simp [Memory.read, ih]
    · split
      · next hk => subst hk; split <;> simp [Memory.read, h']
      · split <;> simp [Memory.read, h']

/-- Below its first address a canonical memory lists nothing. -/
theorem Memory.read_of_lt (m : Memory) {lo a : Nat} (hm : Memory.wfFrom lo m = true) (h : a < lo) :
    Memory.read m a = Config.unlistedByte := by
  induction m generalizing lo with
  | nil => rfl
  | cons c m ih =>
    obtain ⟨k, w⟩ := c
    simp only [Memory.wfFrom, Bool.and_eq_true, decide_eq_true_eq] at hm
    have : k ≠ a := by omega
    simp [Memory.read, this, ih hm.2 (by omega)]

/-- The canonical form from an address is one from every lower address. -/
theorem Memory.wfFrom_mono (m : Memory) {lo lo' : Nat} (h : lo' ≤ lo) (hm : Memory.wfFrom lo m = true) :
    Memory.wfFrom lo' m = true := by
  cases m with
  | nil => rfl
  | cons c m =>
    obtain ⟨k, w⟩ := c
    simp only [Memory.wfFrom, Bool.and_eq_true, decide_eq_true_eq] at hm ⊢
    exact ⟨⟨⟨by omega, hm.1.1.2⟩, hm.1.2⟩, hm.2⟩

/-- In a canonical memory the written byte is read back. -/
theorem Memory.read_write_same_from (m : Memory) {lo a : Nat} (v : Byte) (hm : Memory.wfFrom lo m = true) :
    Memory.read (Memory.write m a v) a = v := by
  induction m generalizing lo with
  | nil =>
    simp only [Memory.write]
    split
    · next h => simp [Memory.read, h]
    · simp [Memory.read]
  | cons c m ih =>
    obtain ⟨k, w⟩ := c
    simp only [Memory.wfFrom, Bool.and_eq_true, decide_eq_true_eq] at hm
    simp only [Memory.write]
    split
    · next h =>
      have : k ≠ a := by omega
      simp [Memory.read, this, ih hm.2]
    · split
      · next h =>
        split
        · next hv => rw [hv]; exact Memory.read_of_lt m hm.2 (by omega)
        · simp [Memory.read]
      · next h1 h2 =>
        split
        · next hv => simp [Memory.read, h2, hv, Memory.read_of_lt m hm.2 (show a < k + 1 by omega)]
        · simp [Memory.read]

theorem Memory.read_write_same (m : Memory) (a : Nat) (v : Byte) (hm : m.wf = true) :
    Memory.read (Memory.write m a v) a = v := Memory.read_write_same_from m v hm

/-- A write in the address space keeps the canonical form. -/
theorem Memory.wfFrom_write (m : Memory) {lo a : Nat} (v : Byte) (ha : a < 65536) (hlo : lo ≤ a)
    (hm : Memory.wfFrom lo m = true) : Memory.wfFrom lo (Memory.write m a v) = true := by
  induction m generalizing lo with
  | nil =>
    simp only [Memory.write]
    split
    · rfl
    · next h => simp [Memory.wfFrom, hlo, ha, h]
  | cons c m ih =>
    obtain ⟨k, w⟩ := c
    have hm' := hm
    simp only [Memory.wfFrom, Bool.and_eq_true, decide_eq_true_eq] at hm'
    obtain ⟨⟨⟨h1, h2⟩, h3⟩, h4⟩ := hm'
    simp only [Memory.write]
    split
    · next h => simp [Memory.wfFrom, h1, h2, ih (by omega) h4] at h3 ⊢; exact h3
    · split
      · next h =>
        subst h
        split
        · exact Memory.wfFrom_mono m (by omega) h4
        · next hv => simp [Memory.wfFrom, h1, h2, hv, h4]
      · split
        · exact hm
        · next hne hk hv =>
          have : a + 1 ≤ k := by omega
          simp [Memory.wfFrom, hlo, ha, hv, this, h2, h4] at h3 ⊢; exact h3

theorem Memory.wf_write (m : Memory) {a : Nat} (v : Byte) (ha : a < 65536) (hm : m.wf = true) :
    (Memory.write m a v).wf = true := Memory.wfFrom_write m v ha (Nat.zero_le a) hm

/-- An empty memory is canonical. -/
theorem Memory.wf_nil : Memory.wf [] = true := rfl

end Sys2Proof.Machine
end

