-- ==== Sys2Proof/Laws/Ops.lean ====
section
/-! SUPPORT. For each shared operation, once, everything it can do: the accesses it makes and the state it answers. Later proofs
cite these and do not unfold the operations. -/

namespace Sys2Proof.Machine

/-! Sequencing. -/

section Sequencing

variable {α β : Type} (a : α) (e : Fault) (r : Refusal) (x : Res α) (f : α → Res β)

@[simp] theorem andThen_next : andThen (.next a) f = f a := rfl
@[simp] theorem andThen_fault : andThen (.fault e : Res α) f = .fault e := rfl
@[simp] theorem andThen_refused : andThen (.refused r : Res α) f = .refused r := rfl

/-- A sequence whose first half answers is its second half of the answer. -/
theorem andThen_of_next {x : Res α} {a : α} {f : α → Res β} (h : x = .next a) : andThen x f = f a := by rw [h]; rfl

/-- A sequence answers a value exactly when its first half does and its second half does of it. -/
theorem andThen_eq_next {b : β} : andThen x f = .next b ↔ ∃ a, x = .next a ∧ f a = .next b := by
  cases x <;> simp [andThen]

/-- A sequence ends in an error exactly when one of its halves does. -/
theorem andThen_eq_fault : andThen x f = .fault e ↔ x = .fault e ∨ ∃ a, x = .next a ∧ f a = .fault e := by
  cases x <;> simp [andThen]

/-- A sequence is refused exactly when one of its halves is. -/
theorem andThen_eq_refused : andThen x f = .refused r ↔ x = .refused r ∨ ∃ a, x = .next a ∧ f a = .refused r := by
  cases x <;> simp [andThen]

end Sequencing

/-! The bus. -/

/-- What any access leaves of the bus: the ranges are the host's, the device log only grows, memory stays canonical. -/
structure Bus.Follows (b b' : Bus) : Prop where
  noRead : b'.noRead = b.noRead
  noWrite : b'.noWrite = b.noWrite
  device : b'.device = b.device
  log : b.log <:+ b'.log
  wf : b.ram.wf = true → b'.ram.wf = true

theorem Bus.Follows.refl (b : Bus) : b.Follows b := ⟨rfl, rfl, rfl, List.suffix_refl _, id⟩

theorem Bus.Follows.trans {b c d : Bus} (h : b.Follows c) (k : c.Follows d) : b.Follows d :=
  ⟨k.noRead.trans h.noRead, k.noWrite.trans h.noWrite, k.device.trans h.device, h.log.trans k.log, k.wf ∘ h.wf⟩

theorem Bus.Follows.readable {b c : Bus} (h : b.Follows c) (a : Addr) : c.readable a = b.readable a := by
  simp [Bus.readable, h.noRead]

theorem Bus.Follows.writable {b c : Bus} (h : b.Follows c) (a : Addr) : c.writable a = b.writable a := by
  simp [Bus.writable, h.noWrite]

theorem Bus.Follows.isDevice {b c : Bus} (h : b.Follows c) (a : Addr) : c.isDevice a = b.isDevice a := by
  simp [Bus.isDevice, h.device]

/-- Whether a read succeeds depends on the ranges and on what has happened to the devices, not on memory. -/
theorem Bus.read_succeeds_congr {b c : Bus} (hr : c.noRead = b.noRead) (hd : c.device = b.device) (hl : c.log = b.log)
    (a : Addr) : (c.read a).1.isSome = (b.read a).1.isSome := by
  simp only [Bus.read, Bus.readable, Bus.isDevice, hr, hd, hl]
  split
  · next h1 => split <;> simp_all
  · next h1 => simp_all

/-- Whether a write succeeds depends on the ranges and on what has happened to the devices, not on memory. -/
theorem Bus.write_succeeds_congr {b c : Bus} (hw : c.noWrite = b.noWrite) (hd : c.device = b.device) (hl : c.log = b.log)
    (a : Addr) (v : Byte) : (c.write a v).1 = (b.write a v).1 := by
  simp only [Bus.write, Bus.writable, Bus.isDevice, hw, hd, hl]
  split
  · next h1 => split <;> simp_all
  · next h1 => simp_all

/-- A read, failed or not, changes no byte of memory. -/
theorem Bus.read_leaves {b b' : Bus} {a : Addr} {answer : Option Byte} (h : b.read a = (answer, b')) :
    b'.ram = b.ram ∧ b.Follows b' := by
  unfold Bus.read at h
  split at h
  · split at h
    · simp only [Prod.mk.injEq] at h
      obtain ⟨-, rfl⟩ := h
      exact ⟨rfl, rfl, rfl, rfl, List.suffix_cons _ _, id⟩
    · simp only [Prod.mk.injEq] at h
      obtain ⟨-, rfl⟩ := h
      exact ⟨rfl, Bus.Follows.refl _⟩
  · simp only [Prod.mk.injEq] at h
    obtain ⟨-, rfl⟩ := h
    exact ⟨rfl, Bus.Follows.refl _⟩

/-- A read of plain memory answers its byte and leaves the bus as it was. -/
theorem Bus.read_plain {b : Bus} {a : Addr} (hr : b.readable a = true) (hd : b.isDevice a = false) :
    b.read a = (some (b.ram.read a.toNat), b) := by simp [Bus.read, hr, hd]

/-- A write, failed or not, changes at most the byte at its address. -/
theorem Bus.write_leaves {b b' : Bus} {a : Addr} {v : Byte} {taken : Bool} (h : b.write a v = (taken, b')) :
    b.Follows b' ∧ ∀ a' : Addr, a' ≠ a → b'.ram.read a'.toNat = b.ram.read a'.toNat := by
  unfold Bus.write at h
  split at h
  · split at h
    · simp only [Prod.mk.injEq] at h
      obtain ⟨-, rfl⟩ := h
      exact ⟨⟨rfl, rfl, rfl, List.suffix_cons _ _, id⟩, fun _ _ => rfl⟩
    · simp only [Prod.mk.injEq] at h
      obtain ⟨-, rfl⟩ := h
      refine ⟨⟨rfl, rfl, rfl, List.suffix_refl _, Memory.wf_write _ _ a.isLt⟩, fun a' ha => ?_⟩
      exact Memory.read_write_of_ne _ _ fun hn => ha (BitVec.eq_of_toNat_eq hn)
  · simp only [Prod.mk.injEq] at h
    obtain ⟨-, rfl⟩ := h
    exact ⟨Bus.Follows.refl _, fun _ _ => rfl⟩

/-- A write that fails changes no byte of memory. -/
theorem Bus.write_failed {b b' : Bus} {a : Addr} {v : Byte} (h : b.write a v = (false, b')) : b'.ram = b.ram := by
  unfold Bus.write at h
  split at h
  · split at h <;> simp only [Prod.mk.injEq, reduceCtorEq, false_and] at h
    obtain ⟨-, rfl⟩ := h
    rfl
  · simp only [Prod.mk.injEq] at h
    obtain ⟨-, rfl⟩ := h
    rfl

/-- A write to plain memory of a canonical form: the byte is there afterwards. -/
theorem Bus.write_plain {b : Bus} {a : Addr} (v : Byte) (hw : b.writable a = true) (hd : b.isDevice a = false)
    (hm : b.ram.wf = true) : ∃ b', b.write a v = (true, b') ∧ b'.ram.read a.toNat = v :=
  ⟨{ b with ram := b.ram.write a.toNat v }, by simp [Bus.write, hw, hd], Memory.read_write_same _ _ _ hm⟩

/-! The primitives: each in terms of the bus. -/

theorem memRead_of_some {a : Addr} {s : State} {v : Byte} {b : Bus} (h : s.bus.read a = (some v, b)) :
    memRead a s = .next (v, s.withBus b) := by simp [memRead, h]

theorem memRead_of_none {a : Addr} {s : State} {b : Bus} (h : s.bus.read a = (none, b)) :
    memRead a s = .fault (.busError .invalidRead a (s.withBus b)) := by simp [memRead, h]

theorem memWrite_of_taken {a : Addr} {s : State} {v : Byte} {b : Bus} (h : s.bus.write a v = (true, b)) :
    memWrite a v s = .next (s.withBus b) := by simp [memWrite, h]

theorem memWrite_of_failed {a : Addr} {s : State} {v : Byte} {b : Bus} (h : s.bus.write a v = (false, b)) :
    memWrite a v s = .fault (.busError .invalidWrite a (s.withBus b)) := by simp [memWrite, h]

/-- A read answers one read of the bus and changes the bus alone. -/
theorem memRead_eq_next {a : Addr} {s t : State} {v : Byte} :
    memRead a s = .next (v, t) ↔ ∃ b, s.bus.read a = (some v, b) ∧ t = s.withBus b := by
  unfold memRead
  split
  · next w b h =>
    simp only [Host.Outcome.next.injEq, Prod.mk.injEq, h, Option.some.injEq]
    constructor
    · rintro ⟨rfl, rfl⟩; exact ⟨b, ⟨rfl, rfl⟩, rfl⟩
    · rintro ⟨c, ⟨rfl, rfl⟩, rfl⟩; exact ⟨rfl, rfl⟩
  · next h => simp [h]

/-- A write answers one write of the bus and changes the bus alone. -/
theorem memWrite_eq_next {a : Addr} {s t : State} {v : Byte} :
    memWrite a v s = .next t ↔ ∃ b, s.bus.write a v = (true, b) ∧ t = s.withBus b := by
  unfold memWrite
  split
  · next b h => simp [h, eq_comm]
  · next h => simp [h]

/-- A read ends in no error but InvalidRead at its address, the bus as the failing read left it (R205). -/
theorem memRead_eq_fault {a : Addr} {s : State} {e : Fault} :
    memRead a s = .fault e ↔ ∃ b, s.bus.read a = (none, b) ∧ e = .busError .invalidRead a (s.withBus b) := by
  unfold memRead
  split
  · next h => simp [h]
  · next h => simp [h, eq_comm]

/-- A write ends in no error but InvalidWrite at its address, the bus as the failing write left it (R205). -/
theorem memWrite_eq_fault {a : Addr} {s : State} {v : Byte} {e : Fault} :
    memWrite a v s = .fault e ↔ ∃ b, s.bus.write a v = (false, b) ∧ e = .busError .invalidWrite a (s.withBus b) := by
  unfold memWrite
  split
  · next h => simp [h]
  · next h => simp [h, eq_comm]

@[simp] theorem memRead_ne_refused (a : Addr) (s : State) (r : Refusal) : memRead a s ≠ .refused r := by
  unfold memRead; split <;> simp

@[simp] theorem memWrite_ne_refused (a : Addr) (v : Byte) (s : State) (r : Refusal) : memWrite a v s ≠ .refused r := by
  unfold memWrite; split <;> simp

/-- A push answers one write at 0x0100 + S and then a decremented S (R15). -/
theorem push_eq_next {v : Byte} {s t : State} :
    push v s = .next t ↔ ∃ b, s.bus.write (stackAddr s.S) v = (true, b) ∧ t = (s.withBus b).withS (s.S - 1) := by
  simp only [push, andThen_eq_next, memWrite_eq_next]
  constructor
  · rintro ⟨_, ⟨b, h, rfl⟩, h'⟩
    exact ⟨b, h, by simpa using h'.symm⟩
  · rintro ⟨b, h, rfl⟩
    exact ⟨_, ⟨b, h, rfl⟩, rfl⟩

/-- A pop answers one read at 0x0100 + (S + 1), S incremented (R15). -/
theorem pop_eq_next {v : Byte} {s t : State} :
    pop s = .next (v, t) ↔
      ∃ b, s.bus.read (stackAddr (s.S + 1)) = (some v, b) ∧ t = (s.withS (s.S + 1)).withBus b := by
  simp [pop, memRead_eq_next]

theorem push_of_taken {v : Byte} {s : State} {b : Bus} (h : s.bus.write (stackAddr s.S) v = (true, b)) :
    push v s = .next ((s.withBus b).withS (s.S - 1)) := push_eq_next.mpr ⟨b, h, rfl⟩

theorem pop_of_some {v : Byte} {s : State} {b : Bus} (h : s.bus.read (stackAddr (s.S + 1)) = (some v, b)) :
    pop s = .next (v, (s.withS (s.S + 1)).withBus b) := pop_eq_next.mpr ⟨b, h, rfl⟩

/-- A push whose write fails leaves S as it was (R15). -/
theorem push_of_failed {v : Byte} {s : State} {b : Bus} (h : s.bus.write (stackAddr s.S) v = (false, b)) :
    push v s = .fault (.busError .invalidWrite (stackAddr s.S) (s.withBus b)) := by
  simp [push, memWrite_of_failed h]

/-- A pop whose read fails leaves S incremented (R15). -/
theorem pop_of_none {s : State} {b : Bus} (h : s.bus.read (stackAddr (s.S + 1)) = (none, b)) :
    pop s = .fault (.busError .invalidRead (stackAddr (s.S + 1)) ((s.withS (s.S + 1)).withBus b)) := by
  show memRead (stackAddr (s.S + 1)) (s.withS (s.S + 1)) = _
  exact memRead_of_none h

/-- Two pushes, high byte first (R54). -/
theorem pushWord_of_accesses {a : Addr} {s : State} {b1 b2 : Bus}
    (h1 : s.bus.write (stackAddr s.S) (hiByte a) = (true, b1))
    (h2 : b1.write (stackAddr (s.S - 1)) (loByte a) = (true, b2)) :
    pushWord a s = .next ((s.withBus b2).withS (s.S - 1 - 1)) :=
  (andThen_of_next (push_of_taken h1)).trans (push_of_taken (s := (s.withBus b1).withS (s.S - 1)) h2)

/-- Two pops, low byte first (R164, R191). -/
theorem popWord_of_accesses {lo hi : Byte} {s : State} {b1 b2 : Bus}
    (h1 : s.bus.read (stackAddr (s.S + 1)) = (some lo, b1))
    (h2 : b1.read (stackAddr (s.S + 1 + 1)) = (some hi, b2)) :
    popWord s = .next (word hi lo, (s.withBus b2).withS (s.S + 1 + 1)) := by
  simp only [popWord, pop_of_some h1, andThen_next]
  simp only [pop_of_some (s := (s.withS (s.S + 1)).withBus b1) h2, andThen_next]
  rfl

/-- Two reads, low byte first (R56). -/
theorem read16_of_accesses {a : Addr} {lo hi : Byte} {s : State} {b1 b2 : Bus}
    (h1 : s.bus.read a = (some lo, b1)) (h2 : b1.read (a + 1) = (some hi, b2)) :
    read16 a s = .next (word hi lo, s.withBus b2) := by
  simp only [read16, memRead_of_some h1, andThen_next]
  simp only [memRead_of_some (s := s.withBus b1) h2, andThen_next]
  rfl

/-- The interrupt entry: three writes, two reads, then I and PC (R215). -/
theorem enterInterrupt_of_accesses {ret vector : Addr} {image lo hi : Byte} {s : State} {b1 b2 b3 b4 b5 : Bus}
    (h1 : s.bus.write (stackAddr s.S) (hiByte ret) = (true, b1))
    (h2 : b1.write (stackAddr (s.S - 1)) (loByte ret) = (true, b2))
    (h3 : b2.write (stackAddr (s.S - 1 - 1)) image = (true, b3))
    (h4 : b3.read vector = (some lo, b4)) (h5 : b4.read (vector + 1) = (some hi, b5)) :
    enterInterrupt ret image vector s =
      .next ((((s.withBus b5).withS (s.S - 1 - 1 - 1)).setFlag .I true).withPC (word hi lo)) := by
  simp only [enterInterrupt, pushWord_of_accesses h1 h2, andThen_next]
  simp only [push_of_taken (s := (s.withBus b2).withS (s.S - 1 - 1)) h3, andThen_next]
  simp only [State.withS_S,
    read16_of_accesses (s := (((s.withBus b2).withS (s.S - 1 - 1)).withBus b3).withS (s.S - 1 - 1 - 1)) h4 h5, andThen_next]
  rfl

/-! Where an access of a two-byte push, pop or read, of an entry or of a return fails (R204–R206). -/

theorem pushWord_first_fails {a : Addr} {s : State} {b : Bus} (h : s.bus.write (stackAddr s.S) (hiByte a) = (false, b)) :
    pushWord a s = .fault (.busError .invalidWrite (stackAddr s.S) (s.withBus b)) := by
  simp only [pushWord, push_of_failed h, andThen_fault]

theorem pushWord_second_fails {a : Addr} {s : State} {b1 b2 : Bus}
    (h1 : s.bus.write (stackAddr s.S) (hiByte a) = (true, b1))
    (h2 : b1.write (stackAddr (s.S - 1)) (loByte a) = (false, b2)) :
    pushWord a s = .fault (.busError .invalidWrite (stackAddr (s.S - 1)) ((s.withBus b2).withS (s.S - 1))) :=
  (andThen_of_next (push_of_taken h1)).trans (push_of_failed (s := (s.withBus b1).withS (s.S - 1)) h2)

theorem popWord_first_fails {s : State} {b : Bus} (h : s.bus.read (stackAddr (s.S + 1)) = (none, b)) :
    popWord s = .fault (.busError .invalidRead (stackAddr (s.S + 1)) ((s.withS (s.S + 1)).withBus b)) := by
  simp only [popWord, pop_of_none h, andThen_fault]

theorem popWord_second_fails {lo : Byte} {s : State} {b1 b2 : Bus}
    (h1 : s.bus.read (stackAddr (s.S + 1)) = (some lo, b1)) (h2 : b1.read (stackAddr (s.S + 1 + 1)) = (none, b2)) :
    popWord s = .fault (.busError .invalidRead (stackAddr (s.S + 1 + 1)) ((s.withS (s.S + 1 + 1)).withBus b2)) := by
  simp only [popWord, pop_of_some h1, andThen_next]
  simp only [pop_of_none (s := (s.withS (s.S + 1)).withBus b1) h2, andThen_fault]
  rfl

theorem read16_low_fails {a : Addr} {s : State} {b : Bus} (h : s.bus.read a = (none, b)) :
    read16 a s = .fault (.busError .invalidRead a (s.withBus b)) := by
  simp only [read16, memRead_of_none h, andThen_fault]

theorem read16_high_fails {a : Addr} {lo : Byte} {s : State} {b1 b2 : Bus} (h1 : s.bus.read a = (some lo, b1))
    (h2 : b1.read (a + 1) = (none, b2)) : read16 a s = .fault (.busError .invalidRead (a + 1) (s.withBus b2)) := by
  simp only [read16, memRead_of_some h1, andThen_next]
  simp only [memRead_of_none (s := s.withBus b1) h2, andThen_fault]
  rfl

theorem enterInterrupt_push_fails {ret vector : Addr} {image : Byte} {s : State} {e : Fault}
    (h : pushWord ret s = .fault e) : enterInterrupt ret image vector s = .fault e := by
  simp only [enterInterrupt, h, andThen_fault]

theorem enterInterrupt_image_fails {ret vector : Addr} {image : Byte} {s : State} {b1 b2 b3 : Bus}
    (h1 : s.bus.write (stackAddr s.S) (hiByte ret) = (true, b1))
    (h2 : b1.write (stackAddr (s.S - 1)) (loByte ret) = (true, b2))
    (h3 : b2.write (stackAddr (s.S - 1 - 1)) image = (false, b3)) :
    enterInterrupt ret image vector s =
      .fault (.busError .invalidWrite (stackAddr (s.S - 1 - 1)) ((s.withBus b3).withS (s.S - 1 - 1))) := by
  simp only [enterInterrupt, pushWord_of_accesses h1 h2, andThen_next]
  simp only [push_of_failed (s := (s.withBus b2).withS (s.S - 1 - 1)) h3, andThen_fault]
  rfl

theorem enterInterrupt_vector_fails {ret vector a : Addr} {image : Byte} {s : State} {b1 b2 b3 b : Bus}
    (h1 : s.bus.write (stackAddr s.S) (hiByte ret) = (true, b1))
    (h2 : b1.write (stackAddr (s.S - 1)) (loByte ret) = (true, b2))
    (h3 : b2.write (stackAddr (s.S - 1 - 1)) image = (true, b3))
    (h4 : ∀ t : State, t.bus = b3 → read16 vector t = .fault (.busError .invalidRead a (t.withBus b))) :
    enterInterrupt ret image vector s =
      .fault (.busError .invalidRead a ((s.withBus b).withS (s.S - 1 - 1 - 1))) := by
  simp only [enterInterrupt, pushWord_of_accesses h1 h2, andThen_next]
  simp only [push_of_taken (s := (s.withBus b2).withS (s.S - 1 - 1)) h3, andThen_next]
  simp only [State.withS_S, h4 ((((s.withBus b2).withS (s.S - 1 - 1)).withBus b3).withS (s.S - 1 - 1 - 1)) rfl, andThen_fault]
  rfl

/-- The return: three reads, then P and PC (R191). -/
theorem returnFromInterrupt_of_accesses {p lo hi : Byte} {s : State} {b1 b2 b3 : Bus}
    (h1 : s.bus.read (stackAddr (s.S + 1)) = (some p, b1))
    (h2 : b1.read (stackAddr (s.S + 1 + 1)) = (some lo, b2))
    (h3 : b2.read (stackAddr (s.S + 1 + 1 + 1)) = (some hi, b3)) :
    returnFromInterrupt s =
      .next ((((s.withBus b3).withS (s.S + 1 + 1 + 1)).withP (restoredStatus p)).withPC (word hi lo)) := by
  simp only [returnFromInterrupt, pop_of_some h1, andThen_next]
  simp only [popWord_of_accesses (s := (s.withS (s.S + 1)).withBus b1) h2 h3, andThen_next]
  rfl

end Sys2Proof.Machine
end

