-- ==== Sys2Proof/Laws/Commute.lean ====
section
/-! SUPPORT. What does not look at P: every shared operation up to the writing of flags, run from a state with one flag written,
is the same operation with that flag written afterwards. -/

namespace Sys2Proof.Machine

/-- An answer with its value mapped by `f` and the state of an error by `g`. -/
def mapRes {α β : Type} (f : α → β) (g : State → State) : Res α → Res β
  | .next a => .next (f a)
  | .fault e => .fault (e.mapAfter g)
  | .refused r => .refused r

/-- A value and the state beside it, the state mapped. -/
def mapSnd {α : Type} (g : State → State) (r : α × State) : α × State := (r.1, g r.2)

theorem mapStates_eq (g : State → State) (x : Res State) : mapStates g x = mapRes g g x := by cases x <;> rfl

/-- A sequence of two operations that commute with a mapping commutes with it. -/
theorem andThen_mapRes {α β γ δ : Type} {f : α → β} {f' : γ → δ} {g : State → State} {x : Res α} {k : α → Res γ}
    {k' : β → Res δ} (h : ∀ a, k' (f a) = mapRes f' g (k a)) :
    andThen (mapRes f g x) k' = mapRes f' g (andThen x k) := by
  cases x with
  | next a => exact h a
  | fault e => rfl
  | refused r => rfl

variable (f : Flag) (v : Bool) (s : State)

/-- One flag written: the mapping of this file. -/
abbrev flagWritten (f : Flag) (v : Bool) (s : State) : State := s.setFlag f v

theorem memRead_setFlag (a : Addr) :
    memRead a (s.setFlag f v) = mapRes (mapSnd (flagWritten f v)) (flagWritten f v) (memRead a s) := by
  have h : (s.setFlag f v).bus = s.bus := rfl
  unfold memRead
  rw [h]
  rcases s.bus.read a with ⟨_ | _, _⟩ <;> rfl

theorem memWrite_setFlag (a : Addr) (w : Byte) :
    memWrite a w (s.setFlag f v) = mapRes (flagWritten f v) (flagWritten f v) (memWrite a w s) := by
  have h : (s.setFlag f v).bus = s.bus := rfl
  unfold memWrite
  rw [h]
  rcases s.bus.write a w with ⟨_ | _, _⟩ <;> rfl

theorem fetchByte_setFlag :
    fetchByte (s.setFlag f v) = mapRes (mapSnd (flagWritten f v)) (flagWritten f v) (fetchByte s) := by
  unfold fetchByte
  exact (congrArg (fun x => andThen x _) (memRead_setFlag f v s s.PC)).trans (andThen_mapRes fun _ => rfl)

theorem push_setFlag (w : Byte) :
    push w (s.setFlag f v) = mapRes (flagWritten f v) (flagWritten f v) (push w s) := by
  unfold push
  exact (congrArg (fun x => andThen x _) (memWrite_setFlag f v s (stackAddr s.S) w)).trans (andThen_mapRes fun _ => rfl)

theorem pop_setFlag : pop (s.setFlag f v) = mapRes (mapSnd (flagWritten f v)) (flagWritten f v) (pop s) :=
  memRead_setFlag f v (s.withS (s.S + 1)) (stackAddr (s.S + 1))

theorem pushWord_setFlag (a : Addr) :
    pushWord a (s.setFlag f v) = mapRes (flagWritten f v) (flagWritten f v) (pushWord a s) := by
  unfold pushWord
  rw [push_setFlag]
  exact andThen_mapRes fun t => push_setFlag f v t (loByte a)

theorem popWord_setFlag : popWord (s.setFlag f v) = mapRes (mapSnd (flagWritten f v)) (flagWritten f v) (popWord s) := by
  unfold popWord
  rw [pop_setFlag]
  refine andThen_mapRes fun r => ?_
  show andThen (pop (r.2.setFlag f v)) _ = _
  rw [pop_setFlag]
  exact andThen_mapRes fun _ => rfl

theorem read16_setFlag (a : Addr) :
    read16 a (s.setFlag f v) = mapRes (mapSnd (flagWritten f v)) (flagWritten f v) (read16 a s) := by
  unfold read16
  rw [memRead_setFlag]
  refine andThen_mapRes fun r => ?_
  show andThen (memRead (a + 1) (r.2.setFlag f v)) _ = _
  rw [memRead_setFlag]
  exact andThen_mapRes fun _ => rfl

theorem readZeroPagePointer_setFlag (t : Byte) :
    readZeroPagePointer t (s.setFlag f v) =
      mapRes (mapSnd (flagWritten f v)) (flagWritten f v) (readZeroPagePointer t s) := by
  unfold readZeroPagePointer
  rw [memRead_setFlag]
  refine andThen_mapRes fun r => ?_
  show andThen (memRead (zeroPage (t + 1)) (r.2.setFlag f v)) _ = _
  rw [memRead_setFlag]
  exact andThen_mapRes fun _ => rfl

theorem readIndirect_setFlag (ptr : Addr) :
    readIndirect ptr (s.setFlag f v) = mapRes (mapSnd (flagWritten f v)) (flagWritten f v) (readIndirect ptr s) := by
  unfold readIndirect
  rw [memRead_setFlag]
  refine andThen_mapRes fun r => ?_
  show andThen (memRead (pointerHighAddr r.2.cfg ptr) (r.2.setFlag f v)) _ = _
  rw [memRead_setFlag]
  exact andThen_mapRes fun _ => rfl

theorem resolve_setFlag (o : Operand) :
    resolve o (s.setFlag f v) = mapRes (mapSnd (flagWritten f v)) (flagWritten f v) (resolve o s) := by
  cases o with
  | indirect a => simp only [resolve]; rw [readIndirect_setFlag]; exact andThen_mapRes fun _ => rfl
  | xIndexIndirect b =>
    simp only [resolve, State.setFlag_eq, State.withP_X]
    rw [← State.setFlag_eq, readZeroPagePointer_setFlag]
    exact andThen_mapRes fun _ => rfl
  | indirectYIndex b => simp only [resolve]; rw [readZeroPagePointer_setFlag]; exact andThen_mapRes fun _ => rfl
  | implied | accumulator | immediate b | zeropage b | zeropageXIndex b | zeropageYIndex b | absolute a
  | absoluteXIndex a | absoluteYIndex a | relative d => rfl

theorem operandValue_setFlag (op : Resolved) :
    operandValue op (s.setFlag f v) = mapRes (mapSnd (flagWritten f v)) (flagWritten f v) (operandValue op s) := by
  cases op with
  | byte w => rfl
  | address a => exact memRead_setFlag f v s a
  | addressWithOverflow a c => exact memRead_setFlag f v s a
  | none => rfl

theorem operandAddress_setFlag (op : Resolved) :
    operandAddress op (s.setFlag f v) = mapRes id (flagWritten f v) (operandAddress op s) := by
  cases op <;> rfl

end Sys2Proof.Machine
end

