-- ==== Sys2Proof/Laws/Decode.lean ====
section
/-! SUPPORT. The dispatch table against itself, against the "Operands:" lines of files 40–45 and against R89; and the pieces of
an instruction put together and taken apart. -/

namespace Sys2Proof

/-- A row against the rest of the table: its form selects it, its opcode selects it, its mode is one of its handler's, and its
opcode is assigned. -/
def rowAgrees (r : DispatchRow) : Bool :=
  (rowOfForm r.mnemonic r.mode == some r) && (rowOfOpcode r.opcode == some r) && r.mnemonic.modes.contains r.mode
  && !unassignedOpcodes.contains r.opcode

/-- Every row of the table agrees with the rest of it, with the "Operands:" lines and with R89: no two rows overlap. -/
theorem rows_agree : (List.range 16).all (fun high => (dispatchRows high).all rowAgrees) = true := by decide

/-- A byte against R89: it has a row, which holds it, or it is unassigned. -/
def byteAgrees (n : Nat) : Bool :=
  match rowOfOpcode (BitVec.ofNat 8 n) with
  | none => unassignedOpcodes.contains (BitVec.ofNat 8 n)
  | some r => (dispatchRows (n / 16)).contains r && (r.opcode == BitVec.ofNat 8 n)

/-- Every byte has a row or is one of R89's 105 (R91). -/
theorem bytes_agree : (List.range 16).all (fun high => (List.range 16).all (fun low => byteAgrees (high * 16 + low)))
    = true := by decide

theorem byte_agrees (c : Byte) : byteAgrees c.toNat = true := by
  have hc := c.isLt
  have h := List.all_eq_true.mp (List.all_eq_true.mp bytes_agree (c.toNat / 16) (by simp; omega)) (c.toNat % 16)
    (by simp; omega)
  rwa [show c.toNat / 16 * 16 + c.toNat % 16 = c.toNat by omega] at h

/-- What a row of the table says of it. -/
theorem row_facts {r : DispatchRow} (h : r ∈ dispatchTable) :
    rowOfForm r.mnemonic r.mode = some r ∧ rowOfOpcode r.opcode = some r ∧ r.mode ∈ r.mnemonic.modes ∧
      r.opcode ∉ unassignedOpcodes := by
  obtain ⟨high, h1, h2⟩ := List.mem_flatMap.mp h
  have := List.all_eq_true.mp (List.all_eq_true.mp rows_agree high h1) r h2
  simpa [rowAgrees, and_assoc] using this

theorem rowOfOpcode_some {c : Byte} {r : DispatchRow} (h : rowOfOpcode c = some r) : r ∈ dispatchTable ∧ r.opcode = c := by
  have hc := c.isLt
  have hb := byte_agrees c
  simp only [byteAgrees, BitVec.ofNat_toNat, BitVec.setWidth_eq, h, Bool.and_eq_true, List.contains_iff_mem,
    beq_iff_eq] at hb
  exact ⟨List.mem_flatMap.mpr ⟨c.toNat / 16, by simp; omega, hb.1⟩, hb.2⟩

/-- An opcode byte has no row exactly when it is one of R89's. -/
theorem rowOfOpcode_eq_none (c : Byte) : rowOfOpcode c = none ↔ c ∈ unassignedOpcodes := by
  constructor
  · intro h
    have hb := byte_agrees c
    simpa [byteAgrees, h] using hb
  · intro hc
    cases h : rowOfOpcode c with
    | none => rfl
    | some r =>
      obtain ⟨h1, h2⟩ := rowOfOpcode_some h
      exact absurd (h2 ▸ hc) (row_facts h1).2.2.2

/-- The operand a mode makes has that mode. -/
theorem operandOf_mode (m : Mode) (b1 b2 : Byte) : (operandOf m b1 b2).mode = m := by cases m <;> rfl
/-- The instruction of a handler and an operand in one of its modes. -/
theorem build_facts (m : Mnemonic) (o : Operand) (h : o.mode ∈ m.modes) :
    (m.build o).mnemonic = some m ∧ (m.build o).operand = o ∧ (m.build o).wellFormed = true ∧
      ∀ c, m.build o ≠ .unimplemented c := by
  have key : m.modes = [.implied] → o = .implied := by
    intro hm; rw [hm] at h; cases o <;> simp [Operand.mode] at h ⊢
  cases m <;> first
    | (obtain rfl := key rfl; exact ⟨rfl, rfl, rfl, fun c => by simp [Mnemonic.build]⟩)
    | exact ⟨rfl, rfl, by simpa [Instr.wellFormed, Mnemonic.build, Instr.mnemonic, Instr.operand] using h,
        fun c => by simp [Mnemonic.build]⟩

/-- A 16-bit value is its two bytes. -/
theorem word_hi_lo (a : Addr) : word (hiByte a) (loByte a) = a := by
  unfold word hiByte loByte
  apply BitVec.eq_of_getLsbD_eq
  intro i hi
  simp only [BitVec.getLsbD_append, BitVec.getLsbD_extractLsb']
  by_cases h : i < 8
  · simp [h]
  · simp [h, show i - 8 < 8 by omega, show 8 + (i - 8) = i by omega]

theorem hi_word (h l : Byte) : hiByte (word h l) = h := by
  unfold word hiByte
  apply BitVec.eq_of_getLsbD_eq
  intro i hi
  simp only [BitVec.getLsbD_extractLsb', BitVec.getLsbD_append]
  simp [hi]

theorem lo_word (h l : Byte) : loByte (word h l) = l := by
  unfold word loByte
  apply BitVec.eq_of_getLsbD_eq
  intro i hi
  simp only [BitVec.getLsbD_extractLsb', BitVec.getLsbD_append]
  simp [hi]

/-- `hi:lo` as a number (R11). -/
theorem word_toNat (h l : Byte) : (word h l).toNat = h.toNat * 256 + l.toNat := by
  unfold word
  rw [BitVec.toNat_append, ← Nat.shiftLeft_add_eq_or_of_lt l.isLt, Nat.shiftLeft_eq]

theorem word_eq_ofNat (h l : Byte) : word h l = BitVec.ofNat 16 (h.toNat * 256 + l.toNat) := by
  have := h.isLt
  have := l.isLt
  apply BitVec.eq_of_toNat_eq
  rw [word_toNat, BitVec.toNat_ofNat, Nat.mod_eq_of_lt (by omega)]

theorem hiByte_toNat (a : Addr) : (hiByte a).toNat = a.toNat / 256 := by
  have := a.isLt
  simp [hiByte, BitVec.extractLsb'_toNat, Nat.shiftRight_eq_div_pow]
  omega

theorem loByte_toNat (a : Addr) : (loByte a).toNat = a.toNat % 256 := by
  simp [loByte, BitVec.extractLsb'_toNat]

/-- An instruction is its handler and its operand. -/
theorem build_parts {i : Instr} {m : Mnemonic} (hm : i.mnemonic = some m) : m.build i.operand = i := by
  cases i <;> simp [Instr.mnemonic] at hm <;> subst hm <;> rfl

theorem encode_eq {i : Instr} {m : Mnemonic} (hm : i.mnemonic = some m) :
    encode i = match rowOfForm m i.operand.mode with | none => [] | some r => r.opcode :: i.operand.bytes := by
  cases i <;> simp [Instr.mnemonic] at hm <;> subst hm <;> rfl

theorem wellFormed_eq {i : Instr} {m : Mnemonic} (hm : i.mnemonic = some m) :
    i.wellFormed = m.modes.contains i.operand.mode := by
  cases i <;> simp [Instr.mnemonic] at hm <;> subst hm <;> rfl

/-- The row of a form is in the table and holds the form. -/
theorem rowOfForm_some {m : Mnemonic} {mode : Mode} {r : DispatchRow} (h : rowOfForm m mode = some r) :
    r ∈ dispatchTable ∧ r.mnemonic = m ∧ r.mode = mode := by
  unfold rowOfForm at h
  refine ⟨List.mem_of_find?_eq_some h, ?_⟩
  have := List.find?_some h
  simpa using this

end Sys2Proof
end

