-- ==== Sys2Proof/Laws/Ends.lean ====
section
/-! SUPPORT. How an operation ends: with an answer of which one thing is known, or an error of which another is; never
refused. Whole-machine facts are put together from one such lemma per shared operation. -/

namespace Sys2Proof.Machine

/-- The operation answers with a value that meets `q`, or ends in an error that meets `e`. -/
def Ends {α : Type} (x : Res α) (q : α → Prop) (e : Fault → Prop) : Prop :=
  match x with
  | .next a => q a
  | .fault f => e f
  | .refused _ => False

section Rules

variable {α β : Type} {x : Res α} {q q' : α → Prop} {e e' : Fault → Prop}

@[simp] theorem ends_next (a : α) : Ends (.next a) q e ↔ q a := Iff.rfl
@[simp] theorem ends_fault (f : Fault) : Ends (.fault f : Res α) q e ↔ e f := Iff.rfl

theorem Ends.next {a : α} (h : Ends x q e) (hx : x = .next a) : q a := by subst hx; exact h
theorem Ends.fault {f : Fault} (h : Ends x q e) (hx : x = .fault f) : e f := by subst hx; exact h
theorem Ends.not_refused (h : Ends x q e) (r : Refusal) : x ≠ .refused r := by rintro rfl; exact h

/-- Weaken what is said of the answer and of the error. -/
theorem Ends.mono (h : Ends x q e) (hq : ∀ a, q a → q' a) (he : ∀ f, e f → e' f) : Ends x q' e' := by
  cases x with
  | next a => exact hq a h
  | fault f => exact he f h
  | refused r => exact h

/-- A sequence: what the first half leaves is what the second half starts from. -/
theorem Ends.andThen {f : α → Res β} {q' : β → Prop} (h : Ends x q e) (he : ∀ f, e f → e' f)
    (hf : ∀ a, q a → Ends (f a) q' e') : Ends (Machine.andThen x f) q' e' := by
  cases x with
  | next a => exact hf a h
  | fault k => exact he k h
  | refused r => exact h.elim

end Rules

/-- A state inside an instruction, before it writes registers: only S and the bus may differ from the start. -/
structure State.Inside (s t : State) : Prop where
  A : t.A = s.A
  X : t.X = s.X
  Y : t.Y = s.Y
  P : t.P = s.P
  PC : t.PC = s.PC
  cfg : t.cfg = s.cfg
  cycles : t.cycles = s.cycles
  bus : s.bus.Follows t.bus

theorem State.Inside.refl (s : State) : s.Inside s := ⟨rfl, rfl, rfl, rfl, rfl, rfl, rfl, Bus.Follows.refl _⟩

theorem State.Inside.trans {s t u : State} (h : s.Inside t) (k : t.Inside u) : s.Inside u :=
  ⟨k.A.trans h.A, k.X.trans h.X, k.Y.trans h.Y, k.P.trans h.P, k.PC.trans h.PC, k.cfg.trans h.cfg,
    k.cycles.trans h.cycles, h.bus.trans k.bus⟩

theorem State.Inside.withS {s t : State} (h : s.Inside t) (v : Byte) : s.Inside (t.withS v) :=
  ⟨h.A, h.X, h.Y, h.P, h.PC, h.cfg, h.cycles, h.bus⟩

theorem State.Inside.withBus {s t : State} (h : s.Inside t) {b : Bus} (k : t.bus.Follows b) : s.Inside (t.withBus b) :=
  ⟨h.A, h.X, h.Y, h.P, h.PC, h.cfg, h.cycles, h.bus.trans k⟩

/-- The bus fails an access of the kind at the address (R52). -/
def Bus.Fails (b : Bus) (k : BusErrorKind) (a : Addr) : Prop :=
  match k with
  | .invalidRead => (b.read a).1 = none
  | .invalidWrite => ∃ v, (b.write a v).1 = false

/-- The bus still fails no access after any access. -/
theorem State.BusAnswers.of_follows {s t : State} (h : s.BusAnswers) (hb : s.bus.Follows t.bus) : t.BusAnswers := by
  obtain ⟨more, hm⟩ := hb.log
  intro later a
  have hl : later ++ t.bus.log = (later ++ more) ++ s.bus.log := by rw [← hm, List.append_assoc]
  obtain ⟨h1, h2⟩ := h (later ++ more) a
  let b : Bus := { s.bus with log := (later ++ more) ++ s.bus.log }
  let c : Bus := { t.bus with log := later ++ t.bus.log }
  exact ⟨(Bus.read_succeeds_congr (b := b) (c := c) hb.noRead hb.device hl a).trans h1,
    fun v => (Bus.write_succeeds_congr (b := b) (c := c) hb.noWrite hb.device hl a v).trans (h2 v)⟩

/-- A bus that fails no access fails none now. -/
theorem State.BusAnswers.not_fails {s : State} (h : s.BusAnswers) (k : BusErrorKind) (a : Addr) : ¬ s.bus.Fails k a := by
  obtain ⟨h1, h2⟩ := h [] a
  simp only [List.nil_append] at h1 h2
  cases k with
  | invalidRead => exact fun hf => by simp [show (s.bus.read a).1 = none from hf] at h1
  | invalidWrite => rintro ⟨v, hv⟩; simp [h2 v] at hv

/-- A bus that fails no access answers a read. -/
theorem State.BusAnswers.read {s : State} (h : s.BusAnswers) (a : Addr) : ∃ v b, s.bus.read a = (some v, b) := by
  cases hr : s.bus.read a with
  | mk answer b =>
    cases answer with
    | some v => exact ⟨v, b, rfl⟩
    | none => exact absurd (show (s.bus.read a).1 = none by rw [hr]) (h.not_fails .invalidRead a)

/-- A bus that fails no access takes a write. -/
theorem State.BusAnswers.write {s : State} (h : s.BusAnswers) (a : Addr) (v : Byte) : ∃ b, s.bus.write a v = (true, b) := by
  cases hw : s.bus.write a v with
  | mk taken b =>
    cases taken with
    | true => exact ⟨b, rfl⟩
    | false => exact absurd ⟨v, by rw [hw]⟩ (h.not_fails .invalidWrite a)

/-- The error is a bus error, of an access that the bus fails in a state inside the instruction, and leaves a state inside the
instruction (R204, R205). -/
structure BusErrorInside (s : State) (e : Fault) : Prop where
  fails : ∃ t k a, s.Inside t ∧ t.bus.Fails k a ∧ e = .busError k a e.after
  after : s.Inside e.after

/-- On a bus that answers there is no bus error. -/
theorem BusErrorInside.absurd {s : State} {e : Fault} (h : s.BusAnswers) (k : BusErrorInside s e) : False := by
  obtain ⟨⟨t, x, a, hi, hf, -⟩, -⟩ := k
  exact (h.of_follows hi.bus).not_fails x a hf

theorem BusErrorInside.of_inside {s t : State} {e : Fault} (h : s.Inside t) (k : BusErrorInside t e) :
    BusErrorInside s e :=
  let ⟨⟨u, x, a, hi, hf, he⟩, ha⟩ := k
  ⟨⟨u, x, a, h.trans hi, hf, he⟩, h.trans ha⟩

theorem memRead_ends (a : Addr) (s : State) :
    Ends (memRead a s) (fun r => s.Inside r.2 ∧ r.2.S = s.S ∧ r.2.bus.ram = s.bus.ram) (BusErrorInside s) := by
  have h0 := State.Inside.refl s
  cases h : s.bus.read a with
  | mk answer b =>
    obtain ⟨h1, h2⟩ := Bus.read_leaves h
    cases answer with
    | none =>
      rw [memRead_of_none h]
      exact ⟨⟨s, .invalidRead, a, h0, by simp [Bus.Fails, h], rfl⟩, h0.withBus h2⟩
    | some v =>
      rw [memRead_of_some h]
      exact ⟨h0.withBus h2, rfl, h1⟩

theorem memWrite_ends (a : Addr) (v : Byte) (s : State) :
    Ends (memWrite a v s)
      (fun t => s.Inside t ∧ t.S = s.S ∧ ∀ a', a' ≠ a → t.byteAt a' = s.byteAt a') (BusErrorInside s) := by
  have h0 := State.Inside.refl s
  cases h : s.bus.write a v with
  | mk taken b =>
    obtain ⟨h1, h2⟩ := Bus.write_leaves h
    cases taken with
    | false =>
      rw [memWrite_of_failed h]
      exact ⟨⟨s, .invalidWrite, a, h0, ⟨v, by rw [h]⟩, rfl⟩, h0.withBus h1⟩
    | true =>
      rw [memWrite_of_taken h]
      exact ⟨h0.withBus h1, rfl, h2⟩

theorem push_ends (v : Byte) (s : State) :
    Ends (push v s)
      (fun t => s.Inside t ∧ t.S = s.S - 1 ∧ ∀ a, a ≠ stackAddr s.S → t.byteAt a = s.byteAt a) (BusErrorInside s) :=
  (memWrite_ends _ v s).andThen (fun _ => id) fun t ⟨h1, h2, h3⟩ => ⟨h1.withS _, by simp [h2], h3⟩

theorem pop_ends (s : State) :
    Ends (pop s) (fun r => s.Inside r.2 ∧ r.2.S = s.S + 1 ∧ r.2.bus.ram = s.bus.ram) (BusErrorInside s) :=
  have h0 : s.Inside (s.withS (s.S + 1)) := (State.Inside.refl s).withS _
  (memRead_ends _ _).mono (fun _ ⟨h1, h2, h3⟩ => ⟨h0.trans h1, h2, h3⟩) fun _ he => he.of_inside h0

theorem pushWord_ends (a : Addr) (s : State) :
    Ends (pushWord a s)
      (fun t => s.Inside t ∧ t.S = s.S - 1 - 1 ∧
        ∀ a', a' ≠ stackAddr s.S → a' ≠ stackAddr (s.S - 1) → t.byteAt a' = s.byteAt a') (BusErrorInside s) :=
  (push_ends _ s).andThen (fun _ => id) fun t ⟨h1, h2, h3⟩ =>
    (push_ends _ t).mono
      (fun u ⟨k1, k2, k3⟩ => ⟨h1.trans k1, by rw [k2, h2], fun a' n1 n2 => by
        rw [k3 a' (by rwa [h2]), h3 a' n1]⟩)
      fun _ he => he.of_inside h1

theorem popWord_ends (s : State) :
    Ends (popWord s) (fun r => s.Inside r.2 ∧ r.2.S = s.S + 1 + 1 ∧ r.2.bus.ram = s.bus.ram) (BusErrorInside s) :=
  (pop_ends s).andThen (fun _ => id) fun r ⟨h1, h2, h3⟩ =>
    (pop_ends r.2).andThen (fun _ he => he.of_inside h1) fun r' ⟨k1, k2, k3⟩ =>
      ⟨h1.trans k1, by simp [k2, h2], k3.trans h3⟩

theorem read16_ends (a : Addr) (s : State) :
    Ends (read16 a s) (fun r => s.Inside r.2 ∧ r.2.S = s.S ∧ r.2.bus.ram = s.bus.ram) (BusErrorInside s) :=
  (memRead_ends a s).andThen (fun _ => id) fun r ⟨h1, h2, h3⟩ =>
    (memRead_ends (a + 1) r.2).andThen (fun _ he => he.of_inside h1) fun _ ⟨k1, k2, k3⟩ =>
      ⟨h1.trans k1, k2.trans h2, k3.trans h3⟩

/-- Interrupt entry: S three lower, I set, PC from the vector, at most the three pushed bytes written (R215). -/
theorem enterInterrupt_ends (ret : Addr) (image : Byte) (vector : Addr) (s : State) :
    Ends (enterInterrupt ret image vector s)
      (fun t => (∃ u, s.Inside u ∧ t = (u.setFlag .I true).withPC t.PC) ∧ t.S = s.S - 1 - 1 - 1 ∧
        ∀ a, a ≠ stackAddr s.S → a ≠ stackAddr (s.S - 1) → a ≠ stackAddr (s.S - 1 - 1) → t.byteAt a = s.byteAt a)
      (BusErrorInside s) :=
  (pushWord_ends ret s).andThen (fun _ => id) fun s1 ⟨h1, h2, h3⟩ =>
    (push_ends image s1).andThen (fun _ he => he.of_inside h1) fun s2 ⟨k1, k2, k3⟩ =>
      (read16_ends vector s2).andThen (fun _ he => he.of_inside (h1.trans k1)) fun r ⟨l1, l2, l3⟩ =>
        ⟨⟨r.2, h1.trans (k1.trans l1), rfl⟩, by rw [← h2, ← k2, ← l2]; rfl, fun a n1 n2 n3 => by
          rw [show ((r.2.setFlag .I true).withPC r.1).byteAt a = s2.byteAt a from by
            simp only [State.withPC_byteAt, State.setFlag_eq, State.withP_byteAt]; simp only [State.byteAt, l3]]
          rw [k3 a (by rwa [h2]), h3 a n1 n2]⟩

/-- Return from interrupt: S three higher, P and PC from the stack, memory unchanged (R191). -/
theorem returnFromInterrupt_ends (s : State) :
    Ends (returnFromInterrupt s)
      (fun t => (∃ u p, s.Inside u ∧ t = (u.withP (restoredStatus p)).withPC t.PC) ∧ t.S = s.S + 1 + 1 + 1 ∧
        t.bus.ram = s.bus.ram) (BusErrorInside s) :=
  (pop_ends s).andThen (fun _ => id) fun r ⟨h1, h2, h3⟩ =>
    (popWord_ends r.2).andThen (fun _ he => he.of_inside h1) fun r' ⟨k1, k2, k3⟩ =>
      ⟨⟨r'.2, r.1, h1.trans k1, rfl⟩, by rw [← h2, ← k2]; rfl, k3.trans h3⟩

end Sys2Proof.Machine
end

