-- ==== Sys2Proof/Laws/Fetch.lean ====
section
/-! SUPPORT. Fetching an instruction: the bytes it reads, the instruction it answers and the state it leaves. -/

namespace Sys2Proof.Machine

/-- A state inside a fetch: only PC and what devices have seen differ from the start. -/
structure State.Fetching (s t : State) : Prop where
  inside : (s.withPC t.PC).Inside t
  S : t.S = s.S
  ram : t.bus.ram = s.bus.ram

theorem State.Fetching.refl (s : State) : s.Fetching s := ⟨State.Inside.refl s, rfl, rfl⟩

theorem State.Fetching.trans {s t u : State} (h : s.Fetching t) (k : t.Fetching u) : s.Fetching u :=
  ⟨⟨k.inside.A.trans h.inside.A, k.inside.X.trans h.inside.X, k.inside.Y.trans h.inside.Y,
    k.inside.P.trans h.inside.P, rfl, k.inside.cfg.trans h.inside.cfg,
    k.inside.cycles.trans h.inside.cycles, h.inside.bus.trans k.inside.bus⟩, k.S.trans h.S, k.ram.trans h.ram⟩

/-- The error of a fetch: a failing read, at the byte PC points at. -/
structure FetchError (s : State) (e : Fault) : Prop where
  error : e = .busError .invalidRead e.after.PC e.after
  fails : ∃ t, s.Fetching t ∧ t.bus.Fails .invalidRead e.after.PC
  after : s.Fetching e.after

theorem FetchError.of_fetching {s t : State} {e : Fault} (h : s.Fetching t) (k : FetchError t e) : FetchError s e :=
  let ⟨he, ⟨u, hu, hf⟩, ha⟩ := k
  ⟨he, ⟨u, h.trans hu, hf⟩, h.trans ha⟩

/-- One instruction-stream byte: one read at PC, then PC one higher (R15). -/
theorem fetchByte_of_some {s : State} {v : Byte} {b : Bus} (h : s.bus.read s.PC = (some v, b)) :
    fetchByte s = .next (v, (s.withBus b).withPC (s.PC + 1)) := by
  simp [fetchByte, memRead_of_some h]

theorem fetchByte_of_none {s : State} {b : Bus} (h : s.bus.read s.PC = (none, b)) :
    fetchByte s = .fault (.busError .invalidRead s.PC (s.withBus b)) := by
  simp [fetchByte, memRead_of_none h]

theorem fetchByte_ends (s : State) :
    Ends (fetchByte s) (fun r => s.Fetching r.2 ∧ r.2.PC = s.PC + 1) (FetchError s) := by
  cases h : s.bus.read s.PC with
  | mk answer b =>
    obtain ⟨h1, h2⟩ := Bus.read_leaves h
    cases answer with
    | none =>
      rw [fetchByte_of_none h]
      exact ⟨rfl, ⟨s, State.Fetching.refl s, by simp [Bus.Fails, Fault.after, h]⟩,
        ⟨⟨rfl, rfl, rfl, rfl, rfl, rfl, rfl, h2⟩, rfl, h1⟩⟩
    | some v =>
      rw [fetchByte_of_some h]
      exact ⟨⟨⟨rfl, rfl, rfl, rfl, rfl, rfl, rfl, h2⟩, rfl, h1⟩, rfl⟩

/-- An instruction made of bytes is well-formed. -/
theorem instrOf_wellFormed (c b1 b2 : Byte) : (instrOf c b1 b2).WellFormed := by
  unfold instrOf
  split
  · next h =>
    exact List.contains_iff_mem.mpr ((rowOfOpcode_eq_none c).mp h)
  · next r h =>
    exact (build_facts r.mnemonic _ (by rw [operandOf_mode]; exact (row_facts (rowOfOpcode_some h).1).2.2.1)).2.2.1

/-- An instruction made of bytes is unimplemented exactly where its opcode byte has no row. -/
theorem instrOf_eq_unimplemented {c b1 b2 d : Byte} (h : instrOf c b1 b2 = .unimplemented d) :
    d = c ∧ c ∈ unassignedOpcodes := by
  unfold instrOf at h
  split at h
  · next hr =>
    simp only [Instr.unimplemented.injEq] at h
    exact ⟨h.symm, (rowOfOpcode_eq_none c).mp hr⟩
  · next r hr =>
    refine absurd h ((build_facts r.mnemonic _ ?_).2.2.2 d)
    rw [operandOf_mode]
    exact (row_facts (rowOfOpcode_some hr).1).2.2.1

/-- A fetch answers a well-formed instruction and changes only PC, or ends in a failing read. -/
theorem fetchInstr_ends (s : State) :
    Ends (fetchInstr s) (fun r => (∃ c b1 b2, r.1 = instrOf c b1 b2) ∧ s.Fetching r.2) (FetchError s) := by
  refine (fetchByte_ends s).andThen (fun _ => id) fun r0 ⟨h0, _⟩ => ?_
  obtain ⟨c, s1⟩ := r0
  simp only
  split
  · exact ⟨⟨c, 0, 0, rfl⟩, h0⟩
  · exact (fetchByte_ends s1).andThen (fun _ he => he.of_fetching h0) fun r1 ⟨h1, _⟩ => ⟨⟨c, r1.1, 0, rfl⟩, h0.trans h1⟩
  · refine (fetchByte_ends s1).andThen (fun _ he => he.of_fetching h0) fun r1 ⟨h1, _⟩ => ?_
    exact (fetchByte_ends r1.2).andThen (fun _ he => he.of_fetching (h0.trans h1)) fun r2 ⟨h2, _⟩ =>
      ⟨⟨c, r1.1, r2.1, rfl⟩, (h0.trans h1).trans h2⟩

end Sys2Proof.Machine
end

