-- ==== Sys2Proof/Laws/Operands.lean ====
section
/-! SUPPORT. What the resolver and the operand helpers can do. -/

namespace Sys2Proof.Machine

/-- The shape the resolver gives each mode (R71). -/
def Resolved.hasShapeOf (op : Resolved) : Mode → Prop
  | .implied => op = .none
  | .accumulator | .immediate => ∃ v, op = .byte v
  | .zeropage | .zeropageXIndex | .zeropageYIndex | .absolute | .indirect | .xIndexIndirect => ∃ a, op = .address a
  | .absoluteXIndex | .absoluteYIndex | .indirectYIndex | .relative => ∃ a c, op = .addressWithOverflow a c

theorem readZeroPagePointer_ends (t : Byte) (s : State) :
    Ends (readZeroPagePointer t s) (fun r => s.Inside r.2 ∧ r.2.S = s.S ∧ r.2.bus.ram = s.bus.ram) (BusErrorInside s) :=
  (memRead_ends _ s).andThen (fun _ => id) fun r ⟨h1, h2, h3⟩ =>
    (memRead_ends _ r.2).andThen (fun _ he => he.of_inside h1) fun _ ⟨k1, k2, k3⟩ =>
      ⟨h1.trans k1, k2.trans h2, k3.trans h3⟩

theorem readIndirect_ends (ptr : Addr) (s : State) :
    Ends (readIndirect ptr s) (fun r => s.Inside r.2 ∧ r.2.S = s.S ∧ r.2.bus.ram = s.bus.ram) (BusErrorInside s) :=
  (memRead_ends ptr s).andThen (fun _ => id) fun r ⟨h1, h2, h3⟩ =>
    (memRead_ends _ r.2).andThen (fun _ he => he.of_inside h1) fun _ ⟨k1, k2, k3⟩ =>
      ⟨h1.trans k1, k2.trans h2, k3.trans h3⟩

/-! Where a pointer read fails (R71, R206: the low byte before the high byte). -/

theorem readZeroPagePointer_low_fails {t : Byte} {s : State} {b : Bus} (h : s.bus.read (zeroPage t) = (none, b)) :
    readZeroPagePointer t s = .fault (.busError .invalidRead (zeroPage t) (s.withBus b)) := by
  simp only [readZeroPagePointer, memRead_of_none h, andThen_fault]

theorem readZeroPagePointer_high_fails {t lo : Byte} {s : State} {b1 b2 : Bus}
    (h1 : s.bus.read (zeroPage t) = (some lo, b1)) (h2 : b1.read (zeroPage (t + 1)) = (none, b2)) :
    readZeroPagePointer t s = .fault (.busError .invalidRead (zeroPage (t + 1)) (s.withBus b2)) := by
  simp only [readZeroPagePointer, memRead_of_some h1, andThen_next]
  simp only [memRead_of_none (s := s.withBus b1) h2, andThen_fault]
  rfl

theorem readIndirect_low_fails {ptr : Addr} {s : State} {b : Bus} (h : s.bus.read ptr = (none, b)) :
    readIndirect ptr s = .fault (.busError .invalidRead ptr (s.withBus b)) := by
  simp only [readIndirect, memRead_of_none h, andThen_fault]

theorem readIndirect_high_fails {ptr : Addr} {lo : Byte} {s : State} {b1 b2 : Bus}
    (h1 : s.bus.read ptr = (some lo, b1)) (h2 : b1.read (pointerHighAddr s.cfg ptr) = (none, b2)) :
    readIndirect ptr s = .fault (.busError .invalidRead (pointerHighAddr s.cfg ptr) (s.withBus b2)) := by
  simp only [readIndirect, memRead_of_some h1, andThen_next]
  have h2' : (s.withBus b1).bus.read (pointerHighAddr (s.withBus b1).cfg ptr) = (none, b2) := h2
  simp only [memRead_of_none h2', andThen_fault]
  rfl

/-- The resolver reads the bus at most, gives the mode's shape, and ends in no error but a bus error. -/
theorem resolve_ends (o : Operand) (s : State) :
    Ends (resolve o s)
      (fun r => s.Inside r.2 ∧ r.2.S = s.S ∧ r.2.bus.ram = s.bus.ram ∧ r.1.hasShapeOf o.mode) (BusErrorInside s) := by
  have h0 := State.Inside.refl s
  cases o with
  | indirect a =>
    exact (readIndirect_ends a s).andThen (fun _ => id) fun r ⟨h1, h2, h3⟩ => ⟨h1, h2, h3, _, rfl⟩
  | xIndexIndirect b =>
    exact (readZeroPagePointer_ends _ s).andThen (fun _ => id) fun r ⟨h1, h2, h3⟩ => ⟨h1, h2, h3, _, rfl⟩
  | indirectYIndex b =>
    exact (readZeroPagePointer_ends _ s).andThen (fun _ => id) fun r ⟨h1, h2, h3⟩ => ⟨h1, h2, h3, _, _, rfl⟩
  | implied => exact ⟨h0, rfl, rfl, rfl⟩
  | accumulator | immediate b | zeropage b | zeropageXIndex b | zeropageYIndex b | absolute a =>
    exact ⟨h0, rfl, rfl, _, rfl⟩
  | absoluteXIndex a | absoluteYIndex a | relative d => exact ⟨h0, rfl, rfl, _, _, rfl⟩

/-- The error is one the instruction can raise: a bus error, or the shape of the operand refused. -/
def ErrorInside (s : State) (e : Fault) : Prop :=
  BusErrorInside s e ∨ (∃ t, e = .addressingModeError t) ∧ s.Inside e.after

theorem ErrorInside.of_inside {s t : State} {e : Fault} (h : s.Inside t) (k : ErrorInside t e) : ErrorInside s e :=
  k.elim (fun k => .inl (k.of_inside h)) fun k => .inr ⟨k.1, h.trans k.2⟩

theorem ErrorInside.after {s : State} {e : Fault} (h : ErrorInside s e) : s.Inside e.after :=
  h.elim (·.2) (·.2)

/-- Given any shape but None, the operand's value is one read at most. -/
theorem operandValue_ends_bus {op : Resolved} (h : op ≠ .none) (s : State) :
    Ends (operandValue op s) (fun r => s.Inside r.2 ∧ r.2.S = s.S ∧ r.2.bus.ram = s.bus.ram) (BusErrorInside s) := by
  cases op with
  | byte v => exact ⟨State.Inside.refl s, rfl, rfl⟩
  | address a => exact memRead_ends a s
  | addressWithOverflow a c => exact memRead_ends a s
  | none => exact absurd rfl h

theorem operandValue_ends (op : Resolved) (s : State) :
    Ends (operandValue op s) (fun r => s.Inside r.2 ∧ r.2.S = s.S ∧ r.2.bus.ram = s.bus.ram) (ErrorInside s) := by
  by_cases h : op = .none
  · subst h; exact .inr ⟨⟨_, rfl⟩, State.Inside.refl s⟩
  · exact (operandValue_ends_bus h s).mono (fun _ => id) fun _ => .inl

theorem operandAddress_ends (op : Resolved) (s : State) :
    Ends (operandAddress op s) (fun a => op = .address a ∨ ∃ c, op = .addressWithOverflow a c)
      (fun e => (∃ v, op = .byte v) ∧ e = .addressingModeError s ∨ op = .none ∧ e = .addressingModeError s) := by
  cases op with
  | byte v => exact .inl ⟨⟨v, rfl⟩, rfl⟩
  | address a => exact .inl rfl
  | addressWithOverflow a c => exact .inr ⟨c, rfl⟩
  | none => exact .inr ⟨rfl, rfl⟩

end Sys2Proof.Machine
end

