-- ==== Sys2Proof/Laws/Handlers.lean ====
section
/-! SUPPORT. For each shape of handler: what it answers once its accesses are known (`…_of`), and everything it can do
(`…_ends`). -/

namespace Sys2Proof.Machine

variable {m : Mnemonic} {o : Operand} {s s1 s2 : State} {op : Resolved}

/-! What `finish` leaves: it writes the cycle count alone. -/

section Finish

variable (m : Mnemonic) (o : Operand) (n : Nat) (s : State)

@[simp] theorem finish_A : (finish m o n s).A = s.A := rfl
@[simp] theorem finish_X : (finish m o n s).X = s.X := rfl
@[simp] theorem finish_Y : (finish m o n s).Y = s.Y := rfl
@[simp] theorem finish_S : (finish m o n s).S = s.S := rfl
@[simp] theorem finish_P : (finish m o n s).P = s.P := rfl
@[simp] theorem finish_PC : (finish m o n s).PC = s.PC := rfl
@[simp] theorem finish_bus : (finish m o n s).bus = s.bus := rfl
@[simp] theorem finish_cfg : (finish m o n s).cfg = s.cfg := rfl
@[simp] theorem finish_cycles : (finish m o n s).cycles = baseCycles m o.mode + n := rfl
@[simp] theorem finish_flag (f : Flag) : (finish m o n s).flag f = s.flag f := rfl
@[simp] theorem finish_byteAt (a : Addr) : (finish m o n s).byteAt a = s.byteAt a := rfl

end Finish

/-! Frames. -/

/-- A state inside an instruction that has S and the memory of the start: nothing but the device log differs. -/
structure State.OnlyRead (s u : State) : Prop where
  inside : s.Inside u
  S : u.S = s.S
  ram : u.bus.ram = s.bus.ram

theorem State.OnlyRead.refl (s : State) : s.OnlyRead s := ⟨State.Inside.refl s, rfl, rfl⟩

theorem State.OnlyRead.flag {s u : State} (h : s.OnlyRead u) (f : Flag) : u.flag f = s.flag f := by
  simp [State.flag, h.inside.P]

theorem State.OnlyRead.byteAt {s u : State} (h : s.OnlyRead u) (a : Addr) : u.byteAt a = s.byteAt a := by
  simp [State.byteAt, h.ram]

theorem resolve_onlyRead (h : resolve o s = .next (op, s1)) : s.OnlyRead s1 := by
  obtain ⟨h1, h2, h3, _⟩ := (resolve_ends o s).next h
  exact ⟨h1, h2, h3⟩

theorem operandValue_onlyRead {v : Byte} (h1 : resolve o s = .next (op, s1)) (h2 : operandValue op s1 = .next (v, s2)) :
    s.OnlyRead s2 := by
  have h := resolve_onlyRead h1
  obtain ⟨k1, k2, k3⟩ := (operandValue_ends op s1).next h2
  exact ⟨h.inside.trans k1, k2.trans h.S, k3.trans h.ram⟩

/-- The frame of an end state whose bus and configuration are those of a state inside the instruction. -/
theorem State.Frame.of_inside {regs : List Reg} {flags : List Flag} {stored : List Addr} {s u t : State}
    (h : s.Inside u) (hb : t.bus = u.bus) (hc : t.cfg = u.cfg) (hr : ∀ r, r ∉ regs → t.reg r = s.reg r)
    (hf : ∀ f, f ∉ flags → t.flag f = s.flag f) (hm : ∀ a, a ∉ stored → t.byteAt a = s.byteAt a) :
    State.Frame regs flags stored s t :=
  ⟨hr, hf, hm, hc.trans h.cfg, by rw [hb, h.bus.noRead], by rw [hb, h.bus.noWrite], by rw [hb, h.bus.device]⟩

/-! Once the accesses are known. -/

theorem readHandler_of {extra : Resolved → Nat} {use : Byte → State → State} {v : Byte}
    (h1 : resolve o s = .next (op, s1)) (h2 : operandValue op s1 = .next (v, s2)) :
    readHandler m extra use o s = .next (finish m o (extra op) (use v s2)) := by
  simp only [readHandler, h1, andThen_next, h2]

theorem storeHandler_of {value : State → Byte} {a : Addr} {b : Bus}
    (h1 : resolve o s = .next (op, s1)) (h2 : operandAddress op s1 = .next a)
    (h3 : s1.bus.write a (value s1) = (true, b)) :
    storeHandler m value o s = .next (finish m o 0 (s1.withBus b)) := by
  simp only [storeHandler, h1, andThen_next, h2, memWrite_of_taken h3]

theorem modifyMemory_of {result : Byte → State → Byte} {flags : Byte → State → State} {a : Addr} {v : Byte}
    {b1 b2 : Bus} (h1 : operandAddress op s = .next a) (h2 : s.bus.read a = (some v, b1))
    (h3 : b1.write a (result v (s.withBus b1)) = (true, b2)) :
    modifyMemory result flags op s = .next (flags v ((s.withBus b1).withBus b2)) := by
  simp only [modifyMemory, h1, andThen_next, memRead_of_some h2]
  simp only [memWrite_of_taken (s := s.withBus b1) h3, andThen_next]

/-- The Accumulator form of a shift, in every state. -/
theorem shiftHandler_accumulator (f : Byte → Bool → Shifted) :
    shiftHandler m f .accumulator s =
      .next (finish m .accumulator 0 ((s.withA (f s.A (s.flag .C)).result).withP (setShiftFlags (f s.A (s.flag .C)) s.P))) := by
  simp [shiftHandler, resolve, Operand.mode]

/-- A memory form of a shift: one read, one write. -/
theorem shiftHandler_memory {f : Byte → Bool → Shifted} {a : Addr} {v : Byte} {b1 b2 : Bus}
    (h0 : resolve o s = .next (op, s1)) (h1 : operandAddress op s1 = .next a) (h2 : s1.bus.read a = (some v, b1))
    (h3 : b1.write a (f v (s1.flag .C)).result = (true, b2)) :
    shiftHandler m f o s =
      .next (finish m o 0 ((s1.withBus b2).withP (setShiftFlags (f v (s1.flag .C)) s1.P))) := by
  have hm : o.mode ≠ .accumulator := by
    intro hm
    cases o <;> simp [Operand.mode] at hm
    simp only [resolve, Host.Outcome.next.injEq, Prod.mk.injEq] at h0
    obtain ⟨rfl, rfl⟩ := h0
    simp [operandAddress] at h1
  simp only [shiftHandler, h0, andThen_next, hm, if_false]
  rw [andThen_of_next (modifyMemory_of h1 h2 h3)]
  rfl

theorem incDecHandler_of {f : Byte → Byte} {a : Addr} {v : Byte} {b1 b2 : Bus}
    (h0 : resolve o s = .next (op, s1)) (h1 : operandAddress op s1 = .next a) (h2 : s1.bus.read a = (some v, b1))
    (h3 : b1.write a (f v) = (true, b2)) :
    incDecHandler m f o s = .next (finish m o 0 ((s1.withBus b2).withP (setNZ (f v) s1.P))) := by
  simp only [incDecHandler, h0, andThen_next]
  rw [andThen_of_next (modifyMemory_of h1 h2 h3)]
  rfl

theorem branchHandler_relative {cond : Byte → Bool} (d : Byte) :
    branchHandler m cond (.relative d) s =
      if cond s.P then
        .next (finish m (.relative d)
          (if hiByte (s.PC + d.signExtend 16) != hiByte s.PC then 2 else 1) (s.withPC (s.PC + d.signExtend 16)))
      else .next (finish m (.relative d) 0 s) := by
  simp [branchHandler, resolve, relativeTarget]

/-- An error of the resolver ends every instruction with that operand (R71: "each read failure propagates as a bus error"). -/
theorem exec_of_resolve_fault {i : Instr} {e : Fault} (h : resolve i.operand s = .fault e) : exec i s = .fault e := by
  have hx : ∀ {β : Type} (f : Resolved × State → Res β), andThen (resolve i.operand s) f = .fault e := fun f => by
    rw [h, andThen_fault]
  cases i
  case lda | ldx | ldy | adc | sbc | and | eor | ora | cmp | cpx | cpy | bit | sta | stx | sty | asl | lsr | rol | ror | inc
    | dec | bcc | bcs | beq | bmi | bne | bpl | bvc | bvs | jmp | jsr => exact hx _
  all_goals simp [Instr.operand, resolve] at h

/-! How a handler ends in an error, once the resolver has answered. -/

theorem readHandler_errors {i : Instr} {extra : Resolved → Nat} {use : Byte → State → State}
    (hi : exec i s = readHandler m extra use o s) (h0 : resolve o s = .next (op, s1)) : ReadErrors i op s s1 := by
  refine ⟨fun a b ha hr => ?_, fun ho => ?_⟩
  · have hv : operandValue op s1 = .fault (.busError .invalidRead a (s1.withBus b)) := by
      cases op <;> simp only [operandAddress, Host.Outcome.next.injEq, reduceCtorEq] at ha
      · subst ha; exact memRead_of_none hr
      · subst ha; exact memRead_of_none hr
    simp only [hi, readHandler, h0, andThen_next, hv, andThen_fault]
    rfl
  · subst ho
    simp only [hi, readHandler, h0, andThen_next, operandValue, andThen_fault]

theorem operandAddress_of_no_address (h : ∀ a, operandAddress op s ≠ .next a) :
    operandAddress op s = .fault (.addressingModeError s) := by
  cases op with
  | byte v => rfl
  | none => rfl
  | address a => exact absurd rfl (h a)
  | addressWithOverflow a c => exact absurd rfl (h a)

theorem storeHandler_errors {i : Instr} {value : State → Byte} (hi : exec i s = storeHandler m value o s)
    (h0 : resolve o s = .next (op, s1)) : StoreErrors i (value s1) op s s1 := by
  refine ⟨fun a b ha hw => ?_, fun ho => ?_⟩
  · simp only [hi, storeHandler, h0, andThen_next, ha, memWrite_of_failed hw, andThen_fault]
    rfl
  · simp only [hi, storeHandler, h0, andThen_next, operandAddress_of_no_address ho, andThen_fault]

/-- For the handlers that end in a read-modify-write of memory. -/
theorem modifyMemory_errors {i : Instr} {result : Byte → State → Byte} {flags : Byte → State → State} {f : State → Res State}
    {isResult : Byte → Byte → Prop} (hi : exec i s = andThen (modifyMemory result flags op s1) f)
    (hresult : ∀ v r b, isResult v r → r = result v (s1.withBus b)) : ModifyErrors i isResult op s s1 := by
  refine ⟨fun a b ha hr => ?_, fun a v r b b' ha hr hvr hw => ?_, fun ho => ?_⟩
  · simp only [hi, modifyMemory, ha, andThen_next, memRead_of_none hr, andThen_fault]
    rfl
  · rw [hresult v r b hvr] at hw
    simp only [hi, modifyMemory, ha, andThen_next, memRead_of_some hr]
    simp only [memWrite_of_failed (s := s1.withBus b) hw, andThen_fault]
    rfl
  · simp only [hi, modifyMemory, operandAddress_of_no_address ho, andThen_fault]

/-! Everything a handler can do. -/

theorem readHandler_ends (extra : Resolved → Nat) (use : Byte → State → State) :
    Ends (readHandler m extra use o s)
      (fun t => ∃ op v u, s.Inside u ∧ u.S = s.S ∧ u.bus.ram = s.bus.ram ∧ op.hasShapeOf o.mode ∧
        t = finish m o (extra op) (use v u)) (ErrorInside s) :=
  (resolve_ends o s).andThen (fun _ => .inl) fun r ⟨h1, h2, h3, h4⟩ =>
    (operandValue_ends r.1 r.2).andThen (fun _ he => he.of_inside h1) fun r' ⟨k1, k2, k3⟩ =>
      ⟨r.1, r'.1, r'.2, h1.trans k1, k2.trans h2, k3.trans h3, h4, rfl⟩

theorem operandAddress_ends_error (op : Resolved) (s : State) :
    Ends (operandAddress op s) (fun a => op = .address a ∨ ∃ c, op = .addressWithOverflow a c) (ErrorInside s) :=
  (operandAddress_ends op s).mono (fun _ => id) fun e he => by
    have he' : e = .addressingModeError s := he.elim (·.2) (·.2)
    subst he'
    exact .inr ⟨⟨s, rfl⟩, State.Inside.refl s⟩

theorem storeHandler_ends (value : State → Byte) :
    Ends (storeHandler m value o s) (fun t => ∃ u, s.Inside u ∧ u.S = s.S ∧ t = finish m o 0 u) (ErrorInside s) :=
  (resolve_ends o s).andThen (fun _ => .inl) fun r ⟨h1, h2, _, _⟩ =>
    (operandAddress_ends_error r.1 r.2).andThen (fun _ he => he.of_inside h1) fun a _ =>
      (memWrite_ends a (value r.2) r.2).andThen (fun _ he => .inl (he.of_inside h1)) fun u ⟨k1, k2, _⟩ =>
        ⟨u, h1.trans k1, k2.trans h2, rfl⟩

theorem modifyMemory_ends (result : Byte → State → Byte) (flags : Byte → State → State) :
    Ends (modifyMemory result flags op s) (fun t => ∃ v u, s.Inside u ∧ u.S = s.S ∧ t = flags v u) (ErrorInside s) :=
  (operandAddress_ends_error op s).andThen (fun _ => id) fun a _ =>
    (memRead_ends a s).andThen (fun _ => .inl) fun r ⟨h1, h2, _⟩ =>
      (memWrite_ends a (result r.1 r.2) r.2).andThen (fun _ he => .inl (he.of_inside h1)) fun u ⟨k1, k2, _⟩ =>
        ⟨r.1, u, h1.trans k1, k2.trans h2, rfl⟩

/-- A shift writes P, and A in the Accumulator mode alone. -/
theorem shiftHandler_ends (f : Byte → Bool → Shifted) :
    Ends (shiftHandler m f o s)
      (fun t => ∃ u r, s.Inside u ∧ u.S = s.S ∧
        (t = finish m o 0 (u.withP (setShiftFlags r s.P)) ∨
          o = .accumulator ∧ t = finish m o 0 ((u.withA r.result).withP (setShiftFlags r s.P)))) (ErrorInside s) := by
  by_cases ho : o = .accumulator
  · subst ho
    rw [shiftHandler_accumulator]
    exact ⟨s, _, State.Inside.refl s, rfl, .inr ⟨rfl, rfl⟩⟩
  · have hm : o.mode ≠ .accumulator := by cases o <;> simp_all [Operand.mode]
    refine (resolve_ends o s).andThen (fun _ => .inl) fun r ⟨h1, h2, _, _⟩ => ?_
    simp only [hm, if_false]
    refine (modifyMemory_ends _ _).andThen (fun _ he => he.of_inside h1) fun t ⟨v, u, k1, k2, k3⟩ => ?_
    subst k3
    exact ⟨u, _, h1.trans k1, k2.trans h2, .inl (by rw [(h1.trans k1).P])⟩

theorem incDecHandler_ends (f : Byte → Byte) :
    Ends (incDecHandler m f o s)
      (fun t => ∃ u r, s.Inside u ∧ u.S = s.S ∧ t = finish m o 0 (u.withP (setNZ r s.P))) (ErrorInside s) :=
  (resolve_ends o s).andThen (fun _ => .inl) fun _ ⟨h1, h2, _, _⟩ =>
    (modifyMemory_ends _ _).andThen (fun _ he => he.of_inside h1) fun _ ⟨v, u, k1, k2, k3⟩ =>
      ⟨u, f v, h1.trans k1, k2.trans h2, by simp only [k3, (h1.trans k1).P]⟩

/-- A branch writes PC alone; at most 2 extra cycles. -/
theorem branchHandler_ends (cond : Byte → Bool) :
    Ends (branchHandler m cond o s)
      (fun t => ∃ u n, n ≤ 2 ∧ s.Inside u ∧ u.S = s.S ∧ t = finish m o n (u.withPC t.PC)) (ErrorInside s) := by
  refine (resolve_ends o s).andThen (fun _ => .inl) fun r ⟨h1, h2, _, _⟩ => ?_
  obtain ⟨op, u⟩ := r
  cases op with
  | addressWithOverflow a c =>
    simp only
    split
    · exact ⟨u, _, by split <;> omega, h1, h2, rfl⟩
    · exact ⟨u, _, by omega, h1, h2, rfl⟩
  | byte v => exact .inr ⟨⟨u, rfl⟩, h1⟩
  | address a => exact .inr ⟨⟨u, rfl⟩, h1⟩
  | none => exact .inr ⟨⟨u, rfl⟩, h1⟩

/-! With an operand in one of the handler's modes there is no error but a bus error (R92). -/

theorem Resolved.hasShapeOf.ne_none {op : Resolved} {mode : Mode} (h : op.hasShapeOf mode) (hm : mode ≠ .implied) :
    op ≠ .none := by
  rintro rfl
  cases mode <;> simp [Resolved.hasShapeOf] at h hm

/-- The modes that give an address. -/
def givesAddress (mode : Mode) : Bool := ! [Mode.implied, .accumulator, .immediate].contains mode

theorem Resolved.hasShapeOf.address {op : Resolved} {mode : Mode} (h : op.hasShapeOf mode) (hm : givesAddress mode = true)
    (s : State) : ∃ a, operandAddress op s = .next a := by
  cases mode <;> simp [Resolved.hasShapeOf, givesAddress] at h hm
  all_goals first
    | (obtain ⟨a, rfl⟩ := h; exact ⟨a, rfl⟩)
    | (rcases h with ⟨a, rfl | rfl⟩ <;> exact ⟨a, rfl⟩)

theorem readHandler_ends_bus (extra : Resolved → Nat) (use : Byte → State → State) (hm : o.mode ≠ .implied) :
    Ends (readHandler m extra use o s) (fun _ => True) (BusErrorInside s) :=
  (resolve_ends o s).andThen (fun _ => id) fun r ⟨h1, _, _, h4⟩ =>
    (operandValue_ends_bus (h4.ne_none hm) r.2).andThen (fun _ he => he.of_inside h1) fun _ _ => trivial

theorem storeHandler_ends_bus (value : State → Byte) (hm : givesAddress o.mode = true) :
    Ends (storeHandler m value o s) (fun _ => True) (BusErrorInside s) :=
  (resolve_ends o s).andThen (fun _ => id) fun r ⟨h1, _, _, h4⟩ => by
    obtain ⟨a, ha⟩ := h4.address hm r.2
    simp only [ha, andThen_next]
    exact (memWrite_ends a (value r.2) r.2).andThen (fun _ he => he.of_inside h1) fun _ _ => trivial

theorem modifyMemory_ends_bus (result : Byte → State → Byte) (flags : Byte → State → State) {mode : Mode}
    (h : op.hasShapeOf mode) (hm : givesAddress mode = true) :
    Ends (modifyMemory result flags op s) (fun _ => True) (BusErrorInside s) := by
  obtain ⟨a, ha⟩ := h.address hm s
  simp only [modifyMemory, ha, andThen_next]
  exact (memRead_ends a s).andThen (fun _ => id) fun r ⟨h1, _⟩ =>
    (memWrite_ends a (result r.1 r.2) r.2).andThen (fun _ he => he.of_inside h1) fun _ _ => trivial

theorem shiftHandler_ends_bus (f : Byte → Bool → Shifted) (hm : o.mode = .accumulator ∨ givesAddress o.mode = true) :
    Ends (shiftHandler m f o s) (fun _ => True) (BusErrorInside s) :=
  (resolve_ends o s).andThen (fun _ => id) fun r ⟨h1, _, _, h4⟩ => by
    by_cases ho : o.mode = .accumulator
    · simp only [ho, if_true]; exact trivial
    · simp only [ho, if_false]
      exact (modifyMemory_ends_bus _ _ h4 (hm.resolve_left ho)).andThen (fun _ he => he.of_inside h1) fun _ _ => trivial

theorem incDecHandler_ends_bus (f : Byte → Byte) (hm : givesAddress o.mode = true) :
    Ends (incDecHandler m f o s) (fun _ => True) (BusErrorInside s) :=
  (resolve_ends o s).andThen (fun _ => id) fun _ ⟨h1, _, _, h4⟩ =>
    (modifyMemory_ends_bus _ _ h4 hm).andThen (fun _ he => he.of_inside h1) fun _ _ => trivial

end Sys2Proof.Machine
end

