-- ==== Sys2Proof/Laws/PerInstr.lean ====
section
/-! SUPPORT. Per-instruction laws: for each family one statement about an instruction as syntax, and one lemma per
constructor. -/

/-! The encoding of a well-formed instruction has the length its addressing mode gives it (30_encoding.md R86), and its first
byte alone gives that length (R70). -/

namespace Sys2Proof.Laws.EncodedLength

open Sys2Proof

/-- What is said of each instruction. -/
def Statement (i : Instr) : Prop :=
  i.WellFormed → ∃ opcode rest, encode i = opcode :: rest ∧ rest.length = i.operand.mode.operandBytes ∧
    operandBytesOf opcode = i.operand.mode.operandBytes

/-- The operand bytes of an operand are as many as its mode says (R71). -/
theorem operand_bytes_length (o : Operand) : o.bytes.length = o.mode.operandBytes := by cases o <;> rfl

/-- Each mode of a handler has a row, whose opcode takes the mode's operand bytes. -/
theorem rows_of_modes (m : Mnemonic) : m.modes.all (fun mode =>
    (rowOfForm m mode).any (fun r => operandBytesOf r.opcode == mode.operandBytes)) = true := by
  cases m <;> decide

/-- A handler in one of its modes has a row, and that row's opcode takes the mode's operand bytes. -/
theorem row_of_form (m : Mnemonic) (mode : Mode) (h : m.modes.contains mode = true) :
    ∃ r, rowOfForm m mode = some r ∧ operandBytesOf r.opcode = mode.operandBytes := by
  simpa [Option.any_eq_true] using List.all_eq_true.mp (rows_of_modes m) mode (List.contains_iff_mem.mp h)

/-- The statement for an instruction with a handler, from its row. -/
theorem of_mnemonic {i : Instr} {m : Mnemonic}
    (he : encode i = match rowOfForm m i.operand.mode with | none => [] | some r => r.opcode :: i.operand.bytes)
    (hw : i.wellFormed = m.modes.contains i.operand.mode) : Statement i := by
  intro h
  obtain ⟨r, hr, hb⟩ := row_of_form m i.operand.mode (hw ▸ h)
  exact ⟨r.opcode, i.operand.bytes, by rw [he, hr], operand_bytes_length _, hb⟩

theorem lda (o : Operand) : Statement (.lda o) := of_mnemonic (m := .lda) rfl rfl
theorem ldx (o : Operand) : Statement (.ldx o) := of_mnemonic (m := .ldx) rfl rfl
theorem ldy (o : Operand) : Statement (.ldy o) := of_mnemonic (m := .ldy) rfl rfl
theorem sta (o : Operand) : Statement (.sta o) := of_mnemonic (m := .sta) rfl rfl
theorem stx (o : Operand) : Statement (.stx o) := of_mnemonic (m := .stx) rfl rfl
theorem sty (o : Operand) : Statement (.sty o) := of_mnemonic (m := .sty) rfl rfl
theorem tax : Statement .tax := of_mnemonic (m := .tax) rfl rfl
theorem tay : Statement .tay := of_mnemonic (m := .tay) rfl rfl
theorem tsx : Statement .tsx := of_mnemonic (m := .tsx) rfl rfl
theorem txa : Statement .txa := of_mnemonic (m := .txa) rfl rfl
theorem txs : Statement .txs := of_mnemonic (m := .txs) rfl rfl
theorem tya : Statement .tya := of_mnemonic (m := .tya) rfl rfl
theorem adc (o : Operand) : Statement (.adc o) := of_mnemonic (m := .adc) rfl rfl
theorem sbc (o : Operand) : Statement (.sbc o) := of_mnemonic (m := .sbc) rfl rfl
theorem and (o : Operand) : Statement (.and o) := of_mnemonic (m := .and) rfl rfl
theorem eor (o : Operand) : Statement (.eor o) := of_mnemonic (m := .eor) rfl rfl
theorem ora (o : Operand) : Statement (.ora o) := of_mnemonic (m := .ora) rfl rfl
theorem asl (o : Operand) : Statement (.asl o) := of_mnemonic (m := .asl) rfl rfl
theorem lsr (o : Operand) : Statement (.lsr o) := of_mnemonic (m := .lsr) rfl rfl
theorem rol (o : Operand) : Statement (.rol o) := of_mnemonic (m := .rol) rfl rfl
theorem ror (o : Operand) : Statement (.ror o) := of_mnemonic (m := .ror) rfl rfl
theorem inc (o : Operand) : Statement (.inc o) := of_mnemonic (m := .inc) rfl rfl
theorem dec (o : Operand) : Statement (.dec o) := of_mnemonic (m := .dec) rfl rfl
theorem inx : Statement .inx := of_mnemonic (m := .inx) rfl rfl
theorem iny : Statement .iny := of_mnemonic (m := .iny) rfl rfl
theorem dex : Statement .dex := of_mnemonic (m := .dex) rfl rfl
theorem dey : Statement .dey := of_mnemonic (m := .dey) rfl rfl
theorem cmp (o : Operand) : Statement (.cmp o) := of_mnemonic (m := .cmp) rfl rfl
theorem cpx (o : Operand) : Statement (.cpx o) := of_mnemonic (m := .cpx) rfl rfl
theorem cpy (o : Operand) : Statement (.cpy o) := of_mnemonic (m := .cpy) rfl rfl
theorem bcc (o : Operand) : Statement (.bcc o) := of_mnemonic (m := .bcc) rfl rfl
theorem bcs (o : Operand) : Statement (.bcs o) := of_mnemonic (m := .bcs) rfl rfl
theorem beq (o : Operand) : Statement (.beq o) := of_mnemonic (m := .beq) rfl rfl
theorem bmi (o : Operand) : Statement (.bmi o) := of_mnemonic (m := .bmi) rfl rfl
theorem bne (o : Operand) : Statement (.bne o) := of_mnemonic (m := .bne) rfl rfl
theorem bpl (o : Operand) : Statement (.bpl o) := of_mnemonic (m := .bpl) rfl rfl
theorem bvc (o : Operand) : Statement (.bvc o) := of_mnemonic (m := .bvc) rfl rfl
theorem bvs (o : Operand) : Statement (.bvs o) := of_mnemonic (m := .bvs) rfl rfl
theorem jmp (o : Operand) : Statement (.jmp o) := of_mnemonic (m := .jmp) rfl rfl
theorem jsr (o : Operand) : Statement (.jsr o) := of_mnemonic (m := .jsr) rfl rfl
theorem rts : Statement .rts := of_mnemonic (m := .rts) rfl rfl
theorem pha : Statement .pha := of_mnemonic (m := .pha) rfl rfl
theorem php : Statement .php := of_mnemonic (m := .php) rfl rfl
theorem pla : Statement .pla := of_mnemonic (m := .pla) rfl rfl
theorem plp : Statement .plp := of_mnemonic (m := .plp) rfl rfl
theorem clc : Statement .clc := of_mnemonic (m := .clc) rfl rfl
theorem cld : Statement .cld := of_mnemonic (m := .cld) rfl rfl
theorem cli : Statement .cli := of_mnemonic (m := .cli) rfl rfl
theorem clv : Statement .clv := of_mnemonic (m := .clv) rfl rfl
theorem sec : Statement .sec := of_mnemonic (m := .sec) rfl rfl
theorem sed : Statement .sed := of_mnemonic (m := .sed) rfl rfl
theorem sei : Statement .sei := of_mnemonic (m := .sei) rfl rfl
theorem brk : Statement .brk := of_mnemonic (m := .brk) rfl rfl
theorem rti : Statement .rti := of_mnemonic (m := .rti) rfl rfl
theorem nop : Statement .nop := of_mnemonic (m := .nop) rfl rfl
theorem bit (o : Operand) : Statement (.bit o) := of_mnemonic (m := .bit) rfl rfl
/-- An unassigned byte is an instruction of its own, of one byte (R194). -/
theorem unimplemented (opcode : Byte) : Statement (.unimplemented opcode) := fun h =>
  have hall : unassignedOpcodes.all (fun c => operandBytesOf c == 0) = true := by decide
  have hop := List.all_eq_true.mp hall opcode (List.contains_iff_mem.mp h)
  ⟨opcode, [], rfl, rfl, (by simpa using hop : operandBytesOf opcode = 0)⟩

end Sys2Proof.Laws.EncodedLength
end

