-- ==== Sys2Proof/Tests/Slice0.lean ====
section
/-! SUPPORT. The model's own tests. Each expected value is the spec's: a row V<n> of 95_test_vectors.md, an "Operands:" or
"Encoding:" line of files 40–45, or R89. After them, for each obligation with hypotheses, a witness that meets them. -/

namespace Sys2Proof.Tests

open Sys2Proof.Machine

/-! ## Helpers -/

/-- The reset state with the registers and the memory bytes of a test. -/
def start (pc : Addr) (a x y sp p : Byte) (cells : List (Addr × Byte)) : State :=
  { State.reset with
    PC := pc, A := a, X := x, Y := y, S := sp, P := p
    bus := { Bus.ramBus with ram := cells.foldl (fun m c => m.write c.1.toNat c.2) [] } }

/-- A state whose bus fails the given ranges (R52). -/
def failing (noRead noWrite : List AddrRange) (s : State) : State :=
  s.withBus { s.bus with noRead := noRead, noWrite := noWrite }

/-- A state whose bus has a device at the given ranges (R60). -/
def withDevice (device : List AddrRange) (s : State) : State := s.withBus { s.bus with device := device }

/-- A state with JMP_INDIRECT_PAGE_WRAP (R8). -/
def pageWrap (s : State) : State := { s with cfg := { jmpIndirectPageWrap := true } }

/-- The call answers with a state that meets the test. -/
def answers (r : Res State) (p : State → Bool) : Bool :=
  match r with
  | .next t => p t
  | .fault _ | .refused _ => false

/-- The call ends in the error, which leaves a state that meets the test. -/
def stops (r : Res State) (e : State → Fault) (p : State → Bool) : Bool :=
  match r with
  | .fault f => f == e f.after && p f.after
  | .next _ | .refused _ => false

/-- The bytes decode to the instruction, with nothing left over, and encode to the bytes. -/
def isWord (bytes : List Byte) (i : Instr) : Bool :=
  match decode bytes with
  | .ok (j, []) => j == i && encode i == bytes
  | .ok _ | .error _ => false

/-! ## Well-formedness: an ill-formed term for each check -/

theorem test_wellFormed_accepts :
    [Instr.lda (.indirectYIndex 0x40), .sta (.zeropage 0x10), .stx (.zeropageYIndex 0xFF), .asl .accumulator,
      .jmp (.indirect 0x30FF), .bne (.relative 0xFE), .brk, .unimplemented 0x02, .unimplemented 0xFF].all
      Instr.wellFormed = true := by decide

/-- A store has no Immediate form (R103). -/
theorem test_wellFormed_store_immediate : (Instr.sta (.immediate 0x00)).wellFormed = false := by decide
/-- LDX has no X-indexed form (R101). -/
theorem test_wellFormed_ldx_by_x : (Instr.ldx (.absoluteXIndex 0x1234)).wellFormed = false := by decide
/-- LDA has no Y-indexed zero-page form (R100). -/
theorem test_wellFormed_lda_zero_page_y : (Instr.lda (.zeropageYIndex 0x10)).wellFormed = false := by decide
/-- INC has no Accumulator form (R134). -/
theorem test_wellFormed_inc_accumulator : (Instr.inc .accumulator).wellFormed = false := by decide
/-- JSR has no Indirect form (R163). -/
theorem test_wellFormed_jsr_indirect : (Instr.jsr (.indirect 0x1234)).wellFormed = false := by decide
/-- A branch has the Relative form alone (R153). -/
theorem test_wellFormed_branch_absolute : (Instr.bcc (.absolute 0x1234)).wellFormed = false := by decide
/-- An assigned byte is not an unimplemented one (R89). -/
theorem test_wellFormed_unimplemented_nop : (Instr.unimplemented 0xEA).wellFormed = false := by decide
/-- R89 counts 105 unassigned bytes, so 151 are assigned (R88). -/
theorem test_unassigned_count : unassignedOpcodes.length = 105 ∧ dispatchTable.length = 151 := ⟨rfl, rfl⟩

/-! ## Decoding: for every constructor a word written out from the "Encoding:" line of its rule -/

/-- R100–R102: A9 the first of LDA, BE the last of LDX, A4 the second of LDY, in the order of their operand lines. -/
theorem test_decode_loads :
    (isWord [0b10101001, 0x80] (.lda (.immediate 0x80)) && isWord [0b10110001, 0x40] (.lda (.indirectYIndex 0x40)) &&
      isWord [0b10111110, 0x01, 0x20] (.ldx (.absoluteYIndex 0x2001)) && isWord [0b10100100, 0x10] (.ldy (.zeropage 0x10)))
      = true := by decide
/-- R103–R105. -/
theorem test_decode_stores :
    (isWord [0b10000001, 0x20] (.sta (.xIndexIndirect 0x20)) && isWord [0b10010110, 0xFF] (.stx (.zeropageYIndex 0xFF)) &&
      isWord [0b10001100, 0x00, 0x30] (.sty (.absolute 0x3000))) = true := by decide
/-- R106–R111: AA, A8, BA, 8A, 9A, 98. -/
theorem test_decode_transfers :
    (isWord [0b10101010] .tax && isWord [0b10101000] .tay && isWord [0b10111010] .tsx && isWord [0b10001010] .txa &&
      isWord [0b10011010] .txs && isWord [0b10011000] .tya) = true := by decide
/-- R120–R124: 7D, E9, 31, 45, 0D. -/
theorem test_decode_arithmetic :
    (isWord [0b01111101, 0x80, 0x10] (.adc (.absoluteXIndex 0x1080)) && isWord [0b11101001, 0x30] (.sbc (.immediate 0x30)) &&
      isWord [0b00110001, 0x10] (.and (.indirectYIndex 0x10)) && isWord [0b01000101, 0x20] (.eor (.zeropage 0x20)) &&
      isWord [0b00001101, 0x34, 0x12] (.ora (.absolute 0x1234))) = true := by decide
/-- R130–R135: 0A, 56, 2E, 7E, E6, D6. -/
theorem test_decode_shifts_and_increments :
    (isWord [0b00001010] (.asl .accumulator) && isWord [0b01010110, 0x10] (.lsr (.zeropageXIndex 0x10)) &&
      isWord [0b00101110, 0x00, 0x30] (.rol (.absolute 0x3000)) &&
      isWord [0b01111110, 0x00, 0x30] (.ror (.absoluteXIndex 0x3000)) && isWord [0b11100110, 0x10] (.inc (.zeropage 0x10)) &&
      isWord [0b11010110, 0x10] (.dec (.zeropageXIndex 0x10))) = true := by decide
/-- R136–R139: E8, C8, CA, 88. -/
theorem test_decode_register_increments :
    (isWord [0b11101000] .inx && isWord [0b11001000] .iny && isWord [0b11001010] .dex && isWord [0b10001000] .dey)
      = true := by decide
/-- R150–R152, R193: D9, EC, C0, 24. -/
theorem test_decode_compares :
    (isWord [0b11011001, 0xF5, 0x10] (.cmp (.absoluteYIndex 0x10F5)) && isWord [0b11101100, 0x00, 0x20] (.cpx (.absolute 0x2000))
      && isWord [0b11000000, 0x01] (.cpy (.immediate 0x01)) && isWord [0b00100100, 0x40] (.bit (.zeropage 0x40)))
      = true := by decide
/-- R154–R161: 90, B0, F0, 30, D0, 10, 50, 70. -/
theorem test_decode_branches :
    (isWord [0b10010000, 0x7F] (.bcc (.relative 0x7F)) && isWord [0b10110000, 0x80] (.bcs (.relative 0x80)) &&
      isWord [0b11110000, 0xFC] (.beq (.relative 0xFC)) && isWord [0b00110000, 0x80] (.bmi (.relative 0x80)) &&
      isWord [0b11010000, 0x10] (.bne (.relative 0x10)) && isWord [0b00010000, 0x02] (.bpl (.relative 0x02)) &&
      isWord [0b01010000, 0x02] (.bvc (.relative 0x02)) && isWord [0b01110000, 0x02] (.bvs (.relative 0x02)))
      = true := by decide
/-- R162–R164: 4C, 6C, 20, 60. -/
theorem test_decode_jumps :
    (isWord [0b01001100, 0x34, 0x12] (.jmp (.absolute 0x1234)) && isWord [0b01101100, 0xFF, 0x10] (.jmp (.indirect 0x10FF)) &&
      isWord [0b00100000, 0x00, 0x07] (.jsr (.absolute 0x0700)) && isWord [0b01100000] .rts) = true := by decide
/-- R170–R180: 48, 08, 68, 28, 18, D8, 58, B8, 38, F8, 78. -/
theorem test_decode_stack_and_flags :
    (isWord [0b01001000] .pha && isWord [0b00001000] .php && isWord [0b01101000] .pla && isWord [0b00101000] .plp &&
      isWord [0b00011000] .clc && isWord [0b11011000] .cld && isWord [0b01011000] .cli && isWord [0b10111000] .clv &&
      isWord [0b00111000] .sec && isWord [0b11111000] .sed && isWord [0b01111000] .sei) = true := by decide
/-- R190–R192, R194: 00, 40, EA; 02 is unassigned (R89). -/
theorem test_decode_interrupt_and_misc :
    (isWord [0b00000000] .brk && isWord [0b01000000] .rti && isWord [0b11101010] .nop &&
      isWord [0b00000010] (.unimplemented 0x02)) = true := by decide
/-- Bytes that end inside an instruction are refused by name. -/
theorem test_decode_truncated : decode [0x4C, 0x34] = .error (.truncated 0x4C) ∧ decode [] = .error .noOpcode := ⟨rfl, rfl⟩
/-- The table's numbering: the opcode in bits 7..0, bits above `nbits` zero. -/
theorem test_decode_table_word :
    decodeTableWord 24 0x30016C = some (.jmp (.indirect 0x3001)) ∧ decodeTableWord 8 0xEE = some (.inc (.absolute 0x0000)) := by
  decide

/-! ## One step: vectors of 95_test_vectors.md -/

/-- V7: R100 LDA abs,X crossing +1. -/
theorem test_lda_crossing_adds_a_cycle :
    answers (step (start 0x0200 0x00 0x01 0x00 0xFF 0x20 [(0x1300, 0x03), (0x0200, 0xBD), (0x0201, 0xFF), (0x0202,
      0x12)])) (fun t => t.A == 0x03 && t.PC == 0x0203 && t.cycles == 5) = true := by decide

/-- V10: R100 LDA (zp,X) pointer at 0xFF wraps to 0x00. -/
theorem test_lda_pointer_wraps_in_zero_page :
    answers (step (start 0x0200 0x00 0x00 0x00 0xFF 0x20 [(0x0000, 0x40), (0x4000, 0x5A), (0x0200, 0xA1), (0x0201,
      0xFF)])) (fun t => t.A == 0x5A && t.PC == 0x0202 && t.cycles == 6) = true := by decide

/-- V14: R101 LDX zp,Y wraps. -/
theorem test_ldx_indexed_by_y_wraps_in_zero_page :
    answers (step (start 0x0200 0x00 0x00 0x01 0xFF 0x20 [(0x0000, 0x80), (0x0200, 0xB6), (0x0201, 0xFF)])) (fun t =>
      t.X == 0x80 && t.P == 0xA0 && t.PC == 0x0202 && t.cycles == 4) = true := by decide

/-- V16: R102 LDY abs,X. -/
theorem test_ldy_sets_negative :
    answers (step (start 0x0200 0x00 0x05 0x00 0xFF 0x20 [(0x2005, 0xFE), (0x0200, 0xBC), (0x0202, 0x20)])) (fun t =>
      t.Y == 0xFE && t.P == 0xA0 && t.PC == 0x0203 && t.cycles == 4) = true := by decide

/-- V17: R103 STA abs,Y crossing, no extra. -/
theorem test_sta_crossing_adds_no_cycle :
    answers (step (start 0x0200 0x66 0x00 0x01 0xFF 0x20 [(0x0200, 0x99), (0x0201, 0xFF), (0x0202, 0x20)])) (fun t =>
      t.PC == 0x0203 && t.byteAt 0x2100 == 0x66 && t.P == 0x20 && t.cycles == 5) = true := by decide

/-- V29: R103 bus error on store. -/
theorem test_sta_bus_error :
    stops (step (failing [] [⟨0xC000, 0xC000⟩] (start 0x0200 0x12 0x00 0x00 0xFF 0x20 [(0x0200, 0x8D), (0x0202,
      0xC0)]))) (fun t => .busError .invalidWrite 0xC000 t) (fun t => t.PC == 0x0203) = true := by decide

/-- V20: R104 STX zp,Y. -/
theorem test_stx_zero_page_y :
    answers (step (start 0x0200 0x00 0x9A 0x02 0xFF 0x20 [(0x0200, 0x96), (0x0201, 0xFF)])) (fun t => t.PC == 0x0202 &&
      t.byteAt 0x0001 == 0x9A && t.cycles == 4) = true := by decide

/-- V21: R105 STY abs. -/
theorem test_sty_absolute :
    answers (step (start 0x0200 0x00 0x00 0x01 0xFF 0x20 [(0x0200, 0x8C), (0x0202, 0x30)])) (fun t => t.PC == 0x0203 &&
      t.byteAt 0x3000 == 0x01 && t.cycles == 4) = true := by decide

/-- V22: R106 TAX zero. -/
theorem test_tax_zero :
    answers (step (start 0x0200 0x00 0x33 0x00 0xFF 0x20 [(0x0200, 0xAA)])) (fun t => t.X == 0x00 && t.P == 0x22 &&
      t.PC == 0x0201 && t.cycles == 2) = true := by decide

/-- V23: R107 TAY negative. -/
theorem test_tay_negative :
    answers (step (start 0x0200 0x90 0x00 0x00 0xFF 0x20 [(0x0200, 0xA8)])) (fun t => t.Y == 0x90 && t.P == 0xA0 &&
      t.PC == 0x0201 && t.cycles == 2) = true := by decide

/-- V24: R108 TSX. -/
theorem test_tsx_sets_flags :
    answers (step (start 0x0200 0x00 0x00 0x00 0xFD 0x20 [(0x0200, 0xBA)])) (fun t => t.X == 0xFD && t.P == 0xA0 &&
      t.PC == 0x0201 && t.cycles == 2) = true := by decide

/-- V25: R109 TXA. -/
theorem test_txa_clears_negative :
    answers (step (start 0x0200 0x80 0x01 0x00 0xFF 0xA0 [(0x0200, 0x8A)])) (fun t => t.A == 0x01 && t.P == 0x20 &&
      t.PC == 0x0201 && t.cycles == 2) = true := by decide

/-- V26: R110 TXS sets no flag. -/
theorem test_txs_sets_no_flag :
    answers (step (start 0x0200 0x00 0x00 0x00 0xFF 0x20 [(0x0200, 0x9A)])) (fun t => t.S == 0x00 && t.PC == 0x0201 &&
      t.P == 0x20 && t.cycles == 2) = true := by decide

/-- V27: R111 TYA. -/
theorem test_tya :
    answers (step (start 0x0200 0x00 0x00 0xFF 0xFF 0x20 [(0x0200, 0x98)])) (fun t => t.A == 0xFF && t.P == 0xA0 &&
      t.PC == 0x0201 && t.cycles == 2) = true := by decide

/-- V33: R120 ADC 0xFF with carry in adds 0x100. -/
theorem test_adc_carry_in_of_0xff :
    answers (step (start 0x0200 0x37 0x00 0x00 0xFF 0x21 [(0x0200, 0x69), (0x0201, 0xFF)])) (fun t => t.PC == 0x0202 &&
      t.A == 0x37 && t.P == 0x21 && t.cycles == 2) = true := by decide

/-- V35: R120 ADC with D=1 stays binary. -/
theorem test_adc_ignores_decimal :
    answers (step (start 0x0200 0x09 0x00 0x00 0xFF 0x28 [(0x0200, 0x69), (0x0201, 0x01)])) (fun t => t.A == 0x0A &&
      t.PC == 0x0202 && t.P == 0x28 && t.cycles == 2) = true := by decide

/-- V39: R121 SBC with borrow in (C=0). -/
theorem test_sbc_borrow_in :
    answers (step (start 0x0200 0x05 0x00 0x00 0xFF 0x20 [(0x0200, 0xE9), (0x0201, 0x02)])) (fun t => t.A == 0x02 &&
      t.P == 0x21 && t.PC == 0x0202 && t.cycles == 2) = true := by decide

/-- V40: R121 SBC overflow. -/
theorem test_sbc_overflow :
    answers (step (start 0x0200 0x50 0x00 0x00 0xFF 0x21 [(0x0200, 0xE9), (0x0201, 0xB0)])) (fun t => t.A == 0xA0 &&
      t.P == 0xE0 && t.PC == 0x0202 && t.cycles == 2) = true := by decide

/-- V44: R122 AND (zp),Y crossing. -/
theorem test_and_indirect_y_crossing :
    answers (step (start 0x0200 0xFF 0x00 0x01 0xFF 0x20 [(0x0010, 0xFF), (0x0011, 0x20), (0x2100, 0x81), (0x0200,
      0x31), (0x0201, 0x10)])) (fun t => t.A == 0x81 && t.P == 0xA0 && t.PC == 0x0202 && t.cycles == 6) = true := by
      decide

/-- V45: R123 EOR #FF inverts. -/
theorem test_eor_inverts :
    answers (step (start 0x0200 0x0F 0x00 0x00 0xFF 0x20 [(0x0200, 0x49), (0x0201, 0xFF)])) (fun t => t.A == 0xF0 &&
      t.P == 0xA0 && t.PC == 0x0202 && t.cycles == 2) = true := by decide

/-- V47: R124 ORA keeps C and V. -/
theorem test_ora_keeps_carry_and_overflow :
    answers (step (start 0x0200 0x00 0x00 0x00 0xFF 0x61 [(0x0200, 0x09)])) (fun t => t.P == 0x63 && t.PC == 0x0202 &&
      t.A == 0x00 && t.cycles == 2) = true := by decide

/-- V49: R130 ASL A bit 7 to C, zero. -/
theorem test_asl_accumulator :
    answers (step (start 0x0200 0x80 0x00 0x00 0xFF 0x20 [(0x0200, 0x0A)])) (fun t => t.A == 0x00 && t.P == 0x23 &&
      t.PC == 0x0201 && t.cycles == 2) = true := by decide

/-- V51: R130 ASL abs,X crossing, no extra. -/
theorem test_asl_crossing_adds_no_cycle :
    answers (step (start 0x0200 0x00 0x01 0x00 0xFF 0x20 [(0x1100, 0x01), (0x0200, 0x1E), (0x0201, 0xFF), (0x0202,
      0x10)])) (fun t => t.PC == 0x0203 && t.byteAt 0x1100 == 0x02 && t.cycles == 7) = true := by decide

/-- V52: R131 LSR A bit 0 to C, N cleared. -/
theorem test_lsr_clears_negative :
    answers (step (start 0x0200 0x01 0x00 0x00 0xFF 0xA0 [(0x0200, 0x4A)])) (fun t => t.A == 0x00 && t.P == 0x23 &&
      t.PC == 0x0201 && t.cycles == 2) = true := by decide

/-- V53: R131 LSR zp,X. -/
theorem test_lsr_memory :
    answers (step (start 0x0200 0x00 0x01 0x00 0xFF 0x20 [(0x0011, 0xFF), (0x0200, 0x56), (0x0201, 0x10)])) (fun t =>
      t.P == 0x21 && t.PC == 0x0202 && t.byteAt 0x0011 == 0x7F && t.cycles == 6) = true := by decide

/-- V54: R132 ROL A carry in. -/
theorem test_rol_carry_in :
    answers (step (start 0x0200 0x40 0x00 0x00 0xFF 0x21 [(0x0200, 0x2A)])) (fun t => t.A == 0x81 && t.P == 0xA0 &&
      t.PC == 0x0201 && t.cycles == 2) = true := by decide

/-- V55: R132 ROL abs carry out. -/
theorem test_rol_memory_carry_out :
    answers (step (start 0x0200 0x00 0x00 0x00 0xFF 0x20 [(0x3000, 0x80), (0x0200, 0x2E), (0x0202, 0x30)])) (fun t =>
      t.P == 0x23 && t.PC == 0x0203 && t.byteAt 0x3000 == 0x00 && t.cycles == 6) = true := by decide

/-- V56: R133 ROR A carry in to bit 7. -/
theorem test_ror_carry_in :
    answers (step (start 0x0200 0x00 0x00 0x00 0xFF 0x21 [(0x0200, 0x6A)])) (fun t => t.A == 0x80 && t.P == 0xA0 &&
      t.PC == 0x0201 && t.cycles == 2) = true := by decide

/-- V57: R133 ROR zp carry out. -/
theorem test_ror_memory_carry_out :
    answers (step (start 0x0200 0x00 0x00 0x00 0xFF 0x20 [(0x0010, 0x01), (0x0200, 0x66), (0x0201, 0x10)])) (fun t =>
      t.P == 0x23 && t.PC == 0x0202 && t.byteAt 0x0010 == 0x00 && t.cycles == 5) = true := by decide

/-- V59: R134 INC keeps C. -/
theorem test_inc_keeps_carry :
    answers (step (start 0x0200 0x00 0x00 0x00 0xFF 0x21 [(0x2000, 0x7F), (0x0200, 0xEE), (0x0202, 0x20)])) (fun t =>
      t.P == 0xA1 && t.PC == 0x0203 && t.byteAt 0x2000 == 0x80 && t.cycles == 6) = true := by decide

/-- V66: R134 INC write fails. -/
theorem test_inc_write_fails :
    stops (step (failing [] [⟨0x0010, 0x0010⟩] (start 0x0200 0x00 0x00 0x00 0xFF 0x20 [(0x0010, 0x05), (0x0200, 0xE6),
      (0x0201, 0x10)]))) (fun t => .busError .invalidWrite 0x0010 t) (fun t => t.PC == 0x0202) = true := by decide

/-- V60: R135 DEC wraps to 0xFF. -/
theorem test_dec_wraps :
    answers (step (start 0x0200 0x00 0x00 0x00 0xFF 0x20 [(0x0200, 0xC6), (0x0201, 0x10)])) (fun t => t.P == 0xA0 &&
      t.PC == 0x0202 && t.byteAt 0x0010 == 0xFF && t.cycles == 5) = true := by decide

/-- V62: R136 INX wraps. -/
theorem test_inx_wraps :
    answers (step (start 0x0200 0x00 0xFF 0x00 0xFF 0x20 [(0x0200, 0xE8)])) (fun t => t.X == 0x00 && t.P == 0x22 &&
      t.PC == 0x0201 && t.cycles == 2) = true := by decide

/-- V63: R137 INY negative. -/
theorem test_iny_negative :
    answers (step (start 0x0200 0x00 0x00 0x7F 0xFF 0x20 [(0x0200, 0xC8)])) (fun t => t.Y == 0x80 && t.P == 0xA0 &&
      t.PC == 0x0201 && t.cycles == 2) = true := by decide

/-- V64: R138 DEX to zero. -/
theorem test_dex_zero :
    answers (step (start 0x0200 0x00 0x01 0x00 0xFF 0x20 [(0x0200, 0xCA)])) (fun t => t.X == 0x00 && t.P == 0x22 &&
      t.PC == 0x0201 && t.cycles == 2) = true := by decide

/-- V65: R139 DEY wraps. -/
theorem test_dey_wraps :
    answers (step (start 0x0200 0x00 0x00 0x00 0xFF 0x20 [(0x0200, 0x88)])) (fun t => t.Y == 0xFF && t.P == 0xA0 &&
      t.PC == 0x0201 && t.cycles == 2) = true := by decide

/-- V70: R150 CMP unsigned: 0x01 vs 0xFF. -/
theorem test_cmp_is_unsigned :
    answers (step (start 0x0200 0x01 0x00 0x00 0xFF 0x20 [(0x0200, 0xC9), (0x0201, 0xFF)])) (fun t => t.PC == 0x0202 &&
      t.P == 0x20 && t.cycles == 2) = true := by decide

/-- V71: R150 CMP abs,Y crossing +1. -/
theorem test_cmp_crossing_adds_a_cycle :
    answers (step (start 0x0200 0x05 0x00 0x10 0xFF 0x20 [(0x1105, 0x05), (0x0200, 0xD9), (0x0201, 0xF5), (0x0202,
      0x10)])) (fun t => t.P == 0x23 && t.PC == 0x0203 && t.cycles == 5) = true := by decide

/-- V72: R151 CPX zp. -/
theorem test_cpx_equal :
    answers (step (start 0x0200 0x00 0x00 0x00 0xFF 0x20 [(0x0200, 0xE4), (0x0201, 0x10)])) (fun t => t.P == 0x23 &&
      t.PC == 0x0202 && t.cycles == 3) = true := by decide

/-- V73: R152 CPY imm greater, N set. -/
theorem test_cpy_greater :
    answers (step (start 0x0200 0x00 0x00 0xFF 0xFF 0x20 [(0x0200, 0xC0), (0x0201, 0x01)])) (fun t => t.P == 0xA1 &&
      t.PC == 0x0202 && t.cycles == 2) = true := by decide

/-- V74: R158 BNE not taken. -/
theorem test_bne_not_taken :
    answers (step (start 0x0200 0x00 0x00 0x00 0xFF 0x22 [(0x0200, 0xD0), (0x0201, 0x10)])) (fun t => t.PC == 0x0202 &&
      t.cycles == 2) = true := by decide

/-- V76: R158 BNE taken forward across page. -/
theorem test_bne_taken_to_another_page :
    answers (step (start 0x02F0 0x00 0x00 0x00 0xFF 0x20 [(0x02F0, 0xD0), (0x02F1, 0x10)])) (fun t => t.PC == 0x0302 &&
      t.cycles == 4) = true := by decide

/-- V77: R156 BEQ taken backward across page. -/
theorem test_beq_taken_backward :
    answers (step (start 0x0300 0x00 0x00 0x00 0xFF 0x22 [(0x0300, 0xF0), (0x0301, 0xFC)])) (fun t => t.PC == 0x02FE &&
      t.cycles == 4) = true := by decide

/-- V79: R154 BCC taken. -/
theorem test_bcc_taken :
    answers (step (start 0x0200 0x00 0x00 0x00 0xFF 0x20 [(0x0200, 0x90), (0x0201, 0x7F)])) (fun t => t.PC == 0x0281 &&
      t.cycles == 3) = true := by decide

/-- V85: R155 branch target wraps past 0xFFFF. -/
theorem test_bcs_target_wraps :
    answers (step (start 0xFFF0 0x00 0x00 0x00 0xFF 0x21 [(0xFFF0, 0xB0), (0xFFF1, 0x10)])) (fun t => t.PC == 0x0002 &&
      t.cycles == 4) = true := by decide

/-- V81: R157 BMI taken -128. -/
theorem test_bmi_taken_back_128 :
    answers (step (start 0x0280 0x00 0x00 0x00 0xFF 0xA0 [(0x0280, 0x30), (0x0281, 0x80)])) (fun t => t.PC == 0x0202 &&
      t.cycles == 3) = true := by decide

/-- V82: R159 BPL taken. -/
theorem test_bpl_taken :
    answers (step (start 0x0200 0x00 0x00 0x00 0xFF 0x20 [(0x0200, 0x10), (0x0201, 0x02)])) (fun t => t.PC == 0x0204 &&
      t.cycles == 3) = true := by decide

/-- V83: R160 BVC not taken. -/
theorem test_bvc_not_taken :
    answers (step (start 0x0200 0x00 0x00 0x00 0xFF 0x60 [(0x0200, 0x50), (0x0201, 0x02)])) (fun t => t.PC == 0x0202 &&
      t.cycles == 2) = true := by decide

/-- V84: R161 BVS taken. -/
theorem test_bvs_taken :
    answers (step (start 0x0200 0x00 0x00 0x00 0xFF 0x60 [(0x0200, 0x70), (0x0201, 0x02)])) (fun t => t.PC == 0x0204 &&
      t.cycles == 3) = true := by decide

/-- V88: R162 JMP ($10FF) default. -/
theorem test_jmp_indirect_next_address :
    answers (step (start 0x0200 0x00 0x00 0x00 0xFF 0x20 [(0x10FF, 0x34), (0x1100, 0x12), (0x1000, 0x56), (0x0200,
      0x6C), (0x0201, 0xFF), (0x0202, 0x10)])) (fun t => t.PC == 0x1234 && t.cycles == 5) = true := by decide

/-- V89: R162 JMP ($10FF) with erratum. -/
theorem test_jmp_indirect_page_wrap :
    answers (step (pageWrap (start 0x0200 0x00 0x00 0x00 0xFF 0x20 [(0x10FF, 0x34), (0x1100, 0x12), (0x1000, 0x56),
      (0x0200, 0x6C), (0x0201, 0xFF), (0x0202, 0x10)]))) (fun t => t.PC == 0x5634 && t.cycles == 5) = true := by decide

/-- V91: R163 JSR with S=0x00 wraps. -/
theorem test_jsr_wraps_the_stack :
    answers (step (start 0x0600 0x00 0x00 0x00 0x00 0x20 [(0x0600, 0x20), (0x0602, 0x07)])) (fun t => t.S == 0xFE &&
      t.PC == 0x0700 && t.byteAt 0x0100 == 0x06 && t.byteAt 0x01FF == 0x02 && t.cycles == 6) = true := by decide

/-- V92: R163 JSR second push fails. -/
theorem test_jsr_second_push_fails :
    stops (step (failing [] [⟨0x01FE, 0x01FE⟩] (start 0x0600 0x00 0x00 0x00 0xFF 0x20 [(0x0600, 0x20), (0x0602,
      0x07)]))) (fun t => .busError .invalidWrite 0x01FE t) (fun t => t.S == 0xFE && t.PC == 0x0603 && t.byteAt 0x01FF
      == 0x06) = true := by decide

/-- V94: R164 RTS of 0xFFFF returns to 0x0000. -/
theorem test_rts_adds_one_modulo_65536 :
    answers (step (start 0x0200 0x00 0x00 0x00 0xFD 0x20 [(0x01FE, 0xFF), (0x01FF, 0xFF), (0x0200, 0x60)])) (fun t =>
      t.S == 0xFF && t.PC == 0x0000 && t.cycles == 6) = true := by decide

/-- V95: R164 RTS with S=0xFF wraps. -/
theorem test_rts_wraps_the_stack :
    answers (step (start 0x0200 0x00 0x00 0x00 0xFF 0x20 [(0x0100, 0x10), (0x0101, 0x20), (0x0200, 0x60)])) (fun t =>
      t.S == 0x01 && t.PC == 0x2011 && t.cycles == 6) = true := by decide

/-- V97: R170 PHA with S=0 wraps. -/
theorem test_pha_wraps_the_stack :
    answers (step (start 0x0200 0x3C 0x00 0x00 0x00 0x20 [(0x0200, 0x48)])) (fun t => t.S == 0xFF && t.PC == 0x0201 &&
      t.byteAt 0x0100 == 0x3C && t.cycles == 3) = true := by decide

/-- V98: R171 PHP forces B and U in image. -/
theorem test_php_image_has_break :
    answers (step (start 0x0200 0x00 0x00 0x00 0xFF 0x21 [(0x0200, 0x08)])) (fun t => t.S == 0xFE && t.PC == 0x0201 &&
      t.byteAt 0x01FF == 0x31 && t.cycles == 3) = true := by decide

/-- V101: R172 PLA with S=0xFF wraps. -/
theorem test_pla_wraps_the_stack :
    answers (step (start 0x0200 0x00 0x00 0x00 0xFF 0x20 [(0x0100, 0x80), (0x0200, 0x68)])) (fun t => t.A == 0x80 &&
      t.S == 0x00 && t.P == 0xA0 && t.PC == 0x0201 && t.cycles == 4) = true := by decide

/-- V104: R172 PLA read fails. -/
theorem test_pla_read_fails :
    stops (step (failing [⟨0x01FF, 0x01FF⟩] [] (start 0x0200 0x00 0x00 0x00 0xFE 0x20 [(0x0200, 0x68)]))) (fun t =>
      .busError .invalidRead 0x01FF t) (fun t => t.S == 0xFF && t.PC == 0x0201) = true := by decide

/-- V102: R173 PLP of 0x00 gives 0x30. -/
theorem test_plp_forces_break_and_unused :
    answers (step (start 0x0200 0x00 0x00 0x00 0xFE 0xE7 [(0x0200, 0x28)])) (fun t => t.S == 0xFF && t.P == 0x30 &&
      t.PC == 0x0201 && t.cycles == 4) = true := by decide

/-- V105: R174 CLC. -/
theorem test_clc :
    answers (step (start 0x0200 0x00 0x00 0x00 0xFF 0x21 [(0x0200, 0x18)])) (fun t => t.P == 0x20 && t.PC == 0x0201 &&
      t.cycles == 2) = true := by decide

/-- V106: R175 CLD. -/
theorem test_cld :
    answers (step (start 0x0200 0x00 0x00 0x00 0xFF 0x28 [(0x0200, 0xD8)])) (fun t => t.P == 0x20 && t.PC == 0x0201 &&
      t.cycles == 2) = true := by decide

/-- V107: R176 CLI. -/
theorem test_cli :
    answers (step (start 0x0200 0x00 0x00 0x00 0xFF 0x24 [(0x0200, 0x58)])) (fun t => t.P == 0x20 && t.PC == 0x0201 &&
      t.cycles == 2) = true := by decide

/-- V108: R177 CLV. -/
theorem test_clv :
    answers (step (start 0x0200 0x00 0x00 0x00 0xFF 0x60 [(0x0200, 0xB8)])) (fun t => t.P == 0x20 && t.PC == 0x0201 &&
      t.cycles == 2) = true := by decide

/-- V109: R178 SEC. -/
theorem test_sec :
    answers (step (start 0x0200 0x00 0x00 0x00 0xFF 0x20 [(0x0200, 0x38)])) (fun t => t.P == 0x21 && t.PC == 0x0201 &&
      t.cycles == 2) = true := by decide

/-- V110: R179 SED. -/
theorem test_sed :
    answers (step (start 0x0200 0x00 0x00 0x00 0xFF 0x20 [(0x0200, 0xF8)])) (fun t => t.P == 0x28 && t.PC == 0x0201 &&
      t.cycles == 2) = true := by decide

/-- V111: R180 SEI. -/
theorem test_sei :
    answers (step (start 0x0200 0x00 0x00 0x00 0xFF 0x20 [(0x0200, 0x78)])) (fun t => t.P == 0x24 && t.PC == 0x0201 &&
      t.cycles == 2) = true := by decide

/-- V112: R190 BRK. -/
theorem test_brk_entry :
    answers (step (start 0x0400 0x00 0x00 0x00 0xFF 0x20 [(0xFFFF, 0x80), (0x0401, 0xEA)])) (fun t => t.S == 0xFC &&
      t.P == 0x24 && t.PC == 0x8000 && t.byteAt 0x01FD == 0x30 && t.byteAt 0x01FE == 0x02 && t.byteAt 0x01FF == 0x04 &&
      t.cycles == 7) = true := by decide

/-- V115: R190 BRK vector read fails. -/
theorem test_brk_vector_read_fails :
    stops (step (failing [⟨0xFFFF, 0xFFFF⟩] [] (start 0x0400 0x00 0x00 0x00 0xFF 0x20 []))) (fun t => .busError
      .invalidRead 0xFFFF t) (fun t => t.S == 0xFC && t.PC == 0x0401 && t.byteAt 0x01FD == 0x30 && t.byteAt 0x01FE ==
      0x02 && t.byteAt 0x01FF == 0x04) = true := by decide

/-- V117: R191 RTI restores flags, forces B,U. -/
theorem test_rti_forces_break_and_unused :
    answers (step (start 0x0200 0x00 0x00 0x00 0xFC 0x20 [(0x01FD, 0xC3), (0x01FF, 0x90), (0x0200, 0x40)])) (fun t =>
      t.S == 0xFF && t.P == 0xF3 && t.PC == 0x9000 && t.cycles == 6) = true := by decide

/-- V118: R192 NOP. -/
theorem test_nop :
    answers (step (start 0x0200 0x00 0x00 0x00 0xFF 0x20 [(0x0200, 0xEA)])) (fun t => t.PC == 0x0201 && t.cycles == 2)
      = true := by decide

/-- V119: R193 BIT zp, Z from AND, N V from operand. -/
theorem test_bit_takes_flags_from_the_operand :
    answers (step (start 0x0200 0x01 0x00 0x00 0xFF 0x20 [(0x0040, 0xC0), (0x0200, 0x24), (0x0201, 0x40)])) (fun t =>
      t.P == 0xE2 && t.PC == 0x0202 && t.cycles == 3) = true := by decide

/-- V120: R193 BIT abs non-zero AND, clears N V. -/
theorem test_bit_clears_flags :
    answers (step (start 0x0200 0xFF 0x00 0x00 0xFF 0xE0 [(0x2000, 0x01), (0x0200, 0x2C), (0x0202, 0x20)])) (fun t =>
      t.P == 0x20 && t.PC == 0x0203 && t.cycles == 4) = true := by decide

/-- V122: R194 unimplemented 0xFF. -/
theorem test_unimplemented :
    stops (step (start 0x0200 0x11 0x00 0x00 0xFF 0x20 [(0x0200, 0xFF)])) (fun t => .opcodeNotImplemented 0xFF t) (fun
      t => t.PC == 0x0201) = true := by decide

/-- V124: R210 IRQ masked. -/
theorem test_irq_masked :
    answers (irq (start 0x0202 0x00 0x00 0x00 0xFF 0x24 [(0xFFFF, 0x90)])) (fun t => t.PC == 0x0202 && t.S == 0xFF &&
      t.cycles == 0) = true := by decide

/-- V126: R210 IRQ with register B=1 pushes bit 4 = 0. -/
theorem test_irq_clears_break_in_the_image :
    answers (irq (start 0x0202 0x00 0x00 0x00 0xFF 0x30 [(0xFFFF, 0x90)])) (fun t => t.S == 0xFC && t.P == 0x34 && t.PC
      == 0x9000 && t.byteAt 0x01FD == 0x20 && t.byteAt 0x01FE == 0x02 && t.byteAt 0x01FF == 0x02 && t.cycles == 7) =
      true := by decide

/-- V127: R211 NMI ignores I. -/
theorem test_nmi_ignores_interrupt_disable :
    answers (nmi (start 0x0202 0x00 0x00 0x00 0xFF 0x24 [(0xFFFB, 0xA0)])) (fun t => t.S == 0xFC && t.PC == 0xA000 &&
      t.byteAt 0x01FD == 0x24 && t.byteAt 0x01FE == 0x02 && t.byteAt 0x01FF == 0x02 && t.P == 0x24 && t.cycles == 7) =
      true := by decide

/-- V128: R211 NMI push fails. -/
theorem test_nmi_push_fails :
    stops (nmi (failing [] [⟨0x01FF, 0x01FF⟩] (start 0x0202 0x00 0x00 0x00 0xFF 0x20 []))) (fun t => .busError
      .invalidWrite 0x01FF t) (fun t => t.PC == 0x0202) = true := by decide
/-- R244, R90: the word placed at PC is what the next step runs, from reset with nothing else placed (log 9). -/
theorem test_step_runs_the_placed_word :
    answers (step (State.reset.withFetchWord 16 0xEEA2)) (fun t => t.X == 0xEE && t.PC == 0x0002 && t.cycles == 2)
      = true := by decide

/-- R207: the host halts at an error, or goes on from the state the error left. -/
theorem test_host_policies :
    stops (runCalls .halt [.step, .step] (start 0x0300 0 0 0 0xFF 0x20 [(0x0300, 0x02), (0x0301, 0xEA)]))
      (fun t => .opcodeNotImplemented 0x02 t) (fun t => t.PC == 0x0301) = true ∧
    answers (runCalls .resume [.step, .step] (start 0x0300 0 0 0 0xFF 0x20 [(0x0300, 0x02), (0x0301, 0xEA)]))
      (fun t => t.PC == 0x0302) = true := by decide

/-! ## Witnesses: states and operands that meet the hypotheses of each obligation -/

/-- A bus with nothing mapped but memory answers every access. -/
theorem start_answers (pc : Addr) (a x y sp p : Byte) (cells : List (Addr × Byte)) :
    (start pc a x y sp p cells).BusAnswers := fun _ _ => ⟨rfl, fun _ => rfl⟩

/-- It is plain memory at every address. -/
theorem start_plain (pc : Addr) (a x y sp p : Byte) (cells : List (Addr × Byte)) (ad : Addr) :
    (start pc a x y sp p cells).PlainMemory ad := ⟨rfl, rfl⟩

theorem witness_DecodeOfEncode : (Instr.jmp (.indirect 0xFFFF)).WellFormed ∧ (Instr.unimplemented 0x02).WellFormed := by decide

theorem witness_EncodeOfDecode : decode [0x6C, 0xFF, 0x10, 0x00] = .ok (.jmp (.indirect 0x10FF), [0x00]) := rfl

/-- At the edge of the zero page: the pointer's low byte at 0x00FF, its high byte at 0x0000. -/
theorem witness_XIndexIndirect :
    let s := start 0x0200 0 0x01 0 0xFF 0x20 [(0x00FF, 0x34), (0x0000, 0x12)]
    (0x00FF : Addr).toNat = ((0xFE : Byte).toNat + s.X.toNat) % 256 ∧
    (0x0000 : Addr).toNat = ((0xFE : Byte).toNat + s.X.toNat + 1) % 256 ∧
    s.bus.read 0x00FF = (some 0x34, s.bus) ∧ s.bus.read 0x0000 = (some 0x12, s.bus) := by decide

theorem witness_IndirectYIndex :
    let s := start 0x0200 0 0 0x01 0xFF 0x20 [(0x00FF, 0xFF), (0x0000, 0x12)]
    (0x00FF : Addr).toNat = (0xFF : Byte).toNat ∧ (0x0000 : Addr).toNat = ((0xFF : Byte).toNat + 1) % 256 ∧
    s.bus.read 0x00FF = (some 0xFF, s.bus) ∧ s.bus.read 0x0000 = (some 0x12, s.bus) := by decide

/-- Each byte of a pointer failing in its turn, for an instruction with each of the three operands; with JMP at the end of a
page, for both values of the parameter. -/
theorem witness_FailingPointer :
    (let s := failing [⟨0x00FF, 0x00FF⟩] [] (start 0x0200 0 0x01 0 0xFF 0x20 [])
     s.bus.read 0x00FF = (none, s.bus) ∧ (Instr.lda (.xIndexIndirect 0xFE)).operand = .xIndexIndirect 0xFE ∧
       (Instr.sta (.indirectYIndex 0xFF)).operand = .indirectYIndex 0xFF) ∧
    (let s := failing [⟨0x0000, 0x0000⟩] [] (start 0x0200 0 0x01 0 0xFF 0x20 [(0x00FF, 0x34)])
     s.bus.read 0x00FF = (some 0x34, s.bus) ∧ s.bus.read 0x0000 = (none, s.bus)) ∧
    (let s := failing [⟨0x10FF, 0x10FF⟩] [] (start 0x0203 0 0 0 0xFF 0x20 [])
     s.bus.read 0x10FF = (none, s.bus) ∧ (Instr.jmp (.indirect 0x10FF)).operand = .indirect 0x10FF) ∧
    (let s := failing [⟨0x1100, 0x1100⟩] [] (start 0x0203 0 0 0 0xFF 0x20 [(0x10FF, 0x34)])
     s.bus.read 0x10FF = (some 0x34, s.bus) ∧ s.bus.read 0x1100 = (none, s.bus) ∧ s.cfg.jmpIndirectPageWrap = false) ∧
    (let s := pageWrap (failing [⟨0x1000, 0x1000⟩] [] (start 0x0203 0 0 0 0xFF 0x20 [(0x10FF, 0x34)]))
     s.bus.read 0x10FF = (some 0x34, s.bus) ∧ s.bus.read 0x1000 = (none, s.bus) ∧ s.cfg.jmpIndirectPageWrap = true) := by
  decide

/-- A step that ends so: the pointer's high byte fails, PC is after the instruction (R83, R84, R201). -/
theorem test_failing_pointer :
    stops (step (failing [⟨0x0000, 0x0000⟩] [] (start 0x0200 0 0x01 0 0xFF 0x20 [(0x0200, 0xA1), (0x0201, 0xFE), (0x00FF, 0x34)])))
      (fun t => .busError .invalidRead 0x0000 t) (fun t => t.PC == 0x0202) = true ∧
    stops (step (failing [⟨0x0040, 0x0040⟩] [] (start 0x0200 0 0 0x01 0xFF 0x20 [(0x0200, 0x91), (0x0201, 0x40)])))
      (fun t => .busError .invalidRead 0x0040 t) (fun t => t.PC == 0x0202) = true := by decide

/-- The operand helpers at a byte that answers and at one that fails. -/
theorem witness_OperandHelpers :
    (start 0x0202 0 0 0 0xFF 0x20 [(0xFFFF, 0x5A)]).bus.read 0xFFFF =
      (some 0x5A, (start 0x0202 0 0 0 0xFF 0x20 [(0xFFFF, 0x5A)]).bus) ∧
    (failing [⟨0xFFFF, 0xFFFF⟩] [] (start 0x0202 0 0 0 0xFF 0x20 [])).bus.read 0xFFFF =
      (none, (failing [⟨0xFFFF, 0xFFFF⟩] [] (start 0x0202 0 0 0 0xFF 0x20 [])).bus) := by decide

/-- At the end of a page, for both values of the parameter. -/
theorem witness_IndirectPointer :
    [start 0x0200 0 0 0 0xFF 0x20 [(0x10FF, 0x34), (0x1100, 0x12), (0x1000, 0x56)],
      pageWrap (start 0x0200 0 0 0 0xFF 0x20 [(0x10FF, 0x34), (0x1100, 0x12), (0x1000, 0x56)])].all (fun s =>
        s.bus.read 0x10FF == (some 0x34, s.bus) &&
        (if s.cfg.jmpIndirectPageWrap then
          (0x1000 : Addr).toNat == (0x10FF : Addr).toNat / 256 * 256 + ((0x10FF : Addr).toNat + 1) % 256 &&
            s.bus.read 0x1000 == (some 0x56, s.bus)
        else (0x1100 : Addr).toNat == ((0x10FF : Addr).toNat + 1) % 65536 && s.bus.read 0x1100 == (some 0x12, s.bus))) = true := by
  decide

/-- At the top of memory, where the operand bytes follow at 0x0000. -/
theorem witness_StepRunsTheDecodedInstruction :
    let s := start 0xFFFF 0 0 0 0xFF 0x20 [(0xFFFF, 0x4C), (0x0000, 0x34), (0x0001, 0x12)]
    decode [s.byteAt s.PC, s.byteAt (s.PC + 1), s.byteAt (s.PC + 2)] = .ok (.jmp (.absolute 0x1234), []) ∧
    ∀ k, k < 3 → s.PlainMemory (s.PC + BitVec.ofNat 16 k) := ⟨rfl, fun _ _ => start_plain ..⟩

/-- One state for each of the three fetches that can fail. -/
theorem witness_FailingFetch :
    (let s := failing [⟨0x0300, 0x0300⟩] [] (start 0x0300 0 0 0 0xFF 0x20 [])
     s.bus.read s.PC = (none, s.bus)) ∧
    (let s := failing [⟨0x0000, 0x0000⟩] [] (start 0xFFFF 0 0 0 0xFF 0x20 [(0xFFFF, 0xA9)])
     s.bus.read s.PC = (some 0xA9, s.bus) ∧ 1 ≤ operandBytesOf 0xA9 ∧ s.bus.read (s.PC + 1) = (none, s.bus)) ∧
    (let s := failing [⟨0x0302, 0x0302⟩] [] (start 0x0300 0 0 0 0xFF 0x20 [(0x0300, 0x4C), (0x0301, 0x34)])
     s.bus.read s.PC = (some 0x4C, s.bus) ∧ operandBytesOf 0x4C = 2 ∧ s.bus.read (s.PC + 1) = (some 0x34, s.bus) ∧
       s.bus.read (s.PC + 2) = (none, s.bus)) := by decide

theorem witness_UnassignedOpcode :
    let s := start 0xFFFF 0 0 0 0xFF 0x20 [(0xFFFF, 0xFF)]
    s.bus.read s.PC = (some 0xFF, s.bus) ∧ (0xFF : Byte) ∈ unassignedOpcodes := by decide

theorem witness_PlacedWord :
    State.reset.bus.ram.wf = true ∧ decodeTableWord 24 0x30016C = some (.jmp (.indirect 0x3001)) := by decide

/-- An operand of each shape a read-class handler gets (R16): byte, address, address that crosses a page. -/
theorem witness_operand_read :
    let s := start 0x0202 0x50 0 0x01 0xFF 0x20 [(0x0010, 0x80), (0x1300, 0xB0)]
    (resolve (.immediate 0x50) s = .next (.byte 0x50, s) ∧ operandValue (.byte 0x50) s = .next (0x50, s)) ∧
    (resolve (.zeropage 0x10) s = .next (.address 0x0010, s) ∧ operandValue (.address 0x0010) s = .next (0x80, s)) ∧
    (resolve (.absoluteYIndex 0x12FF) s = .next (.addressWithOverflow 0x1300 true, s) ∧
      operandValue (.addressWithOverflow 0x1300 true) s = .next (0xB0, s)) := ⟨⟨rfl, rfl⟩, ⟨rfl, rfl⟩, ⟨rfl, rfl⟩⟩

/-- A store to memory, of each register. -/
theorem witness_Stores :
    let s := start 0x0202 0x11 0x22 0x33 0xFF 0x20 []
    resolve (.zeropageXIndex 0xFF) s = .next (.address 0x0021, s) ∧ operandAddress (.address 0x0021) s = .next 0x0021 ∧
    (s.bus.write 0x0021 s.A).1 = true ∧ (s.bus.write 0x0021 s.X).1 = true ∧
    (s.bus.write 0x0021 s.Y).1 = true := ⟨rfl, rfl, rfl, rfl, rfl⟩

/-- With the carry in, for the two corners of R125: the operand as added is 0xFF, and 0x00. -/
theorem witness_Overflow :
    let s := start 0x0202 0x37 0 0 0xFF 0x21 [(0x0010, 0xFF)]
    resolve (.zeropage 0x10) s = .next (.address 0x0010, s) ∧ operandValue (.address 0x0010) s = .next (0xFF, s) ∧
    answers (exec (.adc (.zeropage 0x10)) s) (fun t => t.A == 0x37 && t.flag .C) = true ∧
    answers (exec (.sbc (.zeropage 0x10)) s) (fun t => t.A == 0x38 && ! t.flag .C) = true := ⟨rfl, rfl, by decide, by decide⟩

/-- The failing clauses: a data read, a store's write, the write of a read-modify-write, of zero-page byte 0x10. -/
theorem witness_FailingData :
    (let s := failing [⟨0x0010, 0x0010⟩] [] (start 0x0202 0 0 0 0xFF 0x20 [])
     operandAddress (.address 0x0010) s = .next 0x0010 ∧ s.bus.read 0x0010 = (none, s.bus)) ∧
    (let s := failing [] [⟨0x0010, 0x0010⟩] (start 0x0202 0x11 0 0 0xFF 0x20 [])
     operandAddress (.address 0x0010) s = .next 0x0010 ∧ s.bus.write 0x0010 s.A = (false, s.bus) ∧
       s.bus.read 0x0010 = (some 0x00, s.bus) ∧ s.bus.write 0x0010 0x01 = (false, s.bus)) := ⟨⟨rfl, by decide⟩, rfl, by decide⟩

/-- For each of the four shifts, with the carry set, the result of the byte 0x81. -/
theorem witness_MemoryShifts :
    let s := start 0x0202 0 0 0 0xFF 0x21 [(0x0010, 0x81)]
    resolve (.zeropage 0x10) s = .next (.address 0x0010, s) ∧ operandAddress (.address 0x0010) s = .next 0x0010 ∧
    s.bus.read 0x0010 = (some 0x81, s.bus) ∧
    ((s.bus.write 0x0010 0x02).1 = true ∧ (0x02 : Byte).toNat = 2 * (0x81 : Byte).toNat % 256) ∧
    ((s.bus.write 0x0010 0x40).1 = true ∧ (0x40 : Byte).toNat = (0x81 : Byte).toNat / 2) ∧
    ((s.bus.write 0x0010 0x03).1 = true ∧
      (0x03 : Byte).toNat = 2 * (0x81 : Byte).toNat % 256 + (if s.flag .C then 1 else 0)) ∧
    ((s.bus.write 0x0010 0xC0).1 = true ∧
      (0xC0 : Byte).toNat = (0x81 : Byte).toNat / 2 + (if s.flag .C then 128 else 0)) :=
  ⟨rfl, rfl, rfl, ⟨rfl, rfl⟩, ⟨rfl, rfl⟩, ⟨rfl, rfl⟩, ⟨rfl, rfl⟩⟩

/-- At both ends of the byte range. -/
theorem witness_MemoryIncrementAndDecrement :
    let s := start 0x0202 0 0 0 0xFF 0x20 [(0x0010, 0xFF)]
    resolve (.zeropage 0x10) s = .next (.address 0x0010, s) ∧ operandAddress (.address 0x0010) s = .next 0x0010 ∧
    s.bus.read 0x0010 = (some 0xFF, s.bus) ∧ (s.bus.write 0x0010 0x00).1 = true ∧
    (0x00 : Byte).toNat = ((0xFF : Byte).toNat + 1) % 256 ∧ (s.bus.write 0x0010 0xFE).1 = true ∧
    (0xFE : Byte).toNat = ((0xFF : Byte).toNat + 255) % 256 := ⟨rfl, rfl, rfl, rfl, rfl, rfl, rfl⟩

/-- Each of the eight branches, taken (its flag has the value) in one of the two states and not in the other. -/
theorem witness_Branches :
    (start 0x02F2 0 0 0 0xFF 0xE3 []).flag .C = true ∧ (start 0x02F2 0 0 0 0xFF 0xE3 []).flag .Z = true ∧
    (start 0x02F2 0 0 0 0xFF 0xE3 []).flag .N = true ∧ (start 0x02F2 0 0 0 0xFF 0xE3 []).flag .V = true ∧
    (start 0x02F2 0 0 0 0xFF 0x20 []).flag .C = false ∧ (start 0x02F2 0 0 0 0xFF 0x20 []).flag .Z = false ∧
    (start 0x02F2 0 0 0 0xFF 0x20 []).flag .N = false ∧ (start 0x02F2 0 0 0 0xFF 0x20 []).flag .V = false := by decide

theorem witness_Jump :
    let s := start 0x0203 0 0 0 0xFF 0x20 [(0x3000, 0x78), (0x3001, 0x56)]
    resolve (.indirect 0x3000) s = .next (.address 0x5678, s) ∧ operandAddress (.address 0x5678) s = .next 0x5678 :=
  ⟨rfl, rfl⟩

/-- With S at 0x00, where the second push wraps to 0x01FF. -/
theorem witness_JumpToSubroutine :
    let s := start 0x0603 0 0 0 0x00 0x20 []
    ∃ b1 b2, s.bus.write (0x0100 + s.S.setWidth 16) (BitVec.ofNat 8 ((s.PC - 1).toNat / 256)) = (true, b1) ∧
      b1.write (0x0100 + (s.S - 1).setWidth 16) (BitVec.ofNat 8 ((s.PC - 1).toNat % 256)) = (true, b2) := ⟨_, _, rfl, rfl⟩

/-- Each access of the stack and of the vectors failing: a push, a pop (the model's rules are one for every access). -/
theorem witness_FailingStackAndVector :
    (let s := failing [] [⟨0x0100, 0x01FF⟩] (start 0x0603 0x12 0 0 0x00 0x20 [])
     [s.A, s.P ||| 0x30, (s.P &&& 0xEF) ||| 0x20].all (fun v => s.bus.write (0x0100 + s.S.setWidth 16) v == (false, s.bus)) &&
       [BitVec.ofNat 8 (s.PC.toNat / 256), BitVec.ofNat 8 ((s.PC + 1).toNat / 256), BitVec.ofNat 8 ((s.PC - 1).toNat / 256)].all
         (fun v => s.bus.write (0x0100 + s.S.setWidth 16) v == (false, s.bus))) = true ∧
    (let s := failing [⟨0x0100, 0x01FF⟩, ⟨0xFFFA, 0xFFFF⟩] [] (start 0x0603 0 0 0 0xFF 0x20 [])
     [0x0100 + (s.S + 1).setWidth 16, 0x0100 + (s.S + 2).setWidth 16, 0x0100 + (s.S + 3).setWidth 16, 0xFFFA, 0xFFFB, 0xFFFE,
       0xFFFF].all (fun a => s.bus.read a == (none, s.bus))) = true := by decide

/-- With S at 0xFF, where both pops wrap. -/
theorem witness_ReturnFromSubroutine :
    let s := start 0x0201 0 0 0 0xFF 0x20 [(0x0100, 0xFF), (0x0101, 0xFF)]
    s.bus.read (0x0100 + (s.S + 1).setWidth 16) = (some 0xFF, s.bus) ∧
    s.bus.read (0x0100 + (s.S + 2).setWidth 16) = (some 0xFF, s.bus) := by decide

theorem witness_SubroutineRoundTrip :
    let s := start 0x0603 0 0 0 0x00 0x20 []
    s.bus.ram.wf = true ∧
    ∀ sp : Byte, s.PlainMemory (0x0100 + sp.setWidth 16) ∧ s.bus.writable (0x0100 + sp.setWidth 16) = true :=
  ⟨rfl, fun _ => ⟨start_plain .., rfl⟩⟩

theorem witness_Pushes :
    let s := start 0x0201 0x3C 0 0 0x00 0x21 []
    (s.bus.write (0x0100 + s.S.setWidth 16) s.A).1 = true ∧
    (s.bus.write (0x0100 + s.S.setWidth 16) (s.P ||| 0x30)).1 = true := by decide

theorem witness_Pulls :
    let s := start 0x0201 0 0 0 0xFF 0x20 [(0x0100, 0xC3)]
    s.bus.read (0x0100 + (s.S + 1).setWidth 16) = (some 0xC3, s.bus) := by decide

theorem witness_TwoHundredFiftySixPushes : (start 0x0201 0 0 0 0xFF 0x20 []).BusAnswers := start_answers _ _ _ _ _ _ _

theorem witness_FlagInstructions :
    (Instr.clv, Flag.V, false) ∈ [(Instr.clc, Flag.C, false), (.cld, .D, false), (.cli, .I, false), (.clv, .V, false),
      (.sec, .C, true), (.sed, .D, true), (.sei, .I, true)] := by decide

/-- The entry at the edges: PC and S wrap, and I is already set. -/
theorem witness_Break :
    let s := start 0x0000 0 0 0 0x01 0xE5 [(0xFFFF, 0x80)]
    ∃ b1 b2 b3, s.bus.write (0x0100 + s.S.setWidth 16) (BitVec.ofNat 8 ((s.PC + 1).toNat / 256)) = (true, b1) ∧
      b1.write (0x0100 + (s.S - 1).setWidth 16) (BitVec.ofNat 8 ((s.PC + 1).toNat % 256)) = (true, b2) ∧
      b2.write (0x0100 + (s.S - 2).setWidth 16) (s.P ||| 0x30) = (true, b3) ∧
      b3.read 0xFFFE = (some 0x00, b3) ∧ b3.read 0xFFFF = (some 0x80, b3) := ⟨_, _, _, rfl, rfl, rfl, rfl, rfl⟩

theorem witness_ReturnFromInterrupt :
    let s := start 0x0201 0 0 0 0xFD 0x20 [(0x01FE, 0xC3), (0x01FF, 0xFF), (0x0100, 0xFF)]
    s.bus.read (0x0100 + (s.S + 1).setWidth 16) = (some 0xC3, s.bus) ∧
    s.bus.read (0x0100 + (s.S + 2).setWidth 16) = (some 0xFF, s.bus) ∧
    s.bus.read (0x0100 + (s.S + 3).setWidth 16) = (some 0xFF, s.bus) := by decide

theorem witness_MaskedIrq : (start 0x0202 0 0 0 0xFF 0x24 []).flag .I = true := by decide

/-- Both vectors, with I clear and B set. -/
theorem witness_HardwareInterrupt :
    let s := start 0x0202 0 0 0 0x01 0x30 [(0xFFFF, 0x90), (0xFFFB, 0xA0)]
    ∃ b1 b2 b3, s.bus.write (0x0100 + s.S.setWidth 16) (BitVec.ofNat 8 (s.PC.toNat / 256)) = (true, b1) ∧
      b1.write (0x0100 + (s.S - 1).setWidth 16) (BitVec.ofNat 8 (s.PC.toNat % 256)) = (true, b2) ∧
      b2.write (0x0100 + (s.S - 2).setWidth 16) ((s.P &&& 0xEF) ||| 0x20) = (true, b3) ∧ s.flag .I = false ∧
      b3.read 0xFFFE = (some 0x00, b3) ∧ b3.read 0xFFFF = (some 0x90, b3) ∧
      b3.read 0xFFFA = (some 0x00, b3) ∧ b3.read 0xFFFB = (some 0xA0, b3) :=
  ⟨_, _, _, rfl, rfl, rfl, rfl, rfl, rfl, rfl, rfl⟩

theorem witness_InterruptRoundTrip :
    let s := start 0x0202 0 0 0 0x01 0x30 [(0xFFFF, 0x90)]
    s.bus.ram.wf = true ∧ s.BusAnswers ∧ (∀ sp : Byte, s.bus.isDevice (0x0100 + sp.setWidth 16) = false) ∧
    s.flag .I = false := ⟨rfl, start_answers _ _ _ _ _ _ _, fun _ => rfl, rfl⟩

theorem witness_StepKeepsTheInvariant :
    let s := start 0x0200 0x80 0 0 0xFF 0x20 [(0x0200, 0x48)]
    s.Inv ∧ ∃ t, step s = .next t := ⟨⟨by decide, by decide⟩, _, rfl⟩

/-- For each of the host's calls. -/
theorem witness_HostCallsKeepTheInvariant :
    let s := start 0x0200 0 0 0 0xFF 0x20 [(0x0200, 0xEA)]
    s.Inv ∧ [HostCall.step, .irq, .nmi, .writePC 0xFFFF, .loadByte 0xFFFF 0x00, .changeDevices 7,
      .remap [⟨0, 1⟩] [] [⟨0xD000, 0xDFFF⟩]].all (fun c => answers (hostCall c s) (fun _ => true)) = true :=
  ⟨⟨by decide, by decide⟩, by decide⟩

/-- R224: between calls the host changes a device's state, and the device's next answer is a free value of that too. -/
theorem test_host_changes_devices :
    answers (runCalls .halt [.changeDevices 7, .remap [] [] [⟨0xD000, 0xDFFF⟩]] (start 0x0200 0 0 0 0xFF 0x20 []))
      (fun t => t.bus.log == [.host 7] && t.bus.isDevice 0xD000) = true := by decide

theorem witness_EveryInstructionCompletes :
    (Instr.ror (.absoluteXIndex 0xFFFF)).WellFormed ∧ (∀ c, Instr.ror (.absoluteXIndex 0xFFFF) ≠ .unimplemented c) ∧
    (start 0x0203 0 0xFF 0 0xFF 0x20 []).BusAnswers := ⟨by decide, fun c => by simp, start_answers _ _ _ _ _ _ _⟩

theorem witness_StepCompletes : (start 0x0300 0 0 0 0xFF 0x20 [(0x0300, 0x02)]).BusAnswers := start_answers _ _ _ _ _ _ _

/-- An error of each of the three calls. -/
theorem witness_ErrorsLeaveAXYAndFlags :
    let s := failing [⟨0x0300, 0x0300⟩] [⟨0x01FF, 0x01FF⟩] (start 0x0300 0x11 0x22 0x33 0xFF 0xE1 [])
    (∃ e, step s = .fault e) ∧ (∃ e, irq s = .fault e) ∧ ∃ e, nmi s = .fault e := ⟨⟨_, rfl⟩, ⟨_, rfl⟩, _, rfl⟩

/-- For each register a run that changes it. -/
theorem witness_OnlyTheListedInstructionsWriteARegister :
    let s := start 0x0202 0x81 0x22 0x33 0xFF 0x20 []
    answers (exec (.asl .accumulator) s) (fun t => t.A != s.A) = true ∧ answers (exec .tax s) (fun t => t.X != s.X) = true ∧
    answers (exec .dey s) (fun t => t.Y != s.Y) = true ∧ answers (exec .php s) (fun t => t.S != s.S) = true := by decide

/-- For each flag a run that changes it. -/
theorem witness_OnlyTheListedInstructionsWriteAFlag :
    let s := start 0x0202 0x81 0x22 0x33 0xFE 0x00 [(0x01FF, 0xFF)]
    answers (exec .plp s) (fun t => [Flag.C, .Z, .N, .V, .D, .I, .B, .U].all (fun f => t.flag f != s.flag f)) = true := by
  decide

theorem witness_OnlyControlFlowWritesPC :
    let s := start 0x0202 0 0 0 0xFF 0x20 []
    answers (exec (.bne (.relative 0x80)) s) (fun t => t.PC != s.PC) = true := by decide

/-- A read that crosses a page, a store that does, a branch taken to another page. -/
theorem witness_Cycles :
    let s := start 0x02F2 0 0x01 0 0xFF 0x20 []
    (resolve (.absoluteXIndex 0x12FF) s = .next (.addressWithOverflow 0x1300 true, s) ∧
      (Instr.lda (.absoluteXIndex 0x12FF)).WellFormed ∧
      answers (exec (.lda (.absoluteXIndex 0x12FF)) s) (fun t => t.cycles == 4 + 1) = true) ∧
    ((Instr.sta (.absoluteXIndex 0x12FF)).WellFormed ∧
      answers (exec (.sta (.absoluteXIndex 0x12FF)) s) (fun t => t.cycles == 5) = true) ∧
    (resolve (.relative 0x10) s = .next (.addressWithOverflow 0x0302 true, s) ∧ (Instr.bne (.relative 0x10)).WellFormed ∧
      answers (exec (.bne (.relative 0x10)) s) (fun t => t.cycles == 2 + 2) = true) :=
  ⟨⟨rfl, by decide, by decide⟩, by decide, rfl, by decide, by decide⟩

/-- The cost column and the dispatch table list the same 151 forms at the same cost (R88). -/
theorem test_cost_column :
    dispatchTable.all (fun r => costColumn.any (fun row => row.1.contains r.mnemonic && row.2.contains (r.mode, r.base))) = true ∧
    costColumn.all (fun row => row.1.all (fun m => costColumn.countP (fun row' => row'.1.contains m) == 1)) = true := by decide

/-- A step that completes and one that ends in an error. -/
theorem witness_StepLeavesTheEnvironment :
    (∃ t, step (withDevice [⟨0xD000, 0xDFFF⟩] (start 0x0200 0 0 0 0xFF 0x20 [(0x0200, 0xEA)])) = .next t) ∧
    ∃ e, step (failing [⟨0x0200, 0x0200⟩] [] (start 0x0200 0 0 0 0xFF 0x20 [])) = .fault e := ⟨⟨_, rfl⟩, _, rfl⟩

/-- At the top of memory, in a state that meets the invariant. -/
theorem witness_PlainMemory :
    let s := start 0x0200 0 0 0 0xFF 0x20 []
    s.Inv ∧ s.PlainMemory 0xFFFF ∧ ∃ t, memWrite 0xFFFF 0x5A s = .next t :=
  ⟨⟨by decide, by decide⟩, start_plain .., _, rfl⟩

theorem witness_DeviceAccesses :
    let s := withDevice [⟨0xD000, 0xDFFF⟩] (start 0x0200 0 0 0 0xFF 0x20 [])
    s.bus.readable 0xDFFF = true ∧ s.bus.writable 0xDFFF = true ∧ s.bus.isDevice 0xDFFF = true := by decide

end Sys2Proof.Tests
end

section
/-! PROOF. The stores (40_load_store.md R103–R105): what a store that completes leaves, for any stored register, and O16. -/

namespace Sys2Proof.Machine

variable {i : Instr} {m : Mnemonic} {o : Operand} {s s1 u : State} {op : Resolved}

/-- The byte registers of a state inside an instruction that has the S of the start. -/
theorem State.OnlyRead.reg (h : s.OnlyRead u) (r : Reg) : u.reg r = s.reg r := by
  cases r with
  | A => exact h.inside.A
  | X => exact h.inside.X
  | Y => exact h.inside.Y
  | S => exact h.S

/-- After reads alone, one write and the end of the handler change no register, no flag and no other byte. -/
theorem State.OnlyRead.frame_write {a : Addr} {v : Byte} {taken : Bool} {b : Bus} (h : s.OnlyRead u)
    (hw : u.bus.write a v = (taken, b)) (n : Nat) : State.Frame [] [] [a] s (finish m o n (u.withBus b)) := by
  obtain ⟨hfollows, hbytes⟩ := Bus.write_leaves hw
  refine .of_inside (h.inside.withBus hfollows) rfl rfl (fun r _ => ?_) (fun f _ => ?_) (fun a' ha' => ?_)
  · exact h.reg r
  · exact h.flag f
  · exact (hbytes a' (by simpa using ha')).trans (h.byteAt a')

/-- A store whose write the bus takes completes with that bus, at its base cost, and changes nothing but the byte. -/
theorem storeHandler_completes {value : State → Byte} {a : Addr} {b : Bus} (hi : exec i s = storeHandler m value o s)
    (h0 : resolve o s = .next (op, s1)) (ha : operandAddress op s1 = .next a)
    (hw : s1.bus.write a (value s1) = (true, b)) :
    ∃ t, exec i s = .next t ∧ t.bus = b ∧ t.PC = s.PC ∧ t.cycles = baseCycles m o.mode ∧ State.Frame [] [] [a] s t :=
  have h := resolve_onlyRead h0
  ⟨_, hi.trans (storeHandler_of h0 ha hw), rfl, h.inside.PC, rfl, h.frame_write hw 0⟩

/-- Settles O16: the resolver leaves A, X and Y, so each store writes the register of the start; the rest is the store
handler's, whichever register it writes. -/
theorem storesWriteOneByteAndNoFlag : Obligations.StoresWriteOneByteAndNoFlag := by
  intro o s s1 op h0
  obtain ⟨hA, hX, hY, -⟩ := (resolve_onlyRead h0).inside
  simp only [← hA, ← hX, ← hY]
  refine ⟨fun a b ha => ⟨?_, ?_, ?_⟩, ?_, ?_, ?_⟩
  · exact storeHandler_completes (value := State.A) rfl h0 ha
  · exact storeHandler_completes (value := State.X) rfl h0 ha
  · exact storeHandler_completes (value := State.Y) rfl h0 ha
  · exact storeHandler_errors (value := State.A) rfl h0
  · exact storeHandler_errors (value := State.X) rfl h0
  · exact storeHandler_errors (value := State.Y) rfl h0

end Sys2Proof.Machine
end

section
/-! PROOF. The register increments and decrements (42_shift_incdec.md R136–R139): what an instruction of the Implied mode leaves
that writes one byte register and N and Z from it, and O27. -/

namespace Sys2Proof.Machine

/-- One byte register written, whichever it is. -/
def State.withReg (s : State) (r : Reg) (v : Byte) : State :=
  match r with
  | .A => s.withA v
  | .X => s.withX v
  | .Y => s.withY v
  | .S => s.withS v

section WithReg

variable (s : State) (r : Reg) (v : Byte)

theorem State.withReg_reg (q : Reg) : (s.withReg r v).reg q = if q = r then v else s.reg q := by
  cases r <;> cases q <;> rfl

@[simp] theorem State.withReg_PC : (s.withReg r v).PC = s.PC := by cases r <;> rfl
@[simp] theorem State.withReg_bus : (s.withReg r v).bus = s.bus := by cases r <;> rfl
@[simp] theorem State.withReg_cfg : (s.withReg r v).cfg = s.cfg := by cases r <;> rfl

end WithReg

variable {i : Instr} {m : Mnemonic} {r : Reg} {v : Byte} {s : State}

/-- A written register, a written P and the end of the handler leave the other registers, the flags that P keeps and all of the
bus. -/
theorem State.Frame.withReg_withP {flags : List Flag} {p : Byte} (hp : ∀ f, f ∉ flags → getFlag f p = s.flag f)
    (o : Operand) (n : Nat) : State.Frame [r] flags [] s (finish m o n ((s.withReg r v).withP p)) := by
  refine .of_inside (State.Inside.refl s) (s.withReg_bus r v) (s.withReg_cfg r v) (fun q hq => ?_) hp (fun a _ => ?_)
  · exact (s.withReg_reg r v q).trans (if_neg (mt List.mem_singleton.mpr hq))
  · exact congrArg (fun b : Bus => b.ram.read a.toNat) (s.withReg_bus r v)

/-- An instruction that writes one register and N and Z from the byte it writes, in every state. -/
theorem registerHandler_writes_reg_setNZ
    (hi : exec i s = registerHandler m (fun t => (t.withReg r v).withP (setNZ v t.P)) s) :
    ∃ t, exec i s = .next t ∧ t.reg r = v ∧ t.flag .N = v.msb ∧ t.flag .Z = (v == 0) ∧ t.PC = s.PC ∧ t.bus = s.bus ∧
      t.cycles = baseCycles m .implied ∧ State.Frame [r] [.N, .Z] [] s t := by
  refine ⟨_, hi, ?_, by simp, by simp, s.withReg_PC r v, s.withReg_bus r v, rfl, .withReg_withP (fun f hf => ?_) _ _⟩
  · exact (s.withReg_reg r v r).trans (if_pos rfl)
  · obtain ⟨hN, hZ⟩ : f ≠ .N ∧ f ≠ .Z := by simpa using hf
    rw [getFlag_setNZ, if_neg hZ, if_neg hN, State.flag]

/-- The same with the new value as a number, and N and Z read off the register it stands in. -/
theorem registerHandler_counts {n : Nat} (hv : v.toNat = n) (hc : baseCycles m .implied = 2)
    (hi : exec i s = registerHandler m (fun t => (t.withReg r v).withP (setNZ v t.P)) s) :
    ∃ t, exec i s = .next t ∧ (t.reg r).toNat = n ∧ t.flag .N = (t.reg r).msb ∧ t.flag .Z = (t.reg r == 0) ∧
      t.PC = s.PC ∧ t.bus = s.bus ∧ t.cycles = 2 ∧ State.Frame [r] [.N, .Z] [] s t := by
  obtain ⟨t, ht, rfl, hN, hZ, hPC, hbus, hcycles, hframe⟩ := registerHandler_writes_reg_setNZ hi
  exact ⟨t, ht, hv, hN, hZ, hPC, hbus, hcycles.trans hc, hframe⟩

/-- One less modulo 256 is 255 more (42_shift_incdec.md R138). -/
theorem toNat_sub_one_byte (b : Byte) : (b - 1).toNat = (b.toNat + 255) % 256 := by
  rw [BitVec.toNat_sub, Nat.add_comm]
  rfl

/-- Settles O27: each of the four is a register handler that writes X or Y and sets N and Z from it, so only the arithmetic of
plus and minus one is its own. -/
theorem registerIncrementAndDecrement : Obligations.RegisterIncrementAndDecrement := by
  intro s
  refine ⟨?inx, ?iny, ?dex, ?dey⟩
  case inx => exact registerHandler_counts (r := .X) (BitVec.toNat_add s.X 1) rfl rfl
  case iny => exact registerHandler_counts (r := .Y) (BitVec.toNat_add s.Y 1) rfl rfl
  case dex => exact registerHandler_counts (r := .X) (toNat_sub_one_byte s.X) rfl rfl
  case dey => exact registerHandler_counts (r := .Y) (toNat_sub_one_byte s.Y) rfl rfl

end Sys2Proof.Machine
end

section
/-! PROOF. The return from a subroutine (43_compare_branch_jump.md R164): RTS in terms of its popped word, and O33. -/

namespace Sys2Proof.Machine

variable {s u : State}

theorem exec_rts_of_popWord_next {a : Addr} (h : popWord s = .next (a, u)) :
    exec .rts s = .next (finish .rts .implied 0 (u.withPC (a + 1))) := by
  show execRts s = _
  simp only [execRts, impliedHandler, h, andThen_next]

theorem exec_rts_of_popWord_fault {e : Fault} (h : popWord s = .fault e) : exec .rts s = .fault e := by
  show execRts s = _
  simp only [execRts, impliedHandler, h, andThen_fault]

/-- A state inside the instruction with the memory of the start, then a written PC and the end of the handler: S is all that
the frame gives up. -/
theorem State.Inside.frame_withPC (h : s.Inside u) (hram : u.bus.ram = s.bus.ram) (m : Mnemonic) (o : Operand) (n : Nat)
    (a : Addr) : State.Frame [.S] [] [] s (finish m o n (u.withPC a)) := by
  refine .of_inside h rfl rfl (fun r hr => ?regs) (fun f _ => ?flags) (fun a' _ => ?memory)
  case regs =>
    cases r with
    | A => exact h.A
    | X => exact h.X
    | Y => exact h.Y
    | S => exact absurd (List.mem_singleton.mpr rfl) hr
  case flags => exact congrArg (getFlag f) h.P
  case memory => exact congrArg (fun ram : Memory => ram.read a'.toNat) hram

/-- The address after the popped one, as a number (R164). -/
theorem toNat_word_add_one (hi lo : Byte) : (word hi lo + 1).toNat = (hi.toNat * 256 + lo.toNat + 1) % 65536 := by
  rw [BitVec.toNat_add, word_toNat]
  rfl

/-- Settles O33: RTS ends as its two pops do, and where both are answered the state they leave is inside the instruction, so
only PC is left to write. -/
theorem returnFromSubroutinePopsPCPlusOne : Obligations.ReturnFromSubroutinePopsPCPlusOne := by
  intro s
  have hS : s.S + 2 = s.S + 1 + 1 := (BitVec.add_assoc s.S 1 1).symm
  rw [hS]
  refine ⟨fun b1 h1 => ?firstFails, fun lo b1 h1 => ⟨fun b2 h2 => ?secondFails, fun hi b2 h2 => ?completes⟩⟩
  case firstFails => exact exec_rts_of_popWord_fault (popWord_first_fails h1)
  case secondFails => exact exec_rts_of_popWord_fault (popWord_second_fails h1 h2)
  case completes =>
    have hpop := popWord_of_accesses h1 h2
    obtain ⟨hinside, -, hram⟩ := (popWord_ends s).next hpop
    exact ⟨_, exec_rts_of_popWord_next hpop, toNat_word_add_one hi lo, rfl, rfl, rfl, hinside.frame_withPC hram _ _ _ _⟩

end Sys2Proof.Machine
end

section
/-! PROOF. The pushes (44_stack_flags.md R170, R171): an instruction of the Implied mode that pushes one byte and does nothing
else, whichever byte it is, and O35. -/

namespace Sys2Proof.Machine

variable {i : Instr} {m : Mnemonic} {v : Byte} {s : State} {b : Bus}

/-- The byte registers but S are those of the start inside an instruction. -/
theorem State.Inside.reg {u : State} (h : s.Inside u) {r : Reg} (hr : r ≠ .S) : u.reg r = s.reg r := by
  cases r with
  | A => exact h.A
  | X => exact h.X
  | Y => exact h.Y
  | S => exact absurd rfl hr

/-- A taken push and the end of the handler change S and the byte at the stack address alone. -/
theorem State.Frame.of_push {t : State} (h : push v s = .next t) (o : Operand) (n : Nat) :
    State.Frame [.S] [] [stackAddr s.S] s (finish m o n t) := by
  obtain ⟨hinside, -, hbytes⟩ := (push_ends v s).next h
  refine .of_inside hinside rfl rfl (fun r hr => ?regs) (fun f _ => ?flags) (fun a ha => ?memory)
  case regs => exact hinside.reg (mt List.mem_singleton.mpr hr)
  case flags => exact congrArg (getFlag f) hinside.P
  case memory => exact hbytes a (mt List.mem_singleton.mpr ha)

/-- A pushing instruction whose write the bus takes completes with that bus, at its base cost. -/
theorem pushHandler_completes (hi : exec i s = impliedHandler m (push v) s)
    (hw : s.bus.write (stackAddr s.S) v = (true, b)) :
    ∃ t, exec i s = .next t ∧ t.S = s.S - 1 ∧ t.bus = b ∧ t.PC = s.PC ∧ t.cycles = baseCycles m .implied ∧
      State.Frame [.S] [] [stackAddr s.S] s t := by
  have hpush := push_of_taken hw
  have hexec := hi.trans (andThen_of_next hpush)
  exact ⟨_, hexec, rfl, rfl, rfl, rfl, .of_push hpush .implied 0⟩

/-- A pushing instruction whose write fails ends there, S as it was (R15). -/
theorem pushHandler_fails (hi : exec i s = impliedHandler m (push v) s)
    (hw : s.bus.write (stackAddr s.S) v = (false, b)) :
    exec i s = .fault (.busError .invalidWrite (stackAddr s.S) (s.withBus b)) := by
  rw [hi, impliedHandler, push_of_failed hw, andThen_fault]

/-- Settles O35: PHA and PHP are the push of A and of the image with B and U set, and differ in that byte alone. -/
theorem pushesWriteThenDecrementS : Obligations.PushesWriteThenDecrementS := by
  intro s
  have hpha : exec .pha s = impliedHandler .pha (push s.A) s := rfl
  have hphp : exec .php s = impliedHandler .php (push (s.P ||| 0x30)) s := rfl
  exact ⟨fun _ => pushHandler_completes hpha, fun _ => pushHandler_completes hphp, fun _ => pushHandler_fails hpha,
    fun _ => pushHandler_fails hphp⟩

end Sys2Proof.Machine
end

section
/-! PROOF. The flag instructions (44_stack_flags.md R174–R180): a register handler that writes one flag, whichever flag and
value, and O38. -/

namespace Sys2Proof.Machine

variable {i : Instr} {m : Mnemonic} {f : Flag} {v : Bool} {s : State}

/-- A written flag and the end of the handler change no register, no other flag and no byte. -/
theorem State.Frame.of_setFlag (f : Flag) (v : Bool) (s : State) (o : Operand) (n : Nat) :
    State.Frame [] [f] [] s (finish m o n (s.setFlag f v)) := by
  refine .of_inside (State.Inside.refl s) rfl rfl (fun r _ => ?regs) (fun g hg => ?flags) (fun _ _ => rfl)
  case regs => cases r <;> rfl
  case flags => exact (getFlag_setFlag g f v s.P).trans (if_neg (mt List.mem_singleton.mpr hg))

/-- An instruction that writes one flag, in every state. -/
theorem registerHandler_writes_flag (hc : baseCycles m .implied = 2)
    (hi : exec i s = registerHandler m (fun t => t.setFlag f v) s) :
    ∃ t, exec i s = .next t ∧ t.flag f = v ∧ t.PC = s.PC ∧ t.bus = s.bus ∧ t.cycles = 2 ∧ State.Frame [] [f] [] s t :=
  ⟨_, hi, (getFlag_setFlag f f v s.P).trans (if_pos rfl), rfl, rfl, hc, .of_setFlag f v s .implied 0⟩

/-- Settles O38: each of the seven is a register handler that writes its flag. -/
theorem flagInstructionsWriteOneFlag : Obligations.FlagInstructionsWriteOneFlag := by
  intro s i f v h
  simp only [List.mem_cons, Prod.mk.injEq, List.not_mem_nil, or_false] at h
  obtain ⟨rfl, rfl, rfl⟩ | ⟨rfl, rfl, rfl⟩ | ⟨rfl, rfl, rfl⟩ | ⟨rfl, rfl, rfl⟩ | ⟨rfl, rfl, rfl⟩ | ⟨rfl, rfl, rfl⟩ |
    ⟨rfl, rfl, rfl⟩ := h
  · exact registerHandler_writes_flag (m := .clc) rfl rfl
  · exact registerHandler_writes_flag (m := .cld) rfl rfl
  · exact registerHandler_writes_flag (m := .cli) rfl rfl
  · exact registerHandler_writes_flag (m := .clv) rfl rfl
  · exact registerHandler_writes_flag (m := .sec) rfl rfl
  · exact registerHandler_writes_flag (m := .sed) rfl rfl
  · exact registerHandler_writes_flag (m := .sei) rfl rfl

end Sys2Proof.Machine
end

section
/-! PROOF. BIT and NOP (45_interrupt_misc.md R192, R193): what an instruction leaves that reads its operand and writes flags
alone, whichever flags, O29, and O39. -/

namespace Sys2Proof.Machine

variable {i : Instr} {m : Mnemonic} {o : Operand} {s s1 s2 u : State} {op : Resolved}

/-- After reads alone, a written P and the end of the handler change no register, no flag that P keeps and no byte. -/
theorem State.OnlyRead.frame_withP {flags : List Flag} {p : Byte} (h : s.OnlyRead u)
    (hp : ∀ f, f ∉ flags → getFlag f p = s.flag f) (n : Nat) : State.Frame [] flags [] s (finish m o n (u.withP p)) :=
  .of_inside h.inside rfl rfl (fun r _ => h.reg r) hp (fun a _ => h.byteAt a)

/-- An instruction that computes P from its operand byte and from A and P of the start completes with that P, PC of the start
and the bus of the read. -/
theorem readHandler_writes_P {extra : Resolved → Nat} {status : Byte → Byte → Byte → Byte} {flags : List Flag} {v : Byte}
    (hi : exec i s = readHandler m extra (fun b t => t.withP (status t.A b t.P)) o s)
    (h1 : resolve o s = .next (op, s1)) (h2 : operandValue op s1 = .next (v, s2))
    (hp : ∀ f, f ∉ flags → getFlag f (status s.A v s.P) = s.flag f) :
    ∃ t, exec i s = .next t ∧ t.P = status s.A v s.P ∧ t.PC = s.PC ∧ t.bus = s2.bus ∧
      t.cycles = baseCycles m o.mode + extra op ∧ State.Frame [] flags [] s t := by
  have hread := operandValue_onlyRead h1 h2
  have hexec := hi.trans (readHandler_of h1 h2)
  rw [hread.inside.A, hread.inside.P] at hexec
  exact ⟨_, hexec, rfl, hread.inside.PC, rfl, rfl, hread.frame_withP hp _⟩

/-- BIT as a read handler that writes P from A and the operand byte, with no extra cycle (R193). -/
theorem exec_bit (o : Operand) (s : State) :
    exec (.bit o) s = readHandler .bit (fun _ => 0) (fun b t => t.withP (setBitFlags t.A b t.P)) o s := rfl

/-- Settles O29: BIT is a read handler that writes P alone, so only which bits of P it writes is its own. -/
theorem bitTestSetsZNV : Obligations.BitTestSetsZNV := by
  intro o s s1 op h1
  refine ⟨fun v s2 h2 => ?completes, readHandler_errors (exec_bit o s) h1⟩
  case completes =>
    have hkept : ∀ f, f ∉ [Flag.Z, .N, .V] → getFlag f (setBitFlags s.A v s.P) = s.flag f := by
      intro f hf
      obtain ⟨hZ, hN, hV⟩ : f ≠ .Z ∧ f ≠ .N ∧ f ≠ .V := by simpa using hf
      rw [getFlag_setBitFlags, if_neg hV, if_neg hN, if_neg hZ, State.flag]
    obtain ⟨t, ht, hP, hPC, hbus, hcycles, hframe⟩ :=
      readHandler_writes_P (status := setBitFlags) (exec_bit o s) h1 h2 hkept
    have hflag : ∀ f, t.flag f = getFlag f (setBitFlags s.A v s.P) := fun f => congrArg (getFlag f) hP
    exact ⟨t, ht, by simp [hflag], by simp [hflag], by simp [hflag], hPC, hbus, hcycles, hframe⟩

/-- Settles O39: NOP writes the cycle count alone, and its row's base cost is 2. -/
theorem noOperationChangesNothing : Obligations.NoOperationChangesNothing := by
  intro s
  have hexec : exec .nop s = .next (s.withCycles (baseCycles .nop .implied)) := rfl
  have hcost : baseCycles .nop .implied = 2 := rfl
  rw [hexec, hcost, State.withCycles]

end Sys2Proof.Machine
end

section
/-! PROOF. The state after construction (70_reset_and_hazards.md R240): O45. -/

namespace Sys2Proof.Machine

/-- Settles O45: `State.reset` is a record of R240's values, so each register is read off its field. -/
theorem resetRegisters : Obligations.ResetRegisters :=
  ⟨rfl, rfl, rfl, rfl, rfl, rfl⟩

end Sys2Proof.Machine
end

section
/-! PROOF. Decoding and encoding (30_encoding.md R70, R86–R91): what a list of bytes that starts with an assigned opcode decodes
to, as an equivalence that reads in both directions; O1, O2, O3 and O4. -/

namespace Sys2Proof

variable {c : Byte} {r : DispatchRow} {i : Instr} {m : Mnemonic} {o : Operand} {tail rest : List Byte}

theorem operandBytesOf_of_row (hr : rowOfOpcode c = some r) : operandBytesOf c = r.mode.operandBytes := by
  simp [operandBytesOf, hr]

theorem operandBytesOf_of_no_row (hr : rowOfOpcode c = none) : operandBytesOf c = 0 := by
  simp [operandBytesOf, hr]

theorem instrOf_of_row (hr : rowOfOpcode c = some r) (b1 b2 : Byte) :
    instrOf c b1 b2 = r.mnemonic.build (operandOf r.mode b1 b2) := by
  simp [instrOf, hr]

theorem instrOf_of_no_row (hr : rowOfOpcode c = none) (b1 b2 : Byte) : instrOf c b1 b2 = .unimplemented c := by
  simp [instrOf, hr]

/-- An unassigned opcode byte is an instruction alone (R194). -/
theorem decode_of_no_row (hr : rowOfOpcode c = none) (tail : List Byte) :
    decode (c :: tail) = .ok (.unimplemented c, tail) := by
  simp [decode, operandBytesOf_of_no_row hr, instrOf_of_no_row hr]

/-- An operand is what its mode makes of its own bytes (R72). -/
theorem decode_operand_bytes (hr : rowOfOpcode c = some r) (ho : o.mode = r.mode) :
    decode (c :: (o.bytes ++ rest)) = .ok (r.mnemonic.build o, rest) := by
  have hn := operandBytesOf_of_row hr
  rw [← ho] at hn
  cases o <;> simp only [Operand.mode, Mode.operandBytes] at hn ho <;>
    simp [decode, hn, instrOf_of_row hr, ← ho, operandOf, Operand.bytes, word_hi_lo]

/-- The operand that a mode makes of as many bytes as it takes has those bytes. -/
theorem operandOf_bytes (mode : Mode) (b1 b2 : Byte) : (operandOf mode b1 b2).bytes = [b1, b2].take mode.operandBytes := by
  cases mode <;> simp [operandOf, Operand.bytes, Mode.operandBytes, hi_word, lo_word]

/-- After an assigned opcode the bytes decode exactly when they start with the bytes of an operand of its mode. -/
theorem decode_eq_ok_iff (hr : rowOfOpcode c = some r) :
    decode (c :: tail) = .ok (i, rest) ↔ ∃ o, o.mode = r.mode ∧ i = r.mnemonic.build o ∧ tail = o.bytes ++ rest := by
  constructor
  · intro h
    have hn := operandBytesOf_of_row hr
    simp only [decode] at h
    split at h
    case h_4 => cases h
    all_goals
      rename_i hcount
      rw [hn] at hcount
      simp only [instrOf_of_row hr, Except.ok.injEq, Prod.mk.injEq] at h
      obtain ⟨rfl, rfl⟩ := h
      exact ⟨_, operandOf_mode .., rfl, by rw [operandOf_bytes, hcount]; rfl⟩
  · rintro ⟨o, ho, rfl, rfl⟩
    exact decode_operand_bytes hr ho

/-- The encoding of a row's handler with an operand of its mode is the row's opcode and the operand's bytes (R70). -/
theorem encode_build (hr : r ∈ dispatchTable) (ho : o.mode = r.mode) :
    encode (r.mnemonic.build o) = r.opcode :: o.bytes := by
  obtain ⟨hform, -, hmode, -⟩ := row_facts hr
  obtain ⟨hm, hoperand, -, -⟩ := build_facts r.mnemonic o (ho ▸ hmode)
  rw [encode_eq hm, hoperand, ho, hform]

/-- A well-formed instruction is an unassigned byte, or the handler of a row with an operand of the row's mode. -/
theorem Instr.WellFormed.cases (hw : i.WellFormed) :
    (∃ c ∈ unassignedOpcodes, i = .unimplemented c) ∨
      ∃ r ∈ dispatchTable, ∃ o, o.mode = r.mode ∧ i = r.mnemonic.build o := by
  cases hm : i.mnemonic with
  | none =>
    cases i <;> simp only [Instr.mnemonic, reduceCtorEq] at hm
    exact .inl ⟨_, List.contains_iff_mem.mp hw, rfl⟩
  | some m =>
    obtain ⟨r, hr, -⟩ := Laws.EncodedLength.row_of_form m i.operand.mode ((wellFormed_eq hm).symm.trans hw)
    obtain ⟨hmem, rfl, hmode⟩ := rowOfForm_some hr
    exact .inr ⟨r, hmem, i.operand, hmode.symm, (build_parts hm).symm⟩

/-- Settles O1: by the row of the instruction, whose opcode selects it again. -/
theorem decodeOfEncodeIsTheInstruction : Obligations.DecodeOfEncodeIsTheInstruction := by
  intro i rest hw
  obtain ⟨c, hc, rfl⟩ | ⟨r, hr, o, ho, rfl⟩ := hw.cases
  · exact decode_of_no_row ((rowOfOpcode_eq_none c).mpr hc) rest
  · rw [encode_build hr ho, List.cons_append]
    exact decode_operand_bytes (row_facts hr).2.1 ho

/-- Settles O2: by the row of the first byte, whose form selects it again. -/
theorem encodeOfDecodeGivesTheBytesBack : Obligations.EncodeOfDecodeGivesTheBytesBack := by
  intro bytes rest i h
  match bytes with
  | [] => cases h
  | c :: tail =>
    cases hr : rowOfOpcode c with
    | none =>
      obtain ⟨rfl, rfl⟩ : .unimplemented c = i ∧ tail = rest := by simpa [decode_of_no_row hr] using h
      exact ⟨List.contains_iff_mem.mpr ((rowOfOpcode_eq_none c).mp hr), rfl⟩
    | some r =>
      obtain ⟨o, ho, rfl, rfl⟩ := (decode_eq_ok_iff hr).mp h
      obtain ⟨hmem, rfl⟩ := rowOfOpcode_some hr
      have hmode := (row_facts hmem).2.2.1
      exact ⟨(build_facts _ o (ho ▸ hmode)).2.2.1, by rw [encode_build hmem ho]; rfl⟩

/-- The length of the instruction is that of its opcode and the operand bytes the opcode takes (R86). -/
theorem instrOf_length (c b1 b2 : Byte) : (instrOf c b1 b2).length = 1 + operandBytesOf c := by
  cases hr : rowOfOpcode c with
  | none => rw [instrOf_of_no_row hr, operandBytesOf_of_no_row hr]; rfl
  | some r =>
    have hmode := (row_facts (rowOfOpcode_some hr).1).2.2.1
    obtain ⟨-, hoperand, -, -⟩ := build_facts r.mnemonic (operandOf r.mode b1 b2) (by rwa [operandOf_mode])
    rw [instrOf_of_row hr, Instr.length, hoperand, operandOf_mode, operandBytesOf_of_row hr]

/-- An opcode takes no operand byte, one or two (R70). -/
theorem operandBytesOf_cases (c : Byte) : operandBytesOf c = 0 ∨ operandBytesOf c = 1 ∨ operandBytesOf c = 2 := by
  cases hr : rowOfOpcode c with
  | none => exact .inl (operandBytesOf_of_no_row hr)
  | some r => rw [operandBytesOf_of_row hr]; cases r.mode <;> simp [Mode.operandBytes]

/-- With two bytes after it, an opcode byte decodes, whatever they are (R91). -/
theorem decode_three (c b1 b2 : Byte) (rest : List Byte) : ∃ x y,
    decode (c :: b1 :: b2 :: rest) = .ok (instrOf c x y, (b1 :: b2 :: rest).drop (operandBytesOf c)) := by
  obtain hn | hn | hn := operandBytesOf_cases c <;> simp only [decode, hn]
  · exact ⟨0, 0, rfl⟩
  · exact ⟨b1, 0, rfl⟩
  · exact ⟨b1, b2, rfl⟩

/-- Settles O3: the decoded instruction is the opcode's, whatever bytes it takes. -/
theorem everyOpcodeByteDecodes : Obligations.EveryOpcodeByteDecodes := by
  intro c b1 b2 rest
  obtain ⟨x, y, h⟩ := decode_three c b1 b2 rest
  refine ⟨instrOf c x y, ?decodes, ⟨fun hi => (Machine.instrOf_eq_unimplemented hi).2, fun hc => ?unassigned⟩,
    fun d hd => (Machine.instrOf_eq_unimplemented hd).1⟩
  case decodes => rw [h, instrOf_length, Nat.add_comm, List.drop_succ_cons]
  case unassigned => exact instrOf_of_no_row ((rowOfOpcode_eq_none c).mpr hc) x y

/-- Settles O4: the decoder, run on each of the twelve words. -/
theorem sampleWordsDecode : Obligations.SampleWordsDecode :=
  ⟨rfl, rfl, rfl, rfl, rfl, rfl, rfl, rfl, rfl, rfl, rfl, rfl⟩

end Sys2Proof
end

section
/-! PROOF. Each instruction as its handler, register writes in terms of `State.withReg` (30_encoding.md R87, R90): the equations
that the proofs about whole families start from. -/

namespace Sys2Proof.Machine

/-- A register takes a byte, and N and Z are set from it (R15). -/
def State.putNZ (s : State) (r : Reg) (v : Byte) : State := (s.withReg r v).withP (setNZ v s.P)

variable (o : Operand) (s : State)

theorem exec_lda : exec (.lda o) s = readHandler .lda pageCrossExtra (fun v t => t.putNZ .A v) o s := rfl
theorem exec_ldx : exec (.ldx o) s = readHandler .ldx pageCrossExtra (fun v t => t.putNZ .X v) o s := rfl
theorem exec_ldy : exec (.ldy o) s = readHandler .ldy pageCrossExtra (fun v t => t.putNZ .Y v) o s := rfl
theorem exec_sta : exec (.sta o) s = storeHandler .sta State.A o s := rfl
theorem exec_stx : exec (.stx o) s = storeHandler .stx State.X o s := rfl
theorem exec_sty : exec (.sty o) s = storeHandler .sty State.Y o s := rfl
theorem exec_tax : exec .tax s = registerHandler .tax (fun t => t.putNZ .X t.A) s := rfl
theorem exec_tay : exec .tay s = registerHandler .tay (fun t => t.putNZ .Y t.A) s := rfl
theorem exec_tsx : exec .tsx s = registerHandler .tsx (fun t => t.putNZ .X t.S) s := rfl
theorem exec_txa : exec .txa s = registerHandler .txa (fun t => t.putNZ .A t.X) s := rfl
theorem exec_tya : exec .tya s = registerHandler .tya (fun t => t.putNZ .A t.Y) s := rfl
theorem exec_txs : exec .txs s = registerHandler .txs (fun t => t.withReg .S t.X) s := rfl
theorem exec_adc : exec (.adc o) s = readHandler .adc pageCrossExtra addToA o s := rfl
theorem exec_sbc : exec (.sbc o) s = readHandler .sbc pageCrossExtra (fun v t => addToA (~~~ v) t) o s := rfl
theorem exec_and : exec (.and o) s = readHandler .and pageCrossExtra (fun v t => t.putNZ .A (t.A &&& v)) o s := rfl
theorem exec_eor : exec (.eor o) s = readHandler .eor pageCrossExtra (fun v t => t.putNZ .A (t.A ^^^ v)) o s := rfl
theorem exec_ora : exec (.ora o) s = readHandler .ora pageCrossExtra (fun v t => t.putNZ .A (t.A ||| v)) o s := rfl
theorem exec_asl : exec (.asl o) s = shiftHandler .asl shiftLeft o s := rfl
theorem exec_lsr : exec (.lsr o) s = shiftHandler .lsr shiftRight o s := rfl
theorem exec_rol : exec (.rol o) s = shiftHandler .rol rotateLeft o s := rfl
theorem exec_ror : exec (.ror o) s = shiftHandler .ror rotateRight o s := rfl
theorem exec_inc : exec (.inc o) s = incDecHandler .inc (fun v => v + 1) o s := rfl
theorem exec_dec : exec (.dec o) s = incDecHandler .dec (fun v => v - 1) o s := rfl
theorem exec_inx : exec .inx s = registerHandler .inx (fun t => t.putNZ .X (t.X + 1)) s := rfl
theorem exec_iny : exec .iny s = registerHandler .iny (fun t => t.putNZ .Y (t.Y + 1)) s := rfl
theorem exec_dex : exec .dex s = registerHandler .dex (fun t => t.putNZ .X (t.X - 1)) s := rfl
theorem exec_dey : exec .dey s = registerHandler .dey (fun t => t.putNZ .Y (t.Y - 1)) s := rfl
theorem exec_cmp : exec (.cmp o) s =
    readHandler .cmp pageCrossExtra (fun v t => t.withP (setCompareFlags t.A v t.P)) o s := rfl
theorem exec_cpx : exec (.cpx o) s =
    readHandler .cpx (fun _ => 0) (fun v t => t.withP (setCompareFlags t.X v t.P)) o s := rfl
theorem exec_cpy : exec (.cpy o) s =
    readHandler .cpy (fun _ => 0) (fun v t => t.withP (setCompareFlags t.Y v t.P)) o s := rfl
theorem exec_bcc : exec (.bcc o) s = branchHandler .bcc (fun p => ! getFlag .C p) o s := rfl
theorem exec_bcs : exec (.bcs o) s = branchHandler .bcs (fun p => getFlag .C p) o s := rfl
theorem exec_beq : exec (.beq o) s = branchHandler .beq (fun p => getFlag .Z p) o s := rfl
theorem exec_bmi : exec (.bmi o) s = branchHandler .bmi (fun p => getFlag .N p) o s := rfl
theorem exec_bne : exec (.bne o) s = branchHandler .bne (fun p => ! getFlag .Z p) o s := rfl
theorem exec_bpl : exec (.bpl o) s = branchHandler .bpl (fun p => ! getFlag .N p) o s := rfl
theorem exec_bvc : exec (.bvc o) s = branchHandler .bvc (fun p => ! getFlag .V p) o s := rfl
theorem exec_bvs : exec (.bvs o) s = branchHandler .bvs (fun p => getFlag .V p) o s := rfl
theorem exec_pha : exec .pha s = impliedHandler .pha (fun t => push t.A t) s := rfl
theorem exec_php : exec .php s = impliedHandler .php (fun t => push (imageWithBreak t.P) t) s := rfl
theorem exec_pla : exec .pla s = impliedHandler .pla (fun t => andThen (pop t) fun r => .next (r.2.putNZ .A r.1)) s := rfl
theorem exec_plp : exec .plp s =
    impliedHandler .plp (fun t => andThen (pop t) fun r => .next (r.2.withP (restoredStatus r.1))) s := rfl
theorem exec_rts : exec .rts s =
    impliedHandler .rts (fun t => andThen (popWord t) fun r => .next (r.2.withPC (r.1 + 1))) s := rfl
theorem exec_clc : exec .clc s = registerHandler .clc (fun t => t.setFlag .C false) s := rfl
theorem exec_cld : exec .cld s = registerHandler .cld (fun t => t.setFlag .D false) s := rfl
theorem exec_cli : exec .cli s = registerHandler .cli (fun t => t.setFlag .I false) s := rfl
theorem exec_clv : exec .clv s = registerHandler .clv (fun t => t.setFlag .V false) s := rfl
theorem exec_sec : exec .sec s = registerHandler .sec (fun t => t.setFlag .C true) s := rfl
theorem exec_sed : exec .sed s = registerHandler .sed (fun t => t.setFlag .D true) s := rfl
theorem exec_sei : exec .sei s = registerHandler .sei (fun t => t.setFlag .I true) s := rfl
theorem exec_brk : exec .brk s =
    impliedHandler .brk (fun t => enterInterrupt (t.PC + 1) (imageWithBreak t.P) Config.irqVector t) s := rfl
theorem exec_rti : exec .rti s = impliedHandler .rti returnFromInterrupt s := rfl
theorem exec_nop : exec .nop s = registerHandler .nop (fun t => t) s := rfl

end Sys2Proof.Machine
end

section
/-! PROOF. What each instruction may write (10_state.md R22–R41): `State.Wrote` from a list of registers, a list of flags and
whether PC is loaded, one rule per update of the state, and what it says of every instruction, step and interrupt call. -/

namespace Sys2Proof.Machine

/-! The flags each flag computation keeps. -/

theorem getFlag_setNZ_kept {f : Flag} (hf : f ∉ [Flag.N, .Z]) (r p : Byte) : getFlag f (setNZ r p) = getFlag f p := by
  obtain ⟨hN, hZ⟩ : f ≠ .N ∧ f ≠ .Z := by simpa using hf
  rw [getFlag_setNZ, if_neg hZ, if_neg hN]

theorem getFlag_setSumFlags_kept {f : Flag} (hf : f ∉ [Flag.C, .V, .N, .Z]) (r : Sum) (p : Byte) :
    getFlag f (setSumFlags r p) = getFlag f p := by
  obtain ⟨hC, hV, hN, hZ⟩ : f ≠ .C ∧ f ≠ .V ∧ f ≠ .N ∧ f ≠ .Z := by simpa using hf
  rw [getFlag_setSumFlags, if_neg hZ, if_neg hN, if_neg hV, if_neg hC]

theorem getFlag_setShiftFlags_kept {f : Flag} (hf : f ∉ [Flag.C, .N, .Z]) (r : Shifted) (p : Byte) :
    getFlag f (setShiftFlags r p) = getFlag f p := by
  obtain ⟨hC, hN, hZ⟩ : f ≠ .C ∧ f ≠ .N ∧ f ≠ .Z := by simpa using hf
  rw [getFlag_setShiftFlags, if_neg hZ, if_neg hN, if_neg hC]

theorem getFlag_setCompareFlags_kept {f : Flag} (hf : f ∉ [Flag.C, .Z, .N]) (reg m p : Byte) :
    getFlag f (setCompareFlags reg m p) = getFlag f p := by
  obtain ⟨hC, hZ, hN⟩ : f ≠ .C ∧ f ≠ .Z ∧ f ≠ .N := by simpa using hf
  rw [getFlag_setCompareFlags, if_neg hN, if_neg hZ, if_neg hC]

theorem getFlag_setBitFlags_kept {f : Flag} (hf : f ∉ [Flag.Z, .N, .V]) (a m p : Byte) :
    getFlag f (setBitFlags a m p) = getFlag f p := by
  obtain ⟨hZ, hN, hV⟩ : f ≠ .Z ∧ f ≠ .N ∧ f ≠ .V := by simpa using hf
  rw [getFlag_setBitFlags, if_neg hV, if_neg hN, if_neg hZ]

/-! What may be written. -/

/-- From `s` to `t` only registers of `regs`, flags of `flags`, PC where `pc` allows it, memory, what devices have seen and the
cycle count may differ; and B and U, where they differ, are set (R38, R39). -/
structure State.Wrote (regs : List Reg) (flags : List Flag) (pc : Bool) (s t : State) : Prop where
  regs : ∀ r, r ∉ regs → t.reg r = s.reg r
  flags : ∀ f, f ∉ flags → t.flag f = s.flag f
  forced : ∀ f, f ∈ [Flag.B, .U] → t.flag f = s.flag f ∨ t.flag f = true
  PC : pc = false → t.PC = s.PC
  cfg : t.cfg = s.cfg
  bus : s.bus.Follows t.bus

section Rules

variable {regs : List Reg} {flags : List Flag} {pc : Bool} {s t u : State}

theorem State.Wrote.of_inside (h : s.Inside u) (hS : u.S = s.S ∨ .S ∈ regs) : State.Wrote regs flags pc s u where
  regs r hr := by
    cases r with
    | S => exact hS.resolve_right hr
    | A => exact h.A
    | X => exact h.X
    | Y => exact h.Y
  flags f _ := congrArg (getFlag f) h.P
  forced f _ := .inl (congrArg (getFlag f) h.P)
  PC _ := h.PC
  cfg := h.cfg
  bus := h.bus

theorem State.Wrote.refl (s : State) : State.Wrote regs flags pc s s := .of_inside (State.Inside.refl s) (.inl rfl)

theorem State.Wrote.trans (h : State.Wrote regs flags pc s t) (k : State.Wrote regs flags pc t u) :
    State.Wrote regs flags pc s u where
  regs r hr := (k.regs r hr).trans (h.regs r hr)
  flags f hf := (k.flags f hf).trans (h.flags f hf)
  forced f hf := by
    obtain hk | hk := k.forced f hf
    · rw [hk]; exact h.forced f hf
    · exact .inr hk
  PC hpc := (k.PC hpc).trans (h.PC hpc)
  cfg := k.cfg.trans h.cfg
  bus := h.bus.trans k.bus

theorem State.Wrote.withReg {r : Reg} (hr : r ∈ regs) (v : Byte) : State.Wrote regs flags pc s (s.withReg r v) where
  regs q hq := (s.withReg_reg r v q).trans (if_neg fun h : q = r => hq (h ▸ hr))
  flags f _ := by cases r <;> rfl
  forced f _ := .inl (by cases r <;> rfl)
  PC _ := s.withReg_PC r v
  cfg := s.withReg_cfg r v
  bus := s.withReg_bus r v ▸ Bus.Follows.refl s.bus

/-- P written, with its unlisted flags and with B and U kept. -/
theorem State.Wrote.withP {p : Byte} (hp : ∀ f, f ∉ flags → getFlag f p = s.flag f)
    (hforced : ∀ f, f ∈ [Flag.B, .U] → getFlag f p = s.flag f ∨ getFlag f p = true) :
    State.Wrote regs flags pc s (s.withP p) where
  regs r _ := by cases r <;> rfl
  flags := hp
  forced := hforced
  PC _ := rfl
  cfg := rfl
  bus := Bus.Follows.refl s.bus

/-- P written by a computation that keeps B and U with the other unlisted flags. -/
theorem State.Wrote.withP_kept {p : Byte} (hp : ∀ f, f ∉ flags → getFlag f p = s.flag f)
    (hBU : ∀ f, f ∈ [Flag.B, .U] → f ∉ flags) : State.Wrote regs flags pc s (s.withP p) :=
  .withP hp fun f hf => .inl (hp f (hBU f hf))

/-- P written from a byte of the stack: every flag, B and U as 1 (R173, R191). -/
theorem State.Wrote.withP_restored (p : Byte) (hall : ∀ f, f ∈ flags) :
    State.Wrote regs flags pc s (s.withP (restoredStatus p)) :=
  .withP (fun f hf => absurd (hall f) hf) fun f hf => .inr (by
    rw [getFlag_restoredStatus, if_pos (by simpa using hf)])

theorem State.Wrote.withPC (a : Addr) : State.Wrote regs flags true s (s.withPC a) where
  regs r _ := by cases r <;> rfl
  flags _ _ := rfl
  forced _ _ := .inl rfl
  PC h := by cases h
  cfg := rfl
  bus := Bus.Follows.refl s.bus

theorem State.Wrote.finish (h : State.Wrote regs flags pc s t) (m : Mnemonic) (o : Operand) (n : Nat) :
    State.Wrote regs flags pc s (finish m o n t) :=
  ⟨fun r hr => .trans (by cases r <;> rfl) (h.regs r hr), h.flags, h.forced, h.PC, h.cfg, h.bus⟩

/-- One flag written, B and U not. -/
theorem State.Wrote.setFlag {f : Flag} (v : Bool) (hf : f ∈ flags) (hBU : f ∉ [Flag.B, .U]) :
    State.Wrote regs flags pc s (s.setFlag f v) :=
  have hkept : ∀ g, g ≠ f → getFlag g (Machine.setFlag f v s.P) = s.flag g := fun g hg =>
    (getFlag_setFlag g f v s.P).trans (if_neg hg)
  .withP (fun g hg => hkept g fun h => hg (h ▸ hf)) fun g hg => .inl (hkept g fun h => hBU (h ▸ hg))

/-- A register written, and P by a computation that keeps its other flags, B and U among them. -/
theorem State.Wrote.withReg_withP {r : Reg} {v p : Byte} (hr : r ∈ regs)
    (hp : ∀ f, f ∉ flags → getFlag f p = s.flag f) (hBU : ∀ f, f ∈ [Flag.B, .U] → f ∉ flags) :
    State.Wrote regs flags pc s ((s.withReg r v).withP p) :=
  (State.Wrote.withReg hr v).trans (.withP_kept (fun f hf => (hp f hf).trans (by cases r <;> rfl)) hBU)

theorem State.Wrote.putNZ {r : Reg} (hr : r ∈ regs) (v : Byte) :
    State.Wrote regs [.N, .Z] pc s (s.putNZ r v) :=
  .withReg_withP hr (fun _ hf => getFlag_setNZ_kept hf v s.P) (by decide)

theorem State.Wrote.addToA (v : Byte) (hr : .A ∈ regs) : State.Wrote regs [.C, .V, .N, .Z] pc s (addToA v s) :=
  .withReg_withP (r := .A) hr (fun _ hf => getFlag_setSumFlags_kept hf _ s.P) (by decide)

theorem State.Wrote.withP_setCompareFlags (reg m : Byte) :
    State.Wrote regs [.C, .Z, .N] pc s (s.withP (setCompareFlags reg m s.P)) :=
  .withP_kept (fun _ hf => getFlag_setCompareFlags_kept hf reg m s.P) (by decide)

theorem State.Wrote.withP_setBitFlags (a m : Byte) :
    State.Wrote regs [.Z, .N, .V] pc s (s.withP (setBitFlags a m s.P)) :=
  .withP_kept (fun _ hf => getFlag_setBitFlags_kept hf a m s.P) (by decide)

end Rules

/-! What each shape of handler writes. -/

section Handlers

variable {m : Mnemonic} {o : Operand} {regs : List Reg} {flags : List Flag} {pc : Bool} {s : State}

theorem readHandler_wrote {extra : Resolved → Nat} {use : Byte → State → State}
    (huse : ∀ v u, State.Wrote regs flags pc u (use v u)) :
    Ends (readHandler m extra use o s) (State.Wrote regs flags pc s) (ErrorInside s) :=
  (readHandler_ends extra use).mono (fun _ ⟨_, v, u, hu, hS, _, _, ht⟩ =>
    ht ▸ ((State.Wrote.of_inside hu (.inl hS)).trans (huse v u)).finish m o _) fun _ => id

theorem storeHandler_wrote (value : State → Byte) :
    Ends (storeHandler m value o s) (State.Wrote regs flags pc s) (ErrorInside s) :=
  (storeHandler_ends value).mono (fun _ ⟨_, hu, hS, ht⟩ => ht ▸ (State.Wrote.of_inside hu (.inl hS)).finish m o 0)
    fun _ => id

/-- A shift writes A in the Accumulator form alone. -/
theorem shiftHandler_wrote (f : Byte → Bool → Shifted) (hA : o = .accumulator → .A ∈ regs) :
    Ends (shiftHandler m f o s) (State.Wrote regs [.C, .N, .Z] pc s) (ErrorInside s) := by
  refine (shiftHandler_ends f).mono (fun t ⟨u, r, hu, hS, ht⟩ => ?_) fun _ => id
  have hinside : State.Wrote regs [.C, .N, .Z] pc s u := .of_inside hu (.inl hS)
  have hkept : ∀ g, g ∉ [Flag.C, .N, .Z] → getFlag g (setShiftFlags r s.P) = u.flag g := fun g hg =>
    (getFlag_setShiftFlags_kept hg r s.P).trans (congrArg (getFlag g) hu.P.symm)
  obtain rfl | ⟨ho, rfl⟩ := ht
  · exact (hinside.trans (.withP_kept hkept (by decide))).finish m o 0
  · exact (hinside.trans (.withReg_withP (r := .A) (hA ho) hkept (by decide))).finish m o 0

theorem incDecHandler_wrote (f : Byte → Byte) :
    Ends (incDecHandler m f o s) (State.Wrote regs [.N, .Z] pc s) (ErrorInside s) :=
  (incDecHandler_ends f).mono (fun _ ⟨_, r, hu, hS, ht⟩ =>
    have hkept : ∀ g, g ∉ [Flag.N, .Z] → getFlag g (setNZ r s.P) = _ := fun g hg =>
      (getFlag_setNZ_kept hg r s.P).trans (congrArg (getFlag g) hu.P.symm)
    ht ▸ ((State.Wrote.of_inside hu (.inl hS)).trans (.withP_kept hkept (by decide))).finish m o 0) fun _ => id

theorem branchHandler_wrote (cond : Byte → Bool) :
    Ends (branchHandler m cond o s) (State.Wrote regs flags true s) (ErrorInside s) :=
  (branchHandler_ends cond).mono (fun _ ⟨_, n, _, hu, hS, ht⟩ =>
    ht ▸ ((State.Wrote.of_inside hu (.inl hS)).trans (.withPC _)).finish m o n) fun _ => id

theorem registerHandler_wrote {f : State → State} {e : Fault → Prop} (hf : State.Wrote regs flags pc s (f s)) :
    Ends (registerHandler m f s) (State.Wrote regs flags pc s) e := hf.finish m .implied 0

/-- An instruction of the Implied mode that uses the bus. -/
theorem impliedHandler_wrote {f : State → Res State} (hf : Ends (f s) (State.Wrote regs flags pc s) (BusErrorInside s)) :
    Ends (impliedHandler m f s) (State.Wrote regs flags pc s) (BusErrorInside s) :=
  hf.andThen (fun _ => id) fun _ ht => ht.finish m .implied 0

theorem push_wrote (v : Byte) : Ends (push v s) (State.Wrote [.S] flags pc s) (BusErrorInside s) :=
  (push_ends v s).mono (fun _ ⟨hu, _, _⟩ => .of_inside hu (.inr (List.mem_singleton.mpr rfl))) fun _ => id

/-- A pop and then writes of registers and flags alone. -/
theorem pop_then_wrote {use : Byte × State → State} (hS : .S ∈ regs) (huse : ∀ r, State.Wrote regs flags pc r.2 (use r)) :
    Ends (andThen (pop s) fun r => .next (use r)) (State.Wrote regs flags pc s) (BusErrorInside s) :=
  (pop_ends s).andThen (fun _ => id) fun r ⟨hu, _, _⟩ => (State.Wrote.of_inside hu (.inr hS)).trans (huse r)

theorem popWord_then_wrote :
    Ends (andThen (popWord s) fun r => .next (r.2.withPC (r.1 + 1))) (State.Wrote [.S] flags true s) (BusErrorInside s) :=
  (popWord_ends s).andThen (fun _ => id) fun r ⟨hu, _, _⟩ =>
    (State.Wrote.of_inside hu (.inr (List.mem_singleton.mpr rfl))).trans (.withPC (r.1 + 1))

/-- An entry writes S, I and PC (R215). -/
theorem enterInterrupt_wrote (ret : Addr) (image : Byte) (vector : Addr) :
    Ends (enterInterrupt ret image vector s) (State.Wrote [.S] [.I] true s) (BusErrorInside s) :=
  (enterInterrupt_ends ret image vector s).mono (fun t ⟨⟨u, hu, ht⟩, _, _⟩ => by
    rw [ht]
    exact (State.Wrote.of_inside hu (.inr (by decide))).trans
      ((State.Wrote.setFlag true (by decide) (by decide)).trans (.withPC t.PC))) fun _ => id

/-- Every flag of P. -/
def allFlags : List Flag := [.N, .V, .B, .U, .D, .I, .Z, .C]

theorem mem_allFlags (f : Flag) : f ∈ allFlags := by cases f <;> decide

/-- A return writes S, the whole of P, B and U as 1, and PC (R191). -/
theorem returnFromInterrupt_wrote :
    Ends (returnFromInterrupt s) (State.Wrote [.S] allFlags true s) (BusErrorInside s) :=
  (returnFromInterrupt_ends s).mono (fun t ⟨⟨u, p, hu, ht⟩, _, _⟩ => by
    rw [ht]
    exact (State.Wrote.of_inside hu (.inr (by decide))).trans
      ((State.Wrote.withP_restored p mem_allFlags).trans (.withPC t.PC))) fun _ => id

theorem execJmp_wrote : Ends (execJmp o s) (State.Wrote regs flags true s) (ErrorInside s) :=
  (resolve_ends o s).andThen (fun _ => .inl) fun r ⟨hu, hS, _, _⟩ =>
    (operandAddress_ends_error r.1 r.2).andThen (fun _ he => he.of_inside hu) fun a _ =>
      ((State.Wrote.of_inside hu (.inl hS)).trans (.withPC a)).finish .jmp o 0

theorem execJsr_wrote : Ends (execJsr o s) (State.Wrote [.S] flags true s) (ErrorInside s) :=
  (resolve_ends o s).andThen (fun _ => .inl) fun r ⟨hu, _, _, _⟩ =>
    (operandAddress_ends_error r.1 r.2).andThen (fun _ he => he.of_inside hu) fun a _ =>
      (pushWord_ends _ r.2).andThen (fun _ he => .inl (he.of_inside hu)) fun t ⟨ht, _, _⟩ =>
        ((State.Wrote.of_inside (hu.trans ht) (.inr (by decide))).trans (.withPC a)).finish .jsr o 0

end Handlers

/-! What each instruction writes. -/

/-- The byte registers an instruction may write (R22–R24, R27). -/
def regsWritten : Instr → List Reg
  | .lda _ | .txa | .tya | .adc _ | .sbc _ | .and _ | .eor _ | .ora _ => [.A]
  | .asl .accumulator | .lsr .accumulator | .rol .accumulator | .ror .accumulator => [.A]
  | .ldx _ | .inx | .dex | .tax | .tsx => [.X]
  | .ldy _ | .iny | .dey | .tay => [.Y]
  | .pla => [.A, .S]
  | .pha | .php | .plp | .jsr _ | .rts | .brk | .rti | .txs => [.S]
  | _ => []

/-- The flags an instruction may write (R34–R41). -/
def flagsWritten : Instr → List Flag
  | .adc _ | .sbc _ => [.C, .V, .N, .Z]
  | .asl _ | .lsr _ | .rol _ | .ror _ => [.C, .N, .Z]
  | .cmp _ | .cpx _ | .cpy _ => [.C, .Z, .N]
  | .bit _ => [.Z, .N, .V]
  | .lda _ | .ldx _ | .ldy _ | .and _ | .eor _ | .ora _ | .inc _ | .dec _ | .inx | .iny | .dex | .dey | .pla | .tax | .tay
  | .tsx | .txa | .tya => [.N, .Z]
  | .clc | .sec => [.C]
  | .cld | .sed => [.D]
  | .cli | .sei | .brk => [.I]
  | .clv => [.V]
  | .plp | .rti => allFlags
  | _ => []

/-- Whether an instruction may load PC (R30). -/
def writesPC : Instr → Bool
  | .bcc _ | .bcs _ | .beq _ | .bmi _ | .bne _ | .bpl _ | .bvc _ | .bvs _ | .jmp _ | .jsr _ | .rts | .brk | .rti => true
  | _ => false

/-- From `s` to `t` the instruction wrote no more than its lists. -/
abbrev InstrWrote (i : Instr) : State → State → Prop := State.Wrote (regsWritten i) (flagsWritten i) (writesPC i)

/-- An error of an instruction: a bus error, a refused operand shape, or an unassigned opcode. -/
def InstrError (i : Instr) (s : State) (e : Fault) : Prop :=
  ErrorInside s e ∨ ∃ c, i = .unimplemented c ∧ e = .opcodeNotImplemented c s

/-- The errors of an operation are among those of an instruction. -/
theorem Ends.instr {x : Res State} {q : State → Prop} {i : Instr} {s : State} (h : Ends x q (ErrorInside s)) :
    Ends x q (InstrError i s) := h.mono (fun _ => id) fun _ => .inl

theorem Ends.instr_of_bus {x : Res State} {q : State → Prop} {i : Instr} {s : State} (h : Ends x q (BusErrorInside s)) :
    Ends x q (InstrError i s) := h.mono (fun _ => id) fun _ he => .inl (.inl he)

/-- Every instruction, on every bus, writes no more than its lists, or ends in an error that leaves A, X, Y, P and PC. -/
theorem exec_ends (i : Instr) (s : State) : Ends (exec i s) (InstrWrote i s) (InstrError i s) := by
  cases i
  case lda | ldx | ldy | and | eor | ora =>
    simp only [exec_lda, exec_ldx, exec_ldy, exec_and, exec_eor, exec_ora]
    exact Ends.instr (readHandler_wrote fun _ _ => .putNZ (.head _) _)
  case adc | sbc =>
    simp only [exec_adc, exec_sbc]
    exact Ends.instr (readHandler_wrote fun _ _ => .addToA _ (.head _))
  case cmp | cpx | cpy =>
    simp only [exec_cmp, exec_cpx, exec_cpy]
    exact Ends.instr (readHandler_wrote fun _ _ => .withP_setCompareFlags _ _)
  case bit =>
    simp only [exec_bit]
    exact Ends.instr (readHandler_wrote fun _ _ => .withP_setBitFlags _ _)
  case sta | stx | sty =>
    simp only [exec_sta, exec_stx, exec_sty]
    exact Ends.instr (storeHandler_wrote _)
  case asl | lsr | rol | ror =>
    simp only [exec_asl, exec_lsr, exec_rol, exec_ror]
    exact Ends.instr (shiftHandler_wrote _ (by rintro rfl; exact .head _))
  case inc | dec =>
    simp only [exec_inc, exec_dec]
    exact Ends.instr (incDecHandler_wrote _)
  case bcc | bcs | beq | bmi | bne | bpl | bvc | bvs =>
    simp only [exec_bcc, exec_bcs, exec_beq, exec_bmi, exec_bne, exec_bpl, exec_bvc, exec_bvs]
    exact Ends.instr (branchHandler_wrote _)
  case jmp => exact Ends.instr execJmp_wrote
  case jsr => exact Ends.instr execJsr_wrote
  case tax | tay | tsx | txa | tya | inx | iny | dex | dey =>
    simp only [exec_tax, exec_tay, exec_tsx, exec_txa, exec_tya, exec_inx, exec_iny, exec_dex, exec_dey]
    exact registerHandler_wrote (.putNZ (.head _) _)
  case txs =>
    simp only [exec_txs]
    exact registerHandler_wrote (.withReg (.head _) s.X)
  case clc | cld | cli | clv | sec | sed | sei =>
    simp only [exec_clc, exec_cld, exec_cli, exec_clv, exec_sec, exec_sed, exec_sei]
    exact registerHandler_wrote (.setFlag _ (.head _) (by decide))
  case nop =>
    simp only [exec_nop]
    exact registerHandler_wrote (.refl s)
  case pha | php =>
    simp only [exec_pha, exec_php]
    exact Ends.instr_of_bus (impliedHandler_wrote (push_wrote _))
  case pla =>
    simp only [exec_pla]
    exact Ends.instr_of_bus (impliedHandler_wrote (pop_then_wrote (.tail _ (.head _)) fun _ => .putNZ (.head _) _))
  case plp =>
    simp only [exec_plp]
    exact Ends.instr_of_bus (impliedHandler_wrote (pop_then_wrote (.head _) fun _ => .withP_restored _ mem_allFlags))
  case rts =>
    simp only [exec_rts]
    exact Ends.instr_of_bus (impliedHandler_wrote popWord_then_wrote)
  case brk =>
    simp only [exec_brk]
    exact Ends.instr_of_bus (impliedHandler_wrote (enterInterrupt_wrote _ _ _))
  case rti =>
    simp only [exec_rti]
    exact Ends.instr_of_bus (impliedHandler_wrote returnFromInterrupt_wrote)
  case unimplemented c => exact .inr ⟨c, rfl, rfl⟩

end Sys2Proof.Machine
end

section
/-! PROOF. Progress (30_encoding.md R92, R93): a well-formed instruction with a handler ends in no error but a bus error, so on
a bus that answers it completes; O49. -/

namespace Sys2Proof.Machine

/-- What holds of every mode of a handler holds of the mode of each of its well-formed instructions. -/
theorem of_modes {i : Instr} {m : Mnemonic} (hw : i.WellFormed) (hm : i.mnemonic = some m)
    {p : Mode → Bool} (hp : m.modes.all p = true) : p i.operand.mode = true :=
  List.all_eq_true.mp hp _ (List.contains_iff_mem.mp ((wellFormed_eq hm).symm.trans hw))

section Shapes

variable {m : Mnemonic} {o : Operand} {s : State}

/-- A branch in its one mode completes, and makes no access. -/
theorem branchHandler_ends_bus (cond : Byte → Bool) (hmode : (o.mode == .relative) = true) :
    Ends (branchHandler m cond o s) (fun _ => True) (BusErrorInside s) := by
  obtain ⟨d, rfl⟩ : ∃ d, o = .relative d := by cases o <;> simp [Operand.mode] at hmode ⊢
  rw [branchHandler_relative]
  split <;> trivial

theorem impliedHandler_ends_bus {f : State → Res State} {q : State → Prop} (h : Ends (f s) q (BusErrorInside s)) :
    Ends (impliedHandler m f s) (fun _ => True) (BusErrorInside s) := h.andThen (fun _ => id) fun _ _ => trivial

theorem pop_then_ends_bus {use : Byte × State → State} :
    Ends (andThen (pop s) fun r => .next (use r)) (fun _ => True) (BusErrorInside s) :=
  (pop_ends s).andThen (fun _ => id) fun _ _ => trivial

theorem execJmp_ends_bus (hmode : givesAddress o.mode = true) : Ends (execJmp o s) (fun _ => True) (BusErrorInside s) :=
  (resolve_ends o s).andThen (fun _ => id) fun r ⟨_, _, _, hshape⟩ => by
    obtain ⟨a, ha⟩ := hshape.address hmode r.2
    simp only [ha, andThen_next]
    trivial

theorem execJsr_ends_bus (hmode : givesAddress o.mode = true) : Ends (execJsr o s) (fun _ => True) (BusErrorInside s) :=
  (resolve_ends o s).andThen (fun _ => id) fun r ⟨hu, _, _, hshape⟩ => by
    obtain ⟨a, ha⟩ := hshape.address hmode r.2
    simp only [ha, andThen_next]
    exact (pushWord_ends _ r.2).andThen (fun _ he => he.of_inside hu) fun _ _ => trivial

end Shapes

/-- A well-formed instruction of the table ends in no error but a bus error (R92). -/
theorem exec_ends_bus {i : Instr} (hw : i.WellFormed) (hi : ∀ c, i ≠ .unimplemented c) (s : State) :
    Ends (exec i s) (fun _ => True) (BusErrorInside s) := by
  cases i
  case lda | ldx | ldy | and | eor | ora | adc | sbc | cmp | cpx | cpy | bit =>
    simp only [exec_lda, exec_ldx, exec_ldy, exec_and, exec_eor, exec_ora, exec_adc, exec_sbc, exec_cmp, exec_cpx,
      exec_cpy, exec_bit]
    exact readHandler_ends_bus _ _ (bne_iff_ne.mp (of_modes hw (p := (· != .implied)) rfl (by decide)))
  case sta | stx | sty =>
    simp only [exec_sta, exec_stx, exec_sty]
    exact storeHandler_ends_bus _ (of_modes hw rfl (by decide))
  case asl | lsr | rol | ror =>
    simp only [exec_asl, exec_lsr, exec_rol, exec_ror]
    have hmode := of_modes hw (p := fun x => x == .accumulator || givesAddress x) rfl (by decide)
    exact shiftHandler_ends_bus _ (by simpa [Instr.operand] using hmode)
  case inc | dec =>
    simp only [exec_inc, exec_dec]
    exact incDecHandler_ends_bus _ (of_modes hw rfl (by decide))
  case bcc | bcs | beq | bmi | bne | bpl | bvc | bvs =>
    simp only [exec_bcc, exec_bcs, exec_beq, exec_bmi, exec_bne, exec_bpl, exec_bvc, exec_bvs]
    exact branchHandler_ends_bus _ (of_modes hw (p := (· == .relative)) rfl (by decide))
  case jmp => exact execJmp_ends_bus (of_modes hw rfl (by decide))
  case jsr => exact execJsr_ends_bus (of_modes hw rfl (by decide))
  case tax | tay | tsx | txa | tya | inx | iny | dex | dey | txs | clc | cld | cli | clv | sec | sed | sei | nop =>
    simp only [exec_tax, exec_tay, exec_tsx, exec_txa, exec_tya, exec_inx, exec_iny, exec_dex, exec_dey, exec_txs,
      exec_clc, exec_cld, exec_cli, exec_clv, exec_sec, exec_sed, exec_sei, exec_nop]
    trivial
  case pha | php =>
    simp only [exec_pha, exec_php]
    exact impliedHandler_ends_bus (push_ends _ s)
  case pla | plp =>
    simp only [exec_pla, exec_plp]
    exact impliedHandler_ends_bus pop_then_ends_bus
  case rts =>
    simp only [exec_rts]
    exact impliedHandler_ends_bus (popWord_then_wrote (flags := []))
  case brk =>
    simp only [exec_brk]
    exact impliedHandler_ends_bus (enterInterrupt_ends _ _ _ s)
  case rti =>
    simp only [exec_rti]
    exact impliedHandler_ends_bus (returnFromInterrupt_ends s)
  case unimplemented c => exact absurd rfl (hi c)

/-- Settles O49: a bus that answers rules out the bus errors, and the state answered has the parameter and
a bus that follows. -/
theorem everyInstructionCompletesOnAnAnsweringBus : Obligations.EveryInstructionCompletesOnAnAnsweringBus := by
  intro i s hw hi hanswers
  have hends := exec_ends_bus hw hi s
  cases h : exec i s with
  | next t =>
    have hwrote := (exec_ends i s).next h
    exact ⟨t, rfl, hanswers.of_follows hwrote.bus, hwrote.cfg⟩
  | fault e => exact ((hends.fault h).absurd hanswers).elim
  | refused r => exact absurd h (hends.not_refused r)

end Sys2Proof.Machine
end

section
/-! PROOF. The whole machine: what a step and an interrupt call can do on any bus, and from it O46, O47, O48, O50, O51, O52, O58
(10_state.md R38; 30_encoding.md R90–R93; 60_exceptions.md R200–R211). -/

namespace Sys2Proof.Machine

/-- The answer of one reading and the error of another. -/
theorem Ends.combine {α : Type} {x : Res α} {q q' : α → Prop} {e e' : Fault → Prop} (h : Ends x q e) (k : Ends x q' e') :
    Ends x q e' := by
  cases x with
  | next a => exact h
  | fault f => exact k
  | refused r => exact h

/-- An error of a well-formed instruction: a bus error, or the opcode is unassigned. -/
def StepError (s : State) (e : Fault) : Prop :=
  BusErrorInside s e ∨ ∃ c ∈ unassignedOpcodes, e = .opcodeNotImplemented c s

theorem exec_ends_of_wellFormed {i : Instr} (hw : i.WellFormed) (s : State) :
    Ends (exec i s) (InstrWrote i s) (StepError s) := by
  by_cases hi : ∃ c, i = .unimplemented c
  · obtain ⟨c, rfl⟩ := hi
    exact .inr ⟨c, List.contains_iff_mem.mp hw, rfl⟩
  · exact (exec_ends i s).combine
      ((exec_ends_bus hw (not_exists.mp hi) s).mono (e' := StepError s) (fun _ => id) fun _ => .inl)

/-- A step fetches, then one instruction writes no more than its lists; or the fetch or the instruction ends in an error. -/
theorem step_ends (s : State) :
    Ends (step s) (fun t => ∃ i s1, s.Fetching s1 ∧ InstrWrote i s1 t)
      (fun e => FetchError s e ∨ ∃ s1, s.Fetching s1 ∧ StepError s1 e) :=
  (fetchInstr_ends s).andThen (fun _ => .inl) fun r ⟨⟨c, b1, b2, hr⟩, hfetch⟩ =>
    (exec_ends_of_wellFormed (hr ▸ instrOf_wellFormed c b1 b2) r.2).mono (fun _ ht => ⟨r.1, r.2, hfetch, ht⟩)
      fun _ he => .inr ⟨r.2, hfetch, he⟩

/-- An entry that reports a cycle count. -/
theorem enterInterrupt_withCycles_ends (ret : Addr) (image : Byte) (vector : Addr) (n : Nat) (s : State) :
    Ends (andThen (enterInterrupt ret image vector s) fun t => .next (t.withCycles n)) (State.Wrote [.S] [.I] true s)
      (BusErrorInside s) :=
  (enterInterrupt_wrote ret image vector).andThen (fun _ => id) fun _ ⟨hr, hf, hBU, hPC, hcfg, hbus⟩ =>
    ⟨fun r h => .trans (by cases r <;> rfl) (hr r h), hf, hBU, hPC, hcfg, hbus⟩

theorem irq_ends (s : State) : Ends (irq s) (State.Wrote [.S] [.I] true s) (BusErrorInside s) := by
  unfold irq
  split
  · exact ⟨fun r _ => by cases r <;> rfl, fun _ _ => rfl, fun _ _ => .inl rfl, fun _ => rfl, rfl, Bus.Follows.refl s.bus⟩
  · exact enterInterrupt_withCycles_ends ..

theorem nmi_ends (s : State) : Ends (nmi s) (State.Wrote [.S] [.I] true s) (BusErrorInside s) :=
  enterInterrupt_withCycles_ends ..

/-! The invariant. -/

/-- B and U are only ever set, and memory stays canonical, whatever was written. -/
theorem State.Wrote.inv {regs : List Reg} {flags : List Flag} {pc : Bool} {s t : State} (h : State.Wrote regs flags pc s t)
    (hs : s.Inv) : t.Inv where
  memory := h.bus.wf hs.memory
  unused := (h.forced .U (by decide)).elim (fun hU => hU.trans hs.unused) id

theorem State.Fetching.inv {s t : State} (h : s.Fetching t) (hs : s.Inv) : t.Inv where
  memory := h.inside.bus.wf hs.memory
  unused := (congrArg (getFlag .U) h.inside.P).trans hs.unused

/-- Settles O46: the status byte at construction is 0x20 and memory lists nothing. -/
theorem resetMeetsTheInvariant : Obligations.ResetMeetsTheInvariant where
  memory := Memory.wf_nil
  unused := rfl

/-- Settles O47: a fetch keeps the invariant, and so does every instruction. -/
theorem stepKeepsTheInvariant : Obligations.StepKeepsTheInvariant := by
  intro s t hs h
  obtain ⟨i, s1, hfetch, hwrote⟩ := (step_ends s).next h
  exact hwrote.inv (hfetch.inv hs)

/-- The host writes a byte of memory, the log or the ranges: memory stays canonical, and U is not the bus's. -/
theorem State.Inv.withBus {s : State} (hs : s.Inv) {b : Bus} (hb : b.ram.wf = true) : (s.withBus b).Inv := ⟨hb, hs.unused⟩

/-- Settles O48: by the kind of call; `step`, `irq` and `nmi` write no more than their lists, the rest write PC or the bus. -/
theorem hostCallsKeepTheInvariant : Obligations.HostCallsKeepTheInvariant := by
  intro c s t hs h
  cases c with
  | step => exact ⟨stepKeepsTheInvariant s t hs h, fun hc => absurd rfl hc⟩
  | irq => exact ⟨((irq_ends s).next h).inv hs, fun _ hc => absurd rfl hc⟩
  | nmi => exact ⟨((nmi_ends s).next h).inv hs, fun _ _ hc => absurd rfl hc⟩
  | writePC v => cases h; exact ⟨⟨hs.memory, hs.unused⟩, fun _ _ _ => rfl⟩
  | loadByte a v => cases h; exact ⟨hs.withBus (Memory.wf_write _ v a.isLt hs.memory), fun _ _ _ => rfl⟩
  | changeDevices change => cases h; exact ⟨hs.withBus hs.memory, fun _ _ _ => rfl⟩
  | remap noRead noWrite device => cases h; exact ⟨hs.withBus hs.memory, fun _ _ _ => rfl⟩

/-! Errors. -/

/-- On a bus that answers no byte of the instruction fails to be fetched. -/
theorem FetchError.absurd {s : State} {e : Fault} (h : s.BusAnswers) (k : FetchError s e) : False := by
  obtain ⟨-, ⟨t, hfetch, hfails⟩, -⟩ := k
  exact (State.BusAnswers.of_follows (t := t) h hfetch.inside.bus).not_fails _ _ hfails

/-- Settles O50: the bus errors of the fetch and of the instruction are ruled out, which leaves the unassigned opcodes. -/
theorem stepCompletesOrMeetsAnUnassignedOpcode : Obligations.StepCompletesOrMeetsAnUnassignedOpcode := by
  intro s hanswers
  have hends := step_ends s
  cases h : step s with
  | next t => exact .inl ⟨t, rfl⟩
  | refused r => exact absurd h (hends.not_refused r)
  | fault e =>
    obtain hfetch | ⟨s1, hfetch, hbus | ⟨c, hc, rfl⟩⟩ := hends.fault h
    · exact (hfetch.absurd hanswers).elim
    · exact (hbus.absurd (hanswers.of_follows hfetch.inside.bus)).elim
    · exact .inr ⟨c, s1, rfl, hc⟩

/-- Settles O51: each error of a step is of another kind, and no step is refused. -/
theorem stepNeverRaisesAddressingModeError : Obligations.StepNeverRaisesAddressingModeError := by
  intro s
  refine ⟨fun t h => ?_, (step_ends s).not_refused⟩
  obtain ⟨he, -, -⟩ | ⟨s1, -, ⟨⟨_, _, _, -, -, he⟩, -⟩ | ⟨c, -, he⟩⟩ := (step_ends s).fault h
  all_goals cases he

/-- An error of a step leaves what a fetch leaves, then at most S and the bus changed. -/
theorem step_error_after {s : State} {e : Fault} (h : step s = .fault e) : ∃ s1, s.Fetching s1 ∧ s1.Inside e.after := by
  obtain hfetch | ⟨s1, hfetch, hbus | ⟨c, -, rfl⟩⟩ := (step_ends s).fault h
  · exact ⟨e.after, hfetch.after, State.Inside.refl _⟩
  · exact ⟨s1, hfetch, hbus.after⟩
  · exact ⟨s1, hfetch, State.Inside.refl _⟩

/-- Settles O52: registers and flags are written after the last access, so an error leaves a state inside the call. -/
theorem errorsLeaveAXYAndFlags : Obligations.ErrorsLeaveAXYAndFlags := by
  intro s e h
  obtain h | h | h := h
  · obtain ⟨s1, hfetch, hinside⟩ := step_error_after h
    exact ⟨hinside.A.trans hfetch.inside.A, hinside.X.trans hfetch.inside.X, hinside.Y.trans hfetch.inside.Y,
      hinside.P.trans hfetch.inside.P⟩
  · have hinside := ((irq_ends s).fault h).after
    exact ⟨hinside.A, hinside.X, hinside.Y, hinside.P⟩
  · have hinside := ((nmi_ends s).fault h).after
    exact ⟨hinside.A, hinside.X, hinside.Y, hinside.P⟩

/-- Settles O58: a fetch, an instruction and an error keep the parameter, and the bus follows. -/
theorem stepLeavesTheEnvironment : Obligations.StepLeavesTheEnvironment := by
  intro s t h
  obtain ⟨hcfg, hbus⟩ : t.cfg = s.cfg ∧ s.bus.Follows t.bus := by
    obtain h | ⟨e, h, rfl⟩ := h
    · obtain ⟨i, s1, hfetch, hwrote⟩ := (step_ends s).next h
      exact ⟨hwrote.cfg.trans hfetch.inside.cfg, hfetch.inside.bus.trans hwrote.bus⟩
    · obtain ⟨s1, hfetch, hinside⟩ := step_error_after h
      exact ⟨hinside.cfg.trans hfetch.inside.cfg, hfetch.inside.bus.trans hinside.bus⟩
  exact ⟨hcfg, hbus.noRead, hbus.noWrite, hbus.device, hbus.log⟩

end Sys2Proof.Machine
end

section
/-! PROOF. Who writes what (10_state.md R22–R41): the lists of Machine.regsWritten, flagsWritten and writesPC read in the other
direction; O54, O55, O56. -/

namespace Sys2Proof.Machine

variable {i : Instr}

/-! For each register, for each flag and for PC, the instructions whose list has it. -/

theorem writers_of_A (h : .A ∈ regsWritten i) :
    (∃ m, i.mnemonic = some m ∧ m ∈ [Mnemonic.lda, .pla, .txa, .tya, .adc, .sbc, .and, .eor, .ora]) ∨
      i ∈ [Instr.asl .accumulator, .lsr .accumulator, .rol .accumulator, .ror .accumulator] := by
  cases i
  case asl o | lsr o | rol o | ror o => cases o <;> simp [regsWritten] at h ⊢
  all_goals simp [regsWritten, Instr.mnemonic] at h ⊢

/-- The other registers are in no list of a shift, whatever its operand. -/
theorem regsWritten_of_shift {r : Reg} (hr : r ≠ .A) (o : Operand) :
    r ∉ regsWritten (.asl o) ∧ r ∉ regsWritten (.lsr o) ∧ r ∉ regsWritten (.rol o) ∧ r ∉ regsWritten (.ror o) := by
  cases o <;> simp [regsWritten, hr]

theorem writers_of_X (h : .X ∈ regsWritten i) : ∃ m, i.mnemonic = some m ∧ m ∈ [Mnemonic.ldx, .inx, .dex, .tax, .tsx] := by
  cases i
  case asl o | lsr o | rol o | ror o => simp [regsWritten_of_shift] at h
  all_goals simp [regsWritten, Instr.mnemonic] at h ⊢

theorem writers_of_Y (h : .Y ∈ regsWritten i) : ∃ m, i.mnemonic = some m ∧ m ∈ [Mnemonic.ldy, .iny, .dey, .tay] := by
  cases i
  case asl o | lsr o | rol o | ror o => simp [regsWritten_of_shift] at h
  all_goals simp [regsWritten, Instr.mnemonic] at h ⊢

theorem writers_of_S (h : .S ∈ regsWritten i) :
    ∃ m, i.mnemonic = some m ∧ m ∈ [Mnemonic.pha, .php, .pla, .plp, .jsr, .rts, .brk, .rti, .txs] := by
  cases i
  case asl o | lsr o | rol o | ror o => simp [regsWritten_of_shift] at h
  all_goals simp [regsWritten, Instr.mnemonic] at h ⊢

theorem writers_of_C (h : .C ∈ flagsWritten i) : ∃ m, i.mnemonic = some m ∧
    m ∈ [Mnemonic.adc, .sbc, .asl, .lsr, .rol, .ror, .cmp, .cpx, .cpy, .clc, .sec, .plp, .rti] := by
  cases i <;> simp [flagsWritten, Instr.mnemonic] at h ⊢

theorem writers_of_Z_or_N (h : .Z ∈ flagsWritten i ∨ .N ∈ flagsWritten i) : ∃ m, i.mnemonic = some m ∧
    m ∈ [Mnemonic.lda, .ldx, .ldy, .adc, .sbc, .and, .eor, .ora, .asl, .lsr, .rol, .ror, .inc, .dec, .inx, .iny, .dex, .dey,
      .pla, .tax, .tay, .tsx, .txa, .tya, .cmp, .cpx, .cpy, .bit, .plp, .rti] := by
  cases i <;> simp [flagsWritten, Instr.mnemonic] at h ⊢

theorem writers_of_V (h : .V ∈ flagsWritten i) :
    ∃ m, i.mnemonic = some m ∧ m ∈ [Mnemonic.adc, .sbc, .bit, .clv, .plp, .rti] := by
  cases i <;> simp [flagsWritten, Instr.mnemonic] at h ⊢

theorem writers_of_D (h : .D ∈ flagsWritten i) : ∃ m, i.mnemonic = some m ∧ m ∈ [Mnemonic.sed, .cld, .plp, .rti] := by
  cases i <;> simp [flagsWritten, Instr.mnemonic] at h ⊢

theorem writers_of_I (h : .I ∈ flagsWritten i) :
    ∃ m, i.mnemonic = some m ∧ m ∈ [Mnemonic.sei, .cli, .plp, .rti, .brk] := by
  cases i <;> simp [flagsWritten, Instr.mnemonic] at h ⊢

theorem writers_of_B_or_U (h : .B ∈ flagsWritten i ∨ .U ∈ flagsWritten i) :
    ∃ m, i.mnemonic = some m ∧ m ∈ [Mnemonic.plp, .rti] := by
  cases i <;> simp [flagsWritten, Instr.mnemonic] at h ⊢

theorem writers_of_PC (h : writesPC i = true) : ∃ m, i.mnemonic = some m ∧
    m ∈ [Mnemonic.bcc, .bcs, .beq, .bmi, .bne, .bpl, .bvc, .bvs, .jmp, .jsr, .rts, .brk, .rti] := by
  cases i <;> simp [writesPC, Instr.mnemonic] at h ⊢

/-! What differs afterwards is in the instruction's list. -/

variable {s t : State}

theorem mem_regsWritten (h : exec i s = .next t) {r : Reg} (hr : t.reg r ≠ s.reg r) : r ∈ regsWritten i :=
  not_not.mp fun hn => hr (((exec_ends i s).next h).regs r hn)

theorem mem_flagsWritten (h : exec i s = .next t) {f : Flag} (hf : t.flag f ≠ s.flag f) : f ∈ flagsWritten i :=
  not_not.mp fun hn => hf (((exec_ends i s).next h).flags f hn)

/-- Settles O54: a register that differs is in the instruction's list, and the spec's lists are those read by register. -/
theorem onlyTheListedInstructionsWriteARegister : Obligations.OnlyTheListedInstructionsWriteARegister := by
  intro i s t h
  exact ⟨fun hA => writers_of_A (mem_regsWritten h hA), fun hX => writers_of_X (mem_regsWritten h hX),
    fun hY => writers_of_Y (mem_regsWritten h hY), fun hS => writers_of_S (mem_regsWritten h hS)⟩

/-- Settles O55: as for the registers; B and U, where they differ, are set. -/
theorem onlyTheListedInstructionsWriteAFlag : Obligations.OnlyTheListedInstructionsWriteAFlag := by
  intro i s t h
  have hforced := ((exec_ends i s).next h).forced
  refine ⟨fun hC => writers_of_C (mem_flagsWritten h hC), fun hZN => writers_of_Z_or_N ?_,
    fun hV => writers_of_V (mem_flagsWritten h hV), fun hD => writers_of_D (mem_flagsWritten h hD),
    fun hI => writers_of_I (mem_flagsWritten h hI), fun hB => ⟨?_, writers_of_B_or_U (.inl (mem_flagsWritten h hB))⟩,
    fun hU => ⟨?_, writers_of_B_or_U (.inr (mem_flagsWritten h hU))⟩⟩
  · exact hZN.imp (mem_flagsWritten h) (mem_flagsWritten h)
  · exact (hforced .B (by decide)).resolve_left hB
  · exact (hforced .U (by decide)).resolve_left hU

/-- Settles O56: an instruction that does not load PC leaves it. -/
theorem onlyControlFlowWritesPC : Obligations.OnlyControlFlowWritesPC := by
  intro i s t h hPC
  refine writers_of_PC (by_contra fun hn => hPC ?_)
  exact ((exec_ends i s).next h).PC (Bool.eq_false_of_not_eq_true hn)

end Sys2Proof.Machine
end

section
/-! PROOF. What does not look at a flag, whole instructions: a handler whose flag computations neither read nor write a flag
commutes with writing it; O22 (10_state.md R40), and O53 (R39). -/

namespace Sys2Proof.Machine

/-- Run from a state with the flag written, the operation is the same operation with the flag written afterwards. -/
def Commutes (f : Flag) (v : Bool) (op : State → Res State) : Prop :=
  ∀ s, op (s.setFlag f v) = mapRes (flagWritten f v) (flagWritten f v) (op s)

variable {f : Flag} {v : Bool} {m : Mnemonic} {o : Operand}

/-! The flag computations. -/

theorem getFlag_setFlag_of_ne {g : Flag} (h : g ≠ f) (v : Bool) (p : Byte) : getFlag g (setFlag f v p) = getFlag g p := by
  rw [getFlag_setFlag, if_neg h]

theorem setNZ_setFlag (hf : f ∉ [Flag.N, .Z]) (r p : Byte) : setNZ r (setFlag f v p) = setFlag f v (setNZ r p) := by
  obtain ⟨hN, hZ⟩ : f ≠ .N ∧ f ≠ .Z := by simpa using hf
  simp only [setNZ, setFlag_comm hN.symm, setFlag_comm hZ.symm]

theorem setSumFlags_setFlag (hf : f ∉ [Flag.C, .V, .N, .Z]) (r : Sum) (p : Byte) :
    setSumFlags r (setFlag f v p) = setFlag f v (setSumFlags r p) := by
  obtain ⟨hC, hV, hNZ⟩ : f ≠ .C ∧ f ≠ .V ∧ f ∉ [Flag.N, .Z] := by simpa using hf
  simp only [setSumFlags, setFlag_comm hC.symm, setFlag_comm hV.symm, setNZ_setFlag hNZ]

theorem setShiftFlags_setFlag (hf : f ∉ [Flag.C, .N, .Z]) (r : Shifted) (p : Byte) :
    setShiftFlags r (setFlag f v p) = setFlag f v (setShiftFlags r p) := by
  obtain ⟨hC, hNZ⟩ : f ≠ .C ∧ f ∉ [Flag.N, .Z] := by simpa using hf
  simp only [setShiftFlags, setFlag_comm hC.symm, setNZ_setFlag hNZ]

theorem setCompareFlags_setFlag (hf : f ∉ [Flag.C, .Z, .N]) (reg b p : Byte) :
    setCompareFlags reg b (setFlag f v p) = setFlag f v (setCompareFlags reg b p) := by
  obtain ⟨hC, hZ, hN⟩ : f ≠ .C ∧ f ≠ .Z ∧ f ≠ .N := by simpa using hf
  simp only [setCompareFlags, setFlag_comm hC.symm, setFlag_comm hZ.symm, setFlag_comm hN.symm]

theorem setBitFlags_setFlag (hf : f ∉ [Flag.Z, .N, .V]) (a b p : Byte) :
    setBitFlags a b (setFlag f v p) = setFlag f v (setBitFlags a b p) := by
  obtain ⟨hZ, hN, hV⟩ : f ≠ .Z ∧ f ≠ .N ∧ f ≠ .V := by simpa using hf
  simp only [setBitFlags, setFlag_comm hZ.symm, setFlag_comm hN.symm, setFlag_comm hV.symm]

/-! Writes of registers and flags. -/

theorem State.flag_setFlag_of_ne {g : Flag} (h : g ≠ f) (v : Bool) (t : State) : (t.setFlag f v).flag g = t.flag g :=
  getFlag_setFlag_of_ne h v t.P

theorem State.setFlag_withP {p q : Byte} (h : p = Machine.setFlag f v q) (t : State) :
    (t.setFlag f v).withP p = (t.withP q).setFlag f v := by subst h; rfl

theorem State.putNZ_setFlag (hf : f ∉ [Flag.N, .Z]) (r : Reg) (w : Byte) (t : State) :
    (t.setFlag f v).putNZ r w = (t.putNZ r w).setFlag f v := by
  have h := State.setFlag_withP (setNZ_setFlag (v := v) hf w t.P) (t.withReg r w)
  cases r <;> exact h

theorem addToA_setFlag (hf : f ∉ [Flag.C, .V, .N, .Z]) (w : Byte) (t : State) :
    addToA w (t.setFlag f v) = (addToA w t).setFlag f v := by
  have hC : Flag.C ≠ f := by rintro rfl; simp at hf
  have hP : (t.setFlag f v).P = setFlag f v t.P := rfl
  simp only [addToA, State.flag_setFlag_of_ne hC, hP, setSumFlags_setFlag hf]
  rfl

/-! The handlers. -/

theorem readHandler_setFlag {extra : Resolved → Nat} {use : Byte → State → State}
    (huse : ∀ b t, use b (t.setFlag f v) = (use b t).setFlag f v) : Commutes f v (readHandler m extra use o) := by
  intro s
  simp only [readHandler]
  rw [resolve_setFlag]
  refine andThen_mapRes fun r => ?_
  show andThen (operandValue r.1 (r.2.setFlag f v)) _ = _
  rw [operandValue_setFlag]
  refine andThen_mapRes fun r' => ?_
  exact congrArg (fun t => Host.Outcome.next (finish m o (extra r.1) t)) (huse r'.1 r'.2)

theorem storeHandler_setFlag {value : State → Byte} (hvalue : ∀ t, value (t.setFlag f v) = value t) :
    Commutes f v (storeHandler m value o) := by
  intro s
  simp only [storeHandler]
  rw [resolve_setFlag]
  refine andThen_mapRes fun r => ?_
  show andThen (operandAddress r.1 (r.2.setFlag f v)) _ = _
  rw [operandAddress_setFlag]
  refine andThen_mapRes fun a => ?_
  show andThen (memWrite a (value (r.2.setFlag f v)) (r.2.setFlag f v)) _ = _
  rw [hvalue, memWrite_setFlag]
  exact andThen_mapRes fun _ => rfl

theorem modifyMemory_setFlag {result : Byte → State → Byte} {flags : Byte → State → State}
    (hresult : ∀ b t, result b (t.setFlag f v) = result b t)
    (hflags : ∀ b t, flags b (t.setFlag f v) = (flags b t).setFlag f v) (op : Resolved) :
    Commutes f v (modifyMemory result flags op) := by
  intro s
  simp only [modifyMemory]
  rw [operandAddress_setFlag]
  refine andThen_mapRes fun a => ?_
  show andThen (memRead a (s.setFlag f v)) _ = _
  rw [memRead_setFlag]
  refine andThen_mapRes fun r => ?_
  show andThen (memWrite a (result r.1 (r.2.setFlag f v)) (r.2.setFlag f v)) _ = _
  rw [hresult, memWrite_setFlag]
  exact andThen_mapRes fun t => congrArg Host.Outcome.next (hflags r.1 t)

theorem shiftHandler_setFlag {sh : Byte → Bool → Shifted} (hf : f ∉ [Flag.C, .N, .Z]) : Commutes f v (shiftHandler m sh o) := by
  have hC : Flag.C ≠ f := by rintro rfl; simp at hf
  intro s
  simp only [shiftHandler]
  rw [resolve_setFlag]
  refine andThen_mapRes fun r => ?_
  by_cases ho : o.mode = .accumulator
  · simp only [ho, if_true, mapSnd, State.flag_setFlag_of_ne hC]
    exact congrArg (fun t => Host.Outcome.next (finish m o 0 t))
      (State.setFlag_withP (setShiftFlags_setFlag hf _ r.2.P) (r.2.withA _))
  · simp only [ho, if_false, mapSnd]
    rw [modifyMemory_setFlag (fun b t => ?result) (fun b t => ?flags) r.1 r.2]
    · exact andThen_mapRes fun _ => rfl
    case result => rw [State.flag_setFlag_of_ne hC]
    case flags => rw [State.flag_setFlag_of_ne hC]; exact State.setFlag_withP (setShiftFlags_setFlag hf _ t.P) t

theorem incDecHandler_setFlag {count : Byte → Byte} (hf : f ∉ [Flag.N, .Z]) : Commutes f v (incDecHandler m count o) := by
  intro s
  simp only [incDecHandler]
  rw [resolve_setFlag]
  refine andThen_mapRes fun r => ?_
  simp only [mapSnd]
  rw [modifyMemory_setFlag (fun _ _ => rfl) (fun b t => State.setFlag_withP (setNZ_setFlag hf _ t.P) t) r.1 r.2]
  exact andThen_mapRes fun _ => rfl

theorem branchHandler_setFlag {cond : Byte → Bool} (hcond : ∀ p, cond (setFlag f v p) = cond p) :
    Commutes f v (branchHandler m cond o) := by
  intro s
  simp only [branchHandler]
  rw [resolve_setFlag]
  refine andThen_mapRes fun ⟨op, t⟩ => ?_
  have hc : cond (t.setFlag f v).P = cond t.P := hcond t.P
  cases op with
  | addressWithOverflow a c => simp only [mapSnd, hc]; split <;> rfl
  | byte _ | address _ | none => rfl

theorem registerHandler_setFlag {use : State → State} (huse : ∀ t, use (t.setFlag f v) = (use t).setFlag f v) :
    Commutes f v (registerHandler m use) :=
  fun s => congrArg (fun t => Host.Outcome.next (finish m .implied 0 t)) (huse s)

theorem impliedHandler_setFlag {op : State → Res State} (hop : Commutes f v op) : Commutes f v (impliedHandler m op) := by
  intro s
  simp only [impliedHandler]
  rw [hop s]
  exact andThen_mapRes fun _ => rfl

theorem execJmp_setFlag : Commutes f v (execJmp o) := by
  intro s
  simp only [execJmp]
  rw [resolve_setFlag]
  refine andThen_mapRes fun r => ?_
  show andThen (operandAddress r.1 (r.2.setFlag f v)) _ = _
  rw [operandAddress_setFlag]
  exact andThen_mapRes fun _ => rfl

theorem execJsr_setFlag : Commutes f v (execJsr o) := by
  intro s
  simp only [execJsr]
  rw [resolve_setFlag]
  refine andThen_mapRes fun r => ?_
  show andThen (operandAddress r.1 (r.2.setFlag f v)) _ = _
  rw [operandAddress_setFlag]
  refine andThen_mapRes fun _ => ?_
  show andThen (pushWord (r.2.PC - 1) (r.2.setFlag f v)) _ = _
  rw [pushWord_setFlag]
  exact andThen_mapRes fun _ => rfl

theorem pop_then_setFlag {use : Byte × State → State}
    (huse : ∀ r, use (mapSnd (flagWritten f v) r) = (use r).setFlag f v) :
    Commutes f v (fun t => andThen (pop t) fun r => .next (use r)) := by
  intro s
  simp only [pop_setFlag]
  exact andThen_mapRes fun r => congrArg Host.Outcome.next (huse r)

theorem popWord_then_setFlag : Commutes f v (fun t => andThen (popWord t) fun r => .next (r.2.withPC (r.1 + 1))) := by
  intro s
  simp only [popWord_setFlag]
  exact andThen_mapRes fun _ => rfl

/-- An entry does not look at P, but for the image it is given, and writes I alone of it. -/
theorem enterInterrupt_setFlag (hf : f ≠ .I) (ret : Addr) (image : Byte) (vector : Addr) :
    Commutes f v (enterInterrupt ret image vector) := by
  intro s
  simp only [enterInterrupt]
  rw [pushWord_setFlag]
  refine andThen_mapRes fun s1 => ?_
  rw [push_setFlag]
  refine andThen_mapRes fun s2 => ?_
  rw [read16_setFlag]
  refine andThen_mapRes fun r => ?_
  exact congrArg (fun t : State => Host.Outcome.next (t.withPC r.1))
    (State.setFlag_withP (setFlag_comm hf.symm true v r.2.P) r.2)

/-- Settles O22: of the flags ADC and SBC read the carry alone, and they write four, of which D is none. -/
theorem addAndSubtractIgnoreDecimal : Obligations.AddAndSubtractIgnoreDecimal := by
  intro o s d
  simp only [mapStates_eq, exec_adc, exec_sbc]
  exact ⟨readHandler_setFlag (fun b t => addToA_setFlag (by decide) b t) s,
    readHandler_setFlag (fun b t => addToA_setFlag (by decide) (~~~ b) t) s⟩

/-! The register's B. -/

/-- An answer or an error but for the register's B. -/
abbrev exceptB (x : Res State) : Res State := mapStates (fun t => t.setFlag .B false) x

theorem State.setFlag_setFlag (w : Bool) (t : State) : (t.setFlag f v).setFlag f w = t.setFlag f w :=
  congrArg t.withP (Machine.setFlag_setFlag f w v t.P)

/-- A sequence whose first half commutes with writing B, and whose second half does not depend on it but for B. -/
theorem exceptB_andThen {α : Type} {g : α → α} {x : Res α} {k : α → Res State} (h : ∀ a, exceptB (k (g a)) = exceptB (k a)) :
    exceptB (andThen (mapRes g (flagWritten .B v) x) k) = exceptB (andThen x k) := by
  cases x with
  | next a => exact h a
  | refused r => rfl
  | fault e =>
    cases e <;> simp only [mapRes, Fault.mapAfter, andThen_fault, exceptB, mapStates, State.setFlag_setFlag]

theorem Commutes.exceptB {op : State → Res State} (h : Commutes .B v op) (s : State) :
    exceptB (op (s.setFlag .B v)) = Machine.exceptB (op s) := by
  rw [h s]
  cases op s with
  | next t => simp only [mapRes, Machine.exceptB, mapStates, State.setFlag_setFlag]
  | refused r => rfl
  | fault e => cases e <;> simp only [mapRes, Fault.mapAfter, Machine.exceptB, mapStates, State.setFlag_setFlag]

/-- The end of a handler does not look at P. -/
theorem exceptB_impliedHandler (m : Mnemonic) (op : State → Res State) (s : State) :
    exceptB (impliedHandler m op s) = andThen (exceptB (op s)) fun t => .next (finish m .implied 0 t) := by
  rw [impliedHandler]
  cases op s <;> rfl

theorem impliedHandler_exceptB {op : State → Res State} {s : State} (h : exceptB (op (s.setFlag .B v)) = exceptB (op s)) :
    exceptB (impliedHandler m op (s.setFlag .B v)) = exceptB (impliedHandler m op s) := by
  rw [exceptB_impliedHandler, h, ← exceptB_impliedHandler]

/-- PLP overwrites the whole of P, B included (R173). -/
theorem pop_then_restored_exceptB (s : State) :
    exceptB (andThen (pop (s.setFlag .B v)) fun r => .next (r.2.withP (restoredStatus r.1))) =
      exceptB (andThen (pop s) fun r => .next (r.2.withP (restoredStatus r.1))) := by
  rw [pop_setFlag]
  exact exceptB_andThen fun _ => rfl

/-- So does RTI (R191). -/
theorem returnFromInterrupt_exceptB (s : State) :
    exceptB (returnFromInterrupt (s.setFlag .B v)) = exceptB (returnFromInterrupt s) := by
  simp only [returnFromInterrupt]
  rw [pop_setFlag]
  refine exceptB_andThen fun r => ?_
  show exceptB (andThen (popWord (r.2.setFlag .B v)) _) = _
  rw [popWord_setFlag]
  exact exceptB_andThen fun _ => rfl

/-- PHP and BRK push an image in which B is 1 whatever the register holds (R39, R171, R190). -/
theorem push_imageWithBreak_setFlag : Commutes .B v (fun t => push (imageWithBreak t.P) t) := by
  intro s
  have hP : (s.setFlag .B v).P = setFlag .B v s.P := rfl
  simp only [hP, imageWithBreak_setFlag_B]
  exact push_setFlag .B v s _

theorem enterInterrupt_imageWithBreak_setFlag (vector : Addr) :
    Commutes .B v (fun t => enterInterrupt (t.PC + 1) (imageWithBreak t.P) vector t) := by
  intro s
  have hP : (s.setFlag .B v).P = setFlag .B v s.P := rfl
  simp only [hP, imageWithBreak_setFlag_B]
  exact enterInterrupt_setFlag (by decide) (s.PC + 1) _ vector s

/-- No instruction depends on B but for what it leaves of B. -/
theorem exec_exceptB (i : Instr) (v : Bool) (s : State) : exceptB (exec i (s.setFlag .B v)) = exceptB (exec i s) := by
  cases i
  case lda | ldx | ldy | and | eor | ora =>
    simp only [exec_lda, exec_ldx, exec_ldy, exec_and, exec_eor, exec_ora]
    exact Commutes.exceptB (readHandler_setFlag fun b t => State.putNZ_setFlag (by decide) _ _ t) s
  case adc | sbc =>
    simp only [exec_adc, exec_sbc]
    exact Commutes.exceptB (readHandler_setFlag fun b t => addToA_setFlag (by decide) _ t) s
  case cmp | cpx | cpy =>
    simp only [exec_cmp, exec_cpx, exec_cpy]
    exact Commutes.exceptB (readHandler_setFlag fun b t =>
      State.setFlag_withP (setCompareFlags_setFlag (by decide) _ b t.P) t) s
  case bit =>
    simp only [exec_bit]
    exact Commutes.exceptB (readHandler_setFlag fun b t =>
      State.setFlag_withP (setBitFlags_setFlag (by decide) _ b t.P) t) s
  case sta | stx | sty =>
    simp only [exec_sta, exec_stx, exec_sty]
    exact Commutes.exceptB (storeHandler_setFlag fun _ => rfl) s
  case asl | lsr | rol | ror =>
    simp only [exec_asl, exec_lsr, exec_rol, exec_ror]
    exact Commutes.exceptB (shiftHandler_setFlag (by decide)) s
  case inc | dec =>
    simp only [exec_inc, exec_dec]
    exact Commutes.exceptB (incDecHandler_setFlag (by decide)) s
  case bcc | bcs | beq | bmi | bne | bpl | bvc | bvs =>
    simp only [exec_bcc, exec_bcs, exec_beq, exec_bmi, exec_bne, exec_bpl, exec_bvc, exec_bvs]
    exact Commutes.exceptB (branchHandler_setFlag fun p => by simp) s
  case jmp => exact Commutes.exceptB execJmp_setFlag s
  case jsr => exact Commutes.exceptB execJsr_setFlag s
  case tax | tay | tsx | txa | tya | inx | iny | dex | dey =>
    simp only [exec_tax, exec_tay, exec_tsx, exec_txa, exec_tya, exec_inx, exec_iny, exec_dex, exec_dey]
    exact Commutes.exceptB (registerHandler_setFlag fun t => State.putNZ_setFlag (by decide) _ _ t) s
  case txs | nop =>
    simp only [exec_txs, exec_nop]
    exact Commutes.exceptB (registerHandler_setFlag fun t => rfl) s
  case clc | cld | cli | clv | sec | sed | sei =>
    simp only [exec_clc, exec_cld, exec_cli, exec_clv, exec_sec, exec_sed, exec_sei]
    exact Commutes.exceptB (registerHandler_setFlag fun t => State.setFlag_withP (setFlag_comm (by decide) _ _ t.P) t) s
  case pha =>
    simp only [exec_pha]
    exact Commutes.exceptB (impliedHandler_setFlag fun t => push_setFlag .B v t t.A) s
  case php =>
    simp only [exec_php]
    exact Commutes.exceptB (impliedHandler_setFlag push_imageWithBreak_setFlag) s
  case pla =>
    simp only [exec_pla]
    exact Commutes.exceptB (impliedHandler_setFlag (pop_then_setFlag fun r => State.putNZ_setFlag (by decide) _ _ r.2)) s
  case plp =>
    simp only [exec_plp]
    exact impliedHandler_exceptB (pop_then_restored_exceptB s)
  case rts =>
    simp only [exec_rts]
    exact Commutes.exceptB (impliedHandler_setFlag popWord_then_setFlag) s
  case brk =>
    simp only [exec_brk]
    exact Commutes.exceptB (impliedHandler_setFlag (enterInterrupt_imageWithBreak_setFlag _)) s
  case rti =>
    simp only [exec_rti]
    exact impliedHandler_exceptB (returnFromInterrupt_exceptB s)
  case unimplemented => exact Commutes.exceptB (fun _ => rfl) s

/-! The fetch and the interrupt calls. -/

theorem fetchInstr_setFlag (s : State) :
    fetchInstr (s.setFlag f v) = mapRes (mapSnd (flagWritten f v)) (flagWritten f v) (fetchInstr s) := by
  unfold fetchInstr
  rw [fetchByte_setFlag]
  refine andThen_mapRes fun ⟨c, s1⟩ => ?_
  obtain hn | hn | hn := operandBytesOf_cases c <;> simp only [mapSnd, hn]
  · rfl
  · rw [fetchByte_setFlag]
    exact andThen_mapRes fun _ => rfl
  · rw [fetchByte_setFlag]
    refine andThen_mapRes fun r1 => ?_
    show andThen (fetchByte (r1.2.setFlag f v)) _ = _
    rw [fetchByte_setFlag]
    exact andThen_mapRes fun _ => rfl

theorem enterInterrupt_imageWithoutBreak_setFlag (vector : Addr) (n : Nat) :
    Commutes .B v fun t =>
      andThen (enterInterrupt t.PC (imageWithoutBreak t.P) vector t) fun u => .next (u.withCycles n) := by
  intro s
  have hP : (s.setFlag .B v).P = setFlag .B v s.P := rfl
  have henter := enterInterrupt_setFlag (f := .B) (v := v) (by decide) s.PC (imageWithoutBreak s.P) vector s
  simp only [hP, imageWithoutBreak_setFlag_B]
  exact (congrArg (fun x => andThen x _) henter).trans (andThen_mapRes fun _ => rfl)

/-- A masked or a taken IRQ: the mask is I, the image does not show B (R210). -/
theorem irq_setFlag : Commutes .B v irq := by
  intro s
  unfold irq
  rw [State.flag_setFlag_of_ne (by decide)]
  split
  · rfl
  · exact enterInterrupt_imageWithoutBreak_setFlag _ _ s

/-- Settles O53: the fetch and the interrupt calls commute with writing B; so does every instruction but PLP and RTI, which
overwrite it. -/
theorem breakFlagIsNeverRead : Obligations.BreakFlagIsNeverRead := by
  intro s v
  refine ⟨?step, irq_setFlag.exceptB s, ?nmi⟩
  case step =>
    unfold step
    rw [fetchInstr_setFlag]
    exact exceptB_andThen fun r => exec_exceptB r.1 v r.2
  case nmi => exact (enterInterrupt_imageWithoutBreak_setFlag _ _).exceptB s

end Sys2Proof.Machine
end

section
/-! PROOF. The cycle count (70_reset_and_hazards.md R251; 30_encoding.md R88, R90): what each shape of handler reports once the
resolver has answered, and O57. -/

namespace Sys2Proof.Machine

/-- The flag a branch tests and the value it is taken on (R154–R161). -/
def branchTest : Mnemonic → Option (Flag × Bool)
  | .bcc => some (.C, false)
  | .bcs => some (.C, true)
  | .beq => some (.Z, true)
  | .bmi => some (.N, true)
  | .bne => some (.Z, false)
  | .bpl => some (.N, false)
  | .bvc => some (.V, false)
  | .bvs => some (.V, true)
  | _ => none

/-- The read-class handlers that take one cycle more on a page crossing (R88; decision D4). -/
def pageCrossing : List Mnemonic := [.lda, .ldx, .ldy, .adc, .sbc, .and, .eor, .ora, .cmp]

/-- The cycles a handler adds to its base cost, from the resolved operand and the flags it starts with (R90, R153). -/
def extraCycles (m : Mnemonic) (op : Resolved) (s : State) : Nat :=
  match branchTest m with
  | some (f, v) => if s.flag f = v then (if pageCross op then 2 else 1) else 0
  | none => if m ∈ pageCrossing then pageCrossExtra op else 0

section Shapes

variable {m : Mnemonic} {o : Operand} {s s1 t : State} {op : Resolved}

theorem readHandler_cycles {extra : Resolved → Nat} {use : Byte → State → State} (h0 : resolve o s = .next (op, s1))
    (h : readHandler m extra use o s = .next t) : t.cycles = baseCycles m o.mode + extra op := by
  simp only [readHandler, h0, andThen_next, andThen_eq_next] at h
  obtain ⟨r, -, h⟩ := h
  cases h
  rfl

theorem storeHandler_cycles {value : State → Byte} (h : storeHandler m value o s = .next t) :
    t.cycles = baseCycles m o.mode := by
  obtain ⟨u, -, -, rfl⟩ := (storeHandler_ends value).next h
  rfl

theorem shiftHandler_cycles {f : Byte → Bool → Shifted} (h : shiftHandler m f o s = .next t) :
    t.cycles = baseCycles m o.mode := by
  obtain ⟨u, r, -, -, rfl | ⟨-, rfl⟩⟩ := (shiftHandler_ends f).next h
  all_goals rfl

theorem incDecHandler_cycles {f : Byte → Byte} (h : incDecHandler m f o s = .next t) : t.cycles = baseCycles m o.mode := by
  obtain ⟨u, r, -, -, rfl⟩ := (incDecHandler_ends f).next h
  rfl

theorem branchHandler_cycles {cond : Byte → Bool} {f : Flag} {v : Bool} (hcond : ∀ p, cond p = true ↔ getFlag f p = v)
    (h0 : resolve o s = .next (op, s1)) (h : branchHandler m cond o s = .next t) :
    t.cycles = baseCycles m o.mode + if s.flag f = v then (if pageCross op then 2 else 1) else 0 := by
  have hflag : getFlag f s1.P = s.flag f := (resolve_onlyRead h0).flag f
  simp only [branchHandler, h0, andThen_next, hcond, hflag] at h
  cases op with
  | addressWithOverflow a c =>
    simp only at h
    split at h <;> rename_i htaken <;> cases h
    · rw [if_pos htaken]; rfl
    · rw [if_neg htaken]; rfl
  | byte _ | address _ | none => cases h

theorem registerHandler_cycles {f : State → State} (h : registerHandler m f s = .next t) :
    t.cycles = baseCycles m .implied := by
  cases h
  rfl

theorem impliedHandler_cycles {f : State → Res State} (h : impliedHandler m f s = .next t) :
    t.cycles = baseCycles m .implied := by
  obtain ⟨u, -, h⟩ := (andThen_eq_next _ _).mp h
  cases h
  rfl

theorem execJmp_cycles (h : execJmp o s = .next t) : t.cycles = baseCycles .jmp o.mode := by
  simp only [execJmp, andThen_eq_next] at h
  obtain ⟨r, -, a, -, h⟩ := h
  cases h
  rfl

theorem execJsr_cycles (h : execJsr o s = .next t) : t.cycles = baseCycles .jsr o.mode := by
  simp only [execJsr, andThen_eq_next] at h
  obtain ⟨r, -, a, -, u, -, h⟩ := h
  cases h
  rfl

end Shapes

/-- The cycle count of an instruction that completes, well-formed or not. -/
theorem exec_cycles {i : Instr} {m : Mnemonic} {s s1 t : State} {op : Resolved} (hm : i.mnemonic = some m)
    (h0 : resolve i.operand s = .next (op, s1)) (h : exec i s = .next t) :
    t.cycles = baseCycles m i.operand.mode + extraCycles m op s := by
  cases i <;> cases hm
  case lda | ldx | ldy | adc | sbc | and | eor | ora | cmp | cpx | cpy | bit =>
    simp only [exec_lda, exec_ldx, exec_ldy, exec_adc, exec_sbc, exec_and, exec_eor, exec_ora, exec_cmp, exec_cpx, exec_cpy,
      exec_bit] at h
    exact readHandler_cycles h0 h
  case sta | stx | sty =>
    simp only [exec_sta, exec_stx, exec_sty] at h
    exact storeHandler_cycles h
  case asl | lsr | rol | ror =>
    simp only [exec_asl, exec_lsr, exec_rol, exec_ror] at h
    exact shiftHandler_cycles h
  case inc | dec =>
    simp only [exec_inc, exec_dec] at h
    exact incDecHandler_cycles h
  case bcc | bne | bpl | bvc =>
    simp only [exec_bcc, exec_bne, exec_bpl, exec_bvc] at h
    exact branchHandler_cycles (fun p => by simp) h0 h
  case bcs | beq | bmi | bvs =>
    simp only [exec_bcs, exec_beq, exec_bmi, exec_bvs] at h
    exact branchHandler_cycles (fun p => Iff.rfl) h0 h
  case jmp => exact execJmp_cycles h
  case jsr => exact execJsr_cycles h
  case pha | php | pla | plp | rts | brk | rti =>
    simp only [exec_pha, exec_php, exec_pla, exec_plp, exec_rts, exec_brk, exec_rti] at h
    exact impliedHandler_cycles h
  case tax | tay | tsx | txa | txs | tya | inx | iny | dex | dey | clc | cld | cli | clv | sec | sed | sei | nop =>
    simp only [exec_tax, exec_tay, exec_tsx, exec_txa, exec_txs, exec_tya, exec_inx, exec_iny, exec_dex, exec_dey, exec_clc,
      exec_cld, exec_cli, exec_clv, exec_sec, exec_sed, exec_sei, exec_nop] at h
    exact registerHandler_cycles h

/-- The base costs of the dispatch table are those of the cost column, for every handler in each of its modes. -/
theorem costColumn_agrees (m : Mnemonic) : m.modes.all (fun mode =>
    costColumn.any fun row => row.1.contains m && row.2.contains (mode, baseCycles m mode)) = true := by
  cases m <;> decide

/-- Settles O57: the cost column by the table, the extra cycles by the handler. -/
theorem cyclesAreBasePlusExtra : Obligations.CyclesAreBasePlusExtra := by
  intro i m s s1 t op hm hw h0 h
  refine ⟨_, extraCycles m op s, exec_cycles hm h0 h, rfl, ?column, fun hread => ?read, fun f v hbranch => ?branch,
    fun hother => ?other⟩
  case column => simpa using of_modes hw hm (costColumn_agrees m)
  case read => cases m <;> simp [extraCycles, branchTest, pageCrossing, pageCrossExtra] at hread ⊢
  case branch => cases m <;> simp [extraCycles, branchTest] at hbranch ⊢ <;> simp [hbranch]
  case other => cases m <;> simp [extraCycles, branchTest, pageCrossing] at hother ⊢

end Sys2Proof.Machine
end

section
/-! PROOF. The resolver (30_encoding.md R71–R85): addresses as numbers, the pointers in and out of the zero page; O5 to O10. -/

namespace Sys2Proof.Machine

/-! Addresses as numbers. -/

theorem zeroPage_toNat (t : Byte) : (zeroPage t).toNat = t.toNat := by
  have := t.isLt
  rw [zeroPage, BitVec.toNat_setWidth, Nat.mod_eq_of_lt (by omega)]

/-- A zero-page address is known by its number. -/
theorem eq_zeroPage {a : Addr} {t : Byte} (h : a.toNat = t.toNat) : a = zeroPage t :=
  BitVec.eq_of_toNat_eq (h.trans (zeroPage_toNat t).symm)

theorem toNat_add_setWidth (base : Addr) (index : Byte) :
    (base + index.setWidth 16).toNat = (base.toNat + index.toNat) % 65536 := by
  rw [BitVec.toNat_add, ← zeroPage_toNat index, zeroPage]

/-- The carry out of the low byte is a change of page, also where the address wraps (R80). -/
theorem indexed_crosses (base : Addr) (index : Byte) :
    (decide ((loByte base).toNat + index.toNat > 0xFF) = true ↔ base.toNat % 256 + index.toNat > 0xFF) ∧
      (decide ((loByte base).toNat + index.toNat > 0xFF) = true ↔
        (base + index.setWidth 16).toNat / 256 ≠ base.toNat / 256) := by
  have hbase := base.isLt
  have hindex := index.isLt
  rw [toNat_add_setWidth, loByte_toNat, decide_eq_true_iff]
  omega

/-- Where JMP reads the high byte of its target, as a number (R82). -/
theorem pointerHighAddr_toNat (cfg : Config) (ptr : Addr) :
    (pointerHighAddr cfg ptr).toNat =
      if cfg.jmpIndirectPageWrap then ptr.toNat / 256 * 256 + (ptr.toNat + 1) % 256 else (ptr.toNat + 1) % 65536 := by
  unfold pointerHighAddr
  split
  · have hone : (1 : Byte).toNat = 1 := rfl
    rw [word_toNat, hiByte_toNat, BitVec.toNat_add, loByte_toNat, hone]
    omega
  · exact BitVec.toNat_add ptr 1

/-- The target of a branch: the signed displacement added modulo 65,536 (R85). -/
theorem relative_toNat (pc : Addr) (d : Byte) :
    ((pc + d.signExtend 16).toNat : Int) = ((pc.toNat : Int) + d.toInt) % 65536 := by
  have hd : (d.signExtend 16).toInt = d.toInt := BitVec.toInt_signExtend_of_le (by omega)
  have hext := (d.signExtend 16).isLt
  rw [← hd, BitVec.toNat_add, BitVec.toInt_eq_toNat_cond]
  omega

theorem hiByte_bne_iff (a b : Addr) : (hiByte a != hiByte b) = true ↔ a.toNat / 256 ≠ b.toNat / 256 := by
  rw [bne_iff_ne, ne_eq, BitVec.toNat_inj.symm, hiByte_toNat, hiByte_toNat]

/-! The two pointers. -/

variable {s : State} {lo hi : Byte} {b1 b2 : Bus}

theorem readZeroPagePointer_of_accesses {t : Byte} (h1 : s.bus.read (zeroPage t) = (some lo, b1))
    (h2 : b1.read (zeroPage (t + 1)) = (some hi, b2)) : readZeroPagePointer t s = .next (word hi lo, s.withBus b2) := by
  simp only [readZeroPagePointer, memRead_of_some h1, andThen_next]
  simp only [memRead_of_some (s := s.withBus b1) h2, andThen_next]
  rfl

theorem readIndirect_of_accesses {ptr : Addr} (h1 : s.bus.read ptr = (some lo, b1))
    (h2 : b1.read (pointerHighAddr s.cfg ptr) = (some hi, b2)) : readIndirect ptr s = .next (word hi lo, s.withBus b2) := by
  have h2' : (s.withBus b1).bus.read (pointerHighAddr (s.withBus b1).cfg ptr) = (some hi, b2) := h2
  simp only [readIndirect, memRead_of_some h1, andThen_next, memRead_of_some h2']
  rfl

/-! A pointer read that fails ends every instruction with that operand. -/

section Fails

variable {i : Instr} {e : Fault}

theorem exec_xIndexIndirect_fails {b : Byte} (hi : i.operand = .xIndexIndirect b)
    (h : readZeroPagePointer (b + s.X) s = .fault e) : exec i s = .fault e :=
  exec_of_resolve_fault (by rw [hi, resolve, h, andThen_fault])

theorem exec_indirectYIndex_fails {b : Byte} (hi : i.operand = .indirectYIndex b)
    (h : readZeroPagePointer b s = .fault e) : exec i s = .fault e :=
  exec_of_resolve_fault (by rw [hi, resolve, h, andThen_fault])

theorem exec_indirect_fails {ptr : Addr} (hi : i.operand = .indirect ptr) (h : readIndirect ptr s = .fault e) :
    exec i s = .fault e :=
  exec_of_resolve_fault (by rw [hi, resolve, h, andThen_fault])

end Fails

/-- Settles O5: each mode and helper by its case; the zero-page addresses as numbers, the two address shapes by one read. -/
theorem plainModesAndOperandHelpers : Obligations.PlainModesAndOperandHelpers := by
  intro s b a
  refine ⟨rfl, rfl, rfl, rfl, ⟨_, rfl, zeroPage_toNat b⟩, ⟨_, rfl, ?byX⟩, ⟨_, rfl, ?byY⟩, ⟨rfl, rfl, rfl⟩, ⟨rfl, rfl, rfl⟩,
    fun crossed op hop => ?address⟩
  case byX => rw [zeroPage_toNat, BitVec.toNat_add]
  case byY => rw [zeroPage_toNat, BitVec.toNat_add]
  case address =>
    obtain ⟨rfl, rfl⟩ | rfl := hop
    all_goals exact ⟨rfl, rfl, fun _ _ => memRead_of_some, fun _ => memRead_of_none⟩

/-- Settles O6: the sum, and the two wordings of the crossing, whichever register is the index. -/
theorem indexedAbsoluteAddressAndCrossing : Obligations.IndexedAbsoluteAddressAndCrossing := by
  intro s base
  exact ⟨⟨_, _, rfl, toNat_add_setWidth base s.X, indexed_crosses base s.X⟩,
    ⟨_, _, rfl, toNat_add_setWidth base s.Y, indexed_crosses base s.Y⟩⟩

/-- Settles O7: the two addresses are the zero-page ones the resolver reads. -/
theorem xIndexIndirectPointerWrapsInZeroPage : Obligations.XIndexIndirectPointerWrapsInZeroPage := by
  intro s b low high hlow hhigh
  obtain rfl : low = zeroPage (b + s.X) := eq_zeroPage (hlow.trans (BitVec.toNat_add b s.X).symm)
  obtain rfl : high = zeroPage (b + s.X + 1) := eq_zeroPage (by rw [hhigh, BitVec.toNat_add, BitVec.toNat_add]; simp)
  refine ⟨fun i b1 hi h1 => ?lowFails, fun lo b1 h1 => ⟨fun i b2 hi h2 => ?highFails, fun hi b2 h2 => ?resolves⟩⟩
  case lowFails => exact exec_xIndexIndirect_fails hi (readZeroPagePointer_low_fails h1)
  case highFails => exact exec_xIndexIndirect_fails hi (readZeroPagePointer_high_fails h1 h2)
  case resolves =>
    rw [resolve, readZeroPagePointer_of_accesses h1 h2, andThen_next, word_eq_ofNat]
    rfl

/-- Settles O8: the pointer as for O7, then the index as for O6. -/
theorem indirectYIndexAddressAndCrossing : Obligations.IndirectYIndexAddressAndCrossing := by
  intro s b low high hlow hhigh
  obtain rfl : low = zeroPage b := eq_zeroPage hlow
  obtain rfl : high = zeroPage (b + 1) := eq_zeroPage (hhigh.trans (BitVec.toNat_add b 1).symm)
  refine ⟨fun i b1 hi h1 => ?lowFails, fun lo b1 h1 => ⟨fun i b2 hi h2 => ?highFails, fun hi b2 h2 => ?resolves⟩⟩
  case lowFails => exact exec_indirectYIndex_fails hi (readZeroPagePointer_low_fails h1)
  case highFails => exact exec_indirectYIndex_fails hi (readZeroPagePointer_high_fails h1 h2)
  case resolves =>
    refine ⟨word hi lo + s.Y.setWidth 16, decide ((loByte (word hi lo)).toNat + s.Y.toNat > 0xFF), ?_, ?_, ?_⟩
    · rw [resolve, readZeroPagePointer_of_accesses h1 h2, andThen_next]
      rfl
    · rw [toNat_add_setWidth, word_toNat]
    · rw [lo_word, decide_eq_true_iff]

/-- Settles O9: the high byte's address is the one the resolver reads, for either value of the parameter. -/
theorem indirectPointerFollowsThePageWrapParameter : Obligations.IndirectPointerFollowsThePageWrapParameter := by
  intro s ptr high hhigh
  obtain rfl : high = pointerHighAddr s.cfg ptr :=
    BitVec.eq_of_toNat_eq (hhigh.trans (pointerHighAddr_toNat s.cfg ptr).symm)
  refine ⟨fun i b1 hi h1 => ?lowFails, fun lo b1 h1 => ⟨fun i b2 hi h2 => ?highFails, fun hi b2 h2 => ?resolves⟩⟩
  case lowFails => exact exec_indirect_fails hi (readIndirect_low_fails h1)
  case highFails => exact exec_indirect_fails hi (readIndirect_high_fails h1 h2)
  case resolves =>
    rw [resolve, readIndirect_of_accesses h1 h2, andThen_next, word_eq_ofNat]
    rfl

/-- Settles O10: the target as a number, and pages as quotients by 256. -/
theorem relativeTargetAndCrossing : Obligations.RelativeTargetAndCrossing := by
  intro s d
  exact ⟨_, _, rfl, relative_toNat s.PC d, hiByte_bne_iff _ _⟩

end Sys2Proof.Machine
end

section
/-! PROOF. The step engine (30_encoding.md R90; 60_exceptions.md R201): the fetch where its bytes are plain memory, where a read
fails and where the opcode is unassigned; O11 to O14. -/

namespace Sys2Proof.Machine

variable {s : State} {i : Instr} {c b1 b2 : Byte} {b b' b'' : Bus}

theorem step_of_fetch {s1 : State} (h : fetchInstr s = .next (i, s1)) : step s = exec i s1 := by
  rw [step, h, andThen_next]

theorem step_of_fetch_fault {e : Fault} (h : fetchInstr s = .fault e) : step s = .fault e := by
  rw [step, h, andThen_fault]

/-- A byte of plain memory is fetched with no effect but on PC. -/
theorem fetchByte_plain (h : s.PlainMemory s.PC) : fetchByte s = .next (s.byteAt s.PC, s.withPC (s.PC + 1)) :=
  fetchByte_of_some (Bus.read_plain h.1 h.2)

/-- Where the bytes at PC are plain memory, the fetch answers the instruction they decode to, PC after it. -/
theorem fetchInstr_plain {rest : List Byte}
    (hdecode : decode [s.byteAt s.PC, s.byteAt (s.PC + 1), s.byteAt (s.PC + 2)] = .ok (i, rest))
    (hplain : ∀ k, k < i.length → s.PlainMemory (s.PC + BitVec.ofNat 16 k)) :
    fetchInstr s = .next (i, s.withPC (s.PC + BitVec.ofNat 16 i.length)) := by
  have h2 : s.PC + 1 + 1 = s.PC + 2 := BitVec.add_assoc ..
  have h3 : s.PC + 2 + 1 = s.PC + 3 := BitVec.add_assoc ..
  have fetch0 (h : s.PlainMemory (s.PC + 0#16)) : fetchByte s = .next (s.byteAt s.PC, s.withPC (s.PC + 1)) :=
    fetchByte_plain (by rwa [BitVec.add_zero] at h)
  have fetch1 (h : s.PlainMemory (s.PC + 1)) :
      fetchByte (s.withPC (s.PC + 1)) = .next (s.byteAt (s.PC + 1), s.withPC (s.PC + 2)) := by
    rw [← h2]; exact fetchByte_plain (s := s.withPC (s.PC + 1)) h
  have fetch2 (h : s.PlainMemory (s.PC + 2)) :
      fetchByte (s.withPC (s.PC + 2)) = .next (s.byteAt (s.PC + 2), s.withPC (s.PC + 3)) := by
    rw [← h3]; exact fetchByte_plain (s := s.withPC (s.PC + 2)) h
  obtain hn | hn | hn := operandBytesOf_cases (s.byteAt s.PC)
  all_goals
    simp only [decode, hn, Except.ok.injEq, Prod.mk.injEq] at hdecode
    obtain ⟨rfl, -⟩ := hdecode
    rw [instrOf_length, hn] at hplain ⊢
  · simp only [fetchInstr, fetch0 (hplain 0 (by omega)), andThen_next, hn]
    rfl
  · simp only [fetchInstr, fetch0 (hplain 0 (by omega)), fetch1 (hplain 1 (by omega)), andThen_next, hn]
    rfl
  · simp only [fetchInstr, fetch0 (hplain 0 (by omega)), fetch1 (hplain 1 (by omega)), fetch2 (hplain 2 (by omega)),
      andThen_next, hn]
    rfl

/-- Settles O11: by the fetch of plain memory. -/
theorem stepRunsTheDecodedInstruction : Obligations.StepRunsTheDecodedInstruction :=
  fun _ _ _ hdecode hplain => step_of_fetch (fetchInstr_plain hdecode hplain)

/-! Where a fetch fails. -/

theorem fetchInstr_opcode_fails (h : s.bus.read s.PC = (none, b)) :
    fetchInstr s = .fault (.busError .invalidRead s.PC (s.withBus b)) := by
  rw [fetchInstr, fetchByte_of_none h, andThen_fault]

theorem fetchInstr_first_operand_fails (h0 : s.bus.read s.PC = (some c, b)) (hn : 1 ≤ operandBytesOf c)
    (h1 : b.read (s.PC + 1) = (none, b')) :
    fetchInstr s = .fault (.busError .invalidRead (s.PC + 1) ((s.withPC (s.PC + 1)).withBus b')) := by
  have hfetch := fetchByte_of_none (s := (s.withBus b).withPC (s.PC + 1)) h1
  obtain hc | hc | hc := operandBytesOf_cases c
  · omega
  all_goals
    simp only [fetchInstr, fetchByte_of_some h0, andThen_next, hc, hfetch, andThen_fault]
    rfl

theorem fetchInstr_second_operand_fails (h0 : s.bus.read s.PC = (some c, b)) (hn : operandBytesOf c = 2)
    (h1 : b.read (s.PC + 1) = (some b1, b')) (h2 : b'.read (s.PC + 2) = (none, b'')) :
    fetchInstr s = .fault (.busError .invalidRead (s.PC + 2) ((s.withPC (s.PC + 2)).withBus b'')) := by
  have hPC : s.PC + 1 + 1 = s.PC + 2 := BitVec.add_assoc ..
  have hfirst := fetchByte_of_some (s := (s.withBus b).withPC (s.PC + 1)) h1
  rw [← hPC] at h2 ⊢
  have hsecond := fetchByte_of_none (s := (((s.withBus b).withPC (s.PC + 1)).withBus b').withPC (s.PC + 1 + 1)) h2
  simp only [fetchInstr, fetchByte_of_some h0, andThen_next, hn, hfirst, State.withPC_PC, hsecond, andThen_fault]
  rfl

/-- Settles O12: a step ends as its fetch does. -/
theorem failingFetchLeavesPCAtTheByte : Obligations.FailingFetchLeavesPCAtTheByte := by
  intro s
  refine ⟨fun b h0 => ?opcode, fun c b h0 => ⟨fun b' hn h1 => ?first, fun b1 b' hn h1 b'' h2 => ?second⟩⟩
  case opcode => exact step_of_fetch_fault (fetchInstr_opcode_fails h0)
  case first => exact step_of_fetch_fault (fetchInstr_first_operand_fails h0 hn h1)
  case second => exact step_of_fetch_fault (fetchInstr_second_operand_fails h0 hn h1 h2)

/-- An unassigned opcode is fetched alone (R194). -/
theorem fetchInstr_unassigned (h : s.bus.read s.PC = (some c, b)) (hc : c ∈ unassignedOpcodes) :
    fetchInstr s = .next (.unimplemented c, (s.withBus b).withPC (s.PC + 1)) := by
  have hrow := (rowOfOpcode_eq_none c).mpr hc
  simp only [fetchInstr, fetchByte_of_some h, andThen_next, operandBytesOf_of_no_row hrow, instrOf_of_no_row hrow]

/-- Settles O13: the meaning of `unimplemented`, and the fetch that comes before it. -/
theorem unassignedOpcodeEndsTheStep : Obligations.UnassignedOpcodeEndsTheStep :=
  ⟨fun _ _ => rfl, fun _ _ _ h hc => step_of_fetch (fetchInstr_unassigned h hc)⟩

/-! A byte placed by the host (R244). -/

/-- Taking an address out of a range takes out that address alone. -/
theorem AddrRange.any_without (a a' : Addr) (r : AddrRange) :
    (r.without a).any (·.contains a') = (r.contains a' && a' != a) := by
  rw [Bool.eq_iff_iff]
  by_cases ha : a' = a
  · subst ha
    simp only [AddrRange.without]
    split
    · split <;> split <;> simp [AddrRange.contains] <;> omega
    · simp_all
  · have hne : a'.toNat ≠ a.toNat := mt BitVec.eq_of_toNat_eq ha
    simp only [AddrRange.without]
    split
    · next hin =>
      simp only [AddrRange.contains, Bool.and_eq_true, decide_eq_true_eq] at hin
      split <;> split <;> simp [AddrRange.contains, ha] <;> omega
    · simp [ha]

theorem inRanges_without (rs : List AddrRange) (a a' : Addr) :
    inRanges (rs.flatMap (AddrRange.without a)) a' = (inRanges rs a' && a' != a) := by
  induction rs with
  | nil => rfl
  | cons r rs ih =>
    simp only [inRanges, List.flatMap_cons, List.any_append, List.any_cons, AddrRange.any_without] at ih ⊢
    rw [ih, Bool.and_or_distrib_right]

/-- The bus has the byte at the address, in memory that can be read. -/
def Bus.Holds (b : Bus) (a : Addr) (v : Byte) : Prop :=
  b.readable a = true ∧ b.isDevice a = false ∧ b.ram.read a.toNat = v

theorem Bus.place_holds (b : Bus) (a : Addr) (v : Byte) (hm : b.ram.wf = true) : (b.place a v).Holds a v := by
  refine ⟨?_, ?_, Memory.read_write_same _ _ v hm⟩
  · simp [Bus.readable, Bus.place, inRanges_without]
  · simp [Bus.isDevice, Bus.place, inRanges_without]

/-- Placing a byte elsewhere leaves the bytes that were placed. -/
theorem Bus.Holds.place {a a' : Addr} {v : Byte} (h : b.Holds a v) (hne : a ≠ a') (w : Byte) : (b.place a' w).Holds a v := by
  obtain ⟨hread, hdevice, hram⟩ := h
  simp only [Bus.readable, Bool.not_eq_true'] at hread
  simp only [Bus.isDevice] at hdevice
  refine ⟨?_, ?_, ?_⟩
  · simp [Bus.readable, Bus.place, inRanges_without, hread]
  · simp [Bus.isDevice, Bus.place, inRanges_without, hdevice]
  · exact (Memory.read_write_of_ne _ w (mt BitVec.eq_of_toNat_eq hne)).trans hram

theorem Bus.place_wf (b : Bus) (a : Addr) (v : Byte) (hm : b.ram.wf = true) : (b.place a v).ram.wf = true :=
  Memory.wf_write _ v a.isLt hm

/-- The three bytes of the placed word are at PC and after it. -/
theorem State.withFetchWord_holds (s : State) (nbits w : Nat) (hm : s.bus.ram.wf = true) :
    (s.withFetchWord nbits w).bus.Holds s.PC (tableWordBytes nbits w).1 ∧
      (s.withFetchWord nbits w).bus.Holds (s.PC + 1) (tableWordBytes nbits w).2.1 ∧
      (s.withFetchWord nbits w).bus.Holds (s.PC + 2) (tableWordBytes nbits w).2.2 := by
  have h01 : s.PC ≠ s.PC + 1 := by bv_omega
  have h02 : s.PC ≠ s.PC + 2 := by bv_omega
  have h12 : s.PC + 1 ≠ s.PC + 2 := by bv_omega
  have hwf0 := Bus.place_wf s.bus s.PC (tableWordBytes nbits w).1 hm
  have hwf1 := Bus.place_wf _ (s.PC + 1) (tableWordBytes nbits w).2.1 hwf0
  exact ⟨((Bus.place_holds _ _ _ hm).place h01 _).place h02 _, (Bus.place_holds _ _ _ hwf0).place h12 _,
    Bus.place_holds _ _ _ hwf1⟩

/-- An instruction takes at most three bytes (R86). -/
theorem Instr.length_le (i : Instr) : i.length ≤ 3 := by
  unfold Instr.length
  cases i.operand.mode <;> simp [Mode.operandBytes]

theorem decodeTableWord_eq_some {nbits w : Nat} (h : decodeTableWord nbits w = some i) : ∃ rest,
    decode [(tableWordBytes nbits w).1, (tableWordBytes nbits w).2.1, (tableWordBytes nbits w).2.2] = .ok (i, rest) := by
  rcases hbytes : tableWordBytes nbits w with ⟨b0, b1, b2⟩
  simp only [decodeTableWord, hbytes] at h ⊢
  split at h <;> cases h
  exact ⟨_, ‹_›⟩

/-- Settles O14: the placed bytes are plain memory, and decode as the word does; the rest is O11. -/
theorem placedWordIsTheNextInstruction : Obligations.PlacedWordIsTheNextInstruction := by
  intro s nbits w i hm hword
  obtain ⟨⟨hr0, hd0, hv0⟩, ⟨hr1, hd1, hv1⟩, ⟨hr2, hd2, hv2⟩⟩ := s.withFetchWord_holds nbits w hm
  obtain ⟨rest, hdecode⟩ := decodeTableWord_eq_some hword
  rw [← hv0, ← hv1, ← hv2] at hdecode
  refine stepRunsTheDecodedInstruction (s.withFetchWord nbits w) i rest hdecode fun k hk => ?_
  have hlength := Instr.length_le i
  obtain rfl | rfl | rfl : k = 0 ∨ k = 1 ∨ k = 2 := by omega
  · exact (BitVec.add_zero s.PC).symm ▸ ⟨hr0, hd0⟩
  · exact ⟨hr1, hd1⟩
  · exact ⟨hr2, hd2⟩

end Sys2Proof.Machine
end

section
/-! PROOF. Instructions that read their operand (files 40, 41 and 43): what one leaves that completes, its frame from the lists
of `exec_ends`; the loads and the logical instructions, O15 and O23, the compares, O28, and the transfers, O18. -/

namespace Sys2Proof.Machine

variable {i : Instr} {m : Mnemonic} {o : Operand} {s s1 s2 t : State} {op : Resolved} {v : Byte} {r : Reg}
  {extra : Resolved → Nat}

/-- What an instruction wrote at most, and the bytes it stored, are its frame. -/
theorem State.Wrote.frame {regs : List Reg} {flags : List Flag} {pc : Bool} {stored : List Addr}
    (h : State.Wrote regs flags pc s t) (hm : ∀ a, a ∉ stored → t.byteAt a = s.byteAt a) :
    State.Frame regs flags stored s t :=
  ⟨h.regs, h.flags, hm, h.cfg, h.bus.noRead, h.bus.noWrite, h.bus.device⟩

/-- The frame of an instruction that completes, from its lists. -/
theorem frame_of_exec {stored : List Addr} (h : exec i s = .next t) (hm : ∀ a, a ∉ stored → t.byteAt a = s.byteAt a) :
    State.Frame (regsWritten i) (flagsWritten i) stored s t := ((exec_ends i s).next h).frame hm

/-- An instruction that reads its operand byte and then writes neither PC nor the bus. -/
theorem readHandler_completes {use : Byte → State → State} (hi : exec i s = readHandler m extra use o s)
    (h1 : resolve o s = .next (op, s1)) (h2 : operandValue op s1 = .next (v, s2)) (hPC : (use v s2).PC = s2.PC)
    (hbus : (use v s2).bus = s2.bus) :
    ∃ t, exec i s = .next t ∧ t = finish m o (extra op) (use v s2) ∧ t.PC = s.PC ∧ t.bus = s2.bus ∧
      t.cycles = baseCycles m o.mode + extra op ∧ State.Frame (regsWritten i) (flagsWritten i) [] s t := by
  have hread := operandValue_onlyRead h1 h2
  have hexec := hi.trans (readHandler_of h1 h2)
  refine ⟨_, hexec, rfl, hPC.trans hread.inside.PC, hbus, rfl, frame_of_exec hexec fun a _ => ?_⟩
  exact (congrArg (fun b : Bus => b.ram.read a.toNat) hbus).trans (hread.byteAt a)

@[simp] theorem finish_reg (n : Nat) : (finish m o n s).reg r = s.reg r := by cases r <;> rfl
@[simp] theorem State.putNZ_reg (w : Byte) : (s.putNZ r w).reg r = w :=
  (State.withReg_reg s r w r).trans (if_pos rfl)
@[simp] theorem State.putNZ_flag_N (w : Byte) : (s.putNZ r w).flag .N = w.msb := by simp [State.putNZ]
@[simp] theorem State.putNZ_flag_Z (w : Byte) : (s.putNZ r w).flag .Z = (w == 0) := by simp [State.putNZ]
@[simp] theorem State.putNZ_PC (w : Byte) : (s.putNZ r w).PC = s.PC := s.withReg_PC r w
@[simp] theorem State.putNZ_bus (w : Byte) : (s.putNZ r w).bus = s.bus := s.withReg_bus r w

/-- One that puts a byte computed from A and the operand in a register, and sets N and Z from it. -/
theorem readHandler_putNZ {value : Byte → Byte → Byte}
    (hi : exec i s = readHandler m extra (fun b t => t.putNZ r (value t.A b)) o s) (hregs : regsWritten i = [r])
    (hflags : flagsWritten i = [.N, .Z]) (h1 : resolve o s = .next (op, s1)) (h2 : operandValue op s1 = .next (v, s2)) :
    ∃ t, exec i s = .next t ∧ t.reg r = value s.A v ∧ t.flag .N = (value s.A v).msb ∧ t.flag .Z = (value s.A v == 0) ∧
      t.PC = s.PC ∧ t.bus = s2.bus ∧ t.cycles = baseCycles m o.mode + extra op ∧ State.Frame [r] [.N, .Z] [] s t := by
  obtain ⟨t, ht, rfl, hPC, hbus, hcycles, hframe⟩ :=
    readHandler_completes hi h1 h2 (State.putNZ_PC _) (State.putNZ_bus _)
  rw [hregs, hflags] at hframe
  rw [← (operandValue_onlyRead h1 h2).inside.A]
  exact ⟨_, ht, by simp, by simp, by simp, hPC, hbus, hcycles, hframe⟩

/-- Settles O15: the three loads put the operand byte itself in their register. -/
theorem loadsSetTheRegisterAndNZ : Obligations.LoadsSetTheRegisterAndNZ := by
  intro o s s1 op h1
  refine ⟨fun v s2 h2 => ⟨?lda, ?ldx, ?ldy⟩, readHandler_errors (exec_lda o s) h1, readHandler_errors (exec_ldx o s) h1,
    readHandler_errors (exec_ldy o s) h1⟩
  case lda => exact readHandler_putNZ (value := fun _ b => b) (exec_lda o s) rfl rfl h1 h2
  case ldx => exact readHandler_putNZ (value := fun _ b => b) (exec_ldx o s) rfl rfl h1 h2
  case ldy => exact readHandler_putNZ (value := fun _ b => b) (exec_ldy o s) rfl rfl h1 h2

/-- Settles O23: the three logical instructions put their bitwise result in A. -/
theorem logicSetsAAndNZ : Obligations.LogicSetsAAndNZ := by
  intro o s s1 op h1
  refine ⟨fun v s2 h2 => ⟨?and, ?eor, ?ora⟩, readHandler_errors (exec_and o s) h1, readHandler_errors (exec_eor o s) h1,
    readHandler_errors (exec_ora o s) h1⟩
  case and => exact readHandler_putNZ (value := fun a b => a &&& b) (exec_and o s) rfl rfl h1 h2
  case eor => exact readHandler_putNZ (value := fun a b => a ^^^ b) (exec_eor o s) rfl rfl h1 h2
  case ora => exact readHandler_putNZ (value := fun a b => a ||| b) (exec_ora o s) rfl rfl h1 h2

/-- Bit 7 of the difference, with the difference as a number (R150). -/
theorem msb_sub (a b : Byte) : (a - b).msb = ((a.toNat + 256 - b.toNat) % 256).testBit 7 := by
  have hb := b.isLt
  rw [BitVec.msb_eq_getLsbD_last, ← BitVec.testBit_toNat, BitVec.toNat_sub]
  congr 2
  omega

/-- A compare, whichever register it compares. -/
theorem readHandler_compares (hi : exec i s = readHandler m extra (fun b t => t.withP (setCompareFlags (t.reg r) b t.P)) o s)
    (hregs : regsWritten i = []) (hflags : flagsWritten i = [.C, .Z, .N]) (h1 : resolve o s = .next (op, s1))
    (h2 : operandValue op s1 = .next (v, s2)) :
    ∃ t, exec i s = .next t ∧ (t.flag .C = true ↔ v.toNat ≤ (s.reg r).toNat) ∧ (t.flag .Z = true ↔ s.reg r = v) ∧
      t.flag .N = (((s.reg r).toNat + 256 - v.toNat) % 256).testBit 7 ∧ t.PC = s.PC ∧ t.bus = s2.bus ∧
      t.cycles = baseCycles m o.mode + extra op ∧ State.Frame [] [.C, .Z, .N] [] s t := by
  obtain ⟨t, ht, rfl, hPC, hbus, hcycles, hframe⟩ := readHandler_completes hi h1 h2 rfl rfl
  rw [hregs, hflags] at hframe
  have hreg : s2.reg r = s.reg r := (operandValue_onlyRead h1 h2).reg r
  refine ⟨_, ht, ?_, ?_, ?_, hPC, hbus, hcycles, hframe⟩
  · simp [hreg, BitVec.le_def]
  · simp [hreg]
  · simp [hreg, msb_sub]

/-- Settles O28: CMP, CPX and CPY compare A, X and Y. -/
theorem comparesSetCZN : Obligations.ComparesSetCZN := by
  intro o s s1 op h1
  refine ⟨fun v s2 h2 => ⟨?cmp, ?cpx, ?cpy⟩, readHandler_errors (exec_cmp o s) h1, readHandler_errors (exec_cpx o s) h1,
    readHandler_errors (exec_cpy o s) h1⟩
  case cmp => exact readHandler_compares (r := .A) (exec_cmp o s) rfl rfl h1 h2
  case cpx => exact readHandler_compares (r := .X) (exec_cpx o s) rfl rfl h1 h2
  case cpy => exact readHandler_compares (r := .Y) (exec_cpy o s) rfl rfl h1 h2

/-- Settles O18: five transfers put a register in another, N and Z from it; TXS writes S alone. -/
theorem transfersCopyAndSetNZ : Obligations.TransfersCopyAndSetNZ := by
  intro s
  refine ⟨?tax, ?tay, ?tsx, ?txa, ?txs, ?tya⟩
  case tax => exact registerHandler_writes_reg_setNZ (r := .X) (exec_tax s)
  case tay => exact registerHandler_writes_reg_setNZ (r := .Y) (exec_tay s)
  case tsx => exact registerHandler_writes_reg_setNZ (r := .X) (exec_tsx s)
  case txa => exact registerHandler_writes_reg_setNZ (r := .A) (exec_txa s)
  case txs => exact ⟨_, exec_txs s, rfl, rfl, rfl, rfl, frame_of_exec (exec_txs s) fun _ _ => rfl⟩
  case tya => exact registerHandler_writes_reg_setNZ (r := .A) (exec_tya s)

/-- Settles O17: each handler, run on an operand whose shape it has no use for. -/
theorem wrongOperandShapeIsAnAddressingModeError : Obligations.WrongOperandShapeIsAnAddressingModeError :=
  fun _ _ => ⟨rfl, rfl, rfl, rfl, rfl, rfl, rfl⟩

end Sys2Proof.Machine
end

section
/-! PROOF. ADC and SBC (41_arithmetic_logical.md R120, R121, R125, R126): the sum as a number, what both leave, O19, O20,
O21. -/

namespace Sys2Proof.Machine

/-! The sum, on bytes alone. -/

theorem addWithCarry_result_toNat (a v : Byte) (c : Bool) :
    (addWithCarry a v c).result.toNat = (a.toNat + v.toNat + if c then 1 else 0) % 256 := BitVec.toNat_ofNat _ 8

/-- The carry out is bit 8 of a sum below 512 (R120). -/
theorem addWithCarry_carry (a v : Byte) (c : Bool) :
    (addWithCarry a v c).carry = true ↔ a.toNat + v.toNat + (if c then 1 else 0) > 0xFF := by
  have ha := a.isLt
  have hv := v.isLt
  have hc : (if c then 1 else 0) ≤ 1 := by split <;> omega
  show Nat.testBit (a.toNat + v.toNat + if c then 1 else 0) 8 = true ↔ _
  rw [Nat.testBit_eq_decide_div_mod_eq, decide_eq_true_iff]
  omega

theorem addWithCarry_overflow (a v : Byte) (c : Bool) :
    (addWithCarry a v c).overflow = true ↔ a.msb = v.msb ∧ (addWithCarry a v c).result.msb ≠ v.msb := by
  simp [addWithCarry]

/-- The sign rule of V is that the signed sum does not fit (R126). -/
theorem addWithCarry_overflow_signed (a v : Byte) (c : Bool) :
    (addWithCarry a v c).overflow = true ↔
      a.toInt + v.toInt + (if c then 1 else 0) < -128 ∨ a.toInt + v.toInt + (if c then 1 else 0) > 127 := by
  have ha := a.isLt
  have hv := v.isLt
  rw [addWithCarry_overflow]
  simp only [BitVec.msb_eq_decide, ne_eq, decide_eq_decide, addWithCarry_result_toNat, BitVec.toInt_eq_toNat_cond]
  cases c <;> simp only [Bool.false_eq_true, if_false, if_true] <;> omega

/-- The source's wording of the carry (R125). -/
theorem addWithCarry_carry_source (a v : Byte) (c : Bool) :
    (addWithCarry a v c).carry = true ↔
      (addWithCarry a v c).result < a ∨ ((addWithCarry a v c).result = a ∧ v ≠ 0) := by
  have ha := a.isLt
  have hv := v.isLt
  have hzero : v ≠ 0 ↔ v.toNat ≠ 0 := not_congr BitVec.toNat_inj.symm
  rw [addWithCarry_carry, BitVec.lt_def, ← BitVec.toNat_inj, addWithCarry_result_toNat, hzero]
  cases c <;> simp only [Bool.false_eq_true, if_false, if_true] <;> omega

/-- Adding the inverted byte is subtracting it with the borrow (R121). -/
theorem addWithCarry_not_result (a b : Byte) (c : Bool) :
    ((addWithCarry a (~~~ b) c).result.toNat : Int) = ((a.toNat : Int) - b.toNat - if c then 0 else 1) % 256 := by
  have hb := b.isLt
  rw [addWithCarry_result_toNat, BitVec.toNat_not]
  cases c <;> simp only [Bool.false_eq_true, if_false, if_true] <;> omega

theorem addWithCarry_not_carry (a b : Byte) (c : Bool) :
    (addWithCarry a (~~~ b) c).carry = true ↔ (a.toNat : Int) - b.toNat - (if c then 0 else 1) ≥ 0 := by
  have hb := b.isLt
  rw [addWithCarry_carry, BitVec.toNat_not]
  cases c <;> simp only [Bool.false_eq_true, if_false, if_true] <;> omega

/-! What ADC and SBC leave. -/

variable {i : Instr} {m : Mnemonic} {o : Operand} {s s1 s2 t : State} {op : Resolved} {v : Byte}

/-- The result and the flags of a sum, as a state has them. -/
structure State.HasSum (t : State) (r : Sum) : Prop where
  A : t.A = r.result
  C : t.flag .C = r.carry
  V : t.flag .V = r.overflow
  N : t.flag .N = r.result.msb
  Z : t.flag .Z = (r.result == 0)

/-- An instruction that adds a byte made of its operand to A completes with the sum of the start's A and carry. -/
theorem readHandler_adds {added : Byte → Byte}
    (hi : exec i s = readHandler m pageCrossExtra (fun b t => addToA (added b) t) o s) (hregs : regsWritten i = [.A])
    (hflags : flagsWritten i = [.C, .V, .N, .Z]) (h1 : resolve o s = .next (op, s1))
    (h2 : operandValue op s1 = .next (v, s2)) :
    ∃ t, exec i s = .next t ∧ t.HasSum (addWithCarry s.A (added v) (s.flag .C)) ∧ t.PC = s.PC ∧ t.bus = s2.bus ∧
      t.cycles = baseCycles m o.mode + (if pageCross op then 1 else 0) ∧ State.Frame [.A] [.C, .V, .N, .Z] [] s t := by
  obtain ⟨t, ht, rfl, hPC, hbus, hcycles, hframe⟩ := readHandler_completes hi h1 h2 rfl rfl
  have hread := operandValue_onlyRead h1 h2
  rw [hregs, hflags] at hframe
  refine ⟨_, ht, ?_, hPC, hbus, hcycles, hframe⟩
  rw [← hread.inside.A, ← hread.flag .C]
  constructor <;> simp [addToA]

theorem exec_adc_adds (h1 : resolve o s = .next (op, s1)) (h2 : operandValue op s1 = .next (v, s2)) :
    ∃ t, exec (.adc o) s = .next t ∧ t.HasSum (addWithCarry s.A v (s.flag .C)) ∧ t.PC = s.PC ∧ t.bus = s2.bus ∧
      t.cycles = baseCycles .adc o.mode + (if pageCross op then 1 else 0) ∧ State.Frame [.A] [.C, .V, .N, .Z] [] s t :=
  readHandler_adds (added := id) (exec_adc o s) rfl rfl h1 h2

theorem exec_sbc_adds (h1 : resolve o s = .next (op, s1)) (h2 : operandValue op s1 = .next (v, s2)) :
    ∃ t, exec (.sbc o) s = .next t ∧ t.HasSum (addWithCarry s.A (~~~ v) (s.flag .C)) ∧ t.PC = s.PC ∧ t.bus = s2.bus ∧
      t.cycles = baseCycles .sbc o.mode + (if pageCross op then 1 else 0) ∧ State.Frame [.A] [.C, .V, .N, .Z] [] s t :=
  readHandler_adds (added := fun b => ~~~ b) (exec_sbc o s) rfl rfl h1 h2

/-- Settles O19: the sum of A, the operand byte and the carry, and what is said of it on bytes. -/
theorem addWithCarryResultAndFlags : Obligations.AddWithCarryResultAndFlags := by
  intro o s s1 op h1
  refine ⟨fun v s2 h2 => ?completes, readHandler_errors (exec_adc o s) h1⟩
  obtain ⟨t, ht, ⟨hA, hC, hV, hN, hZ⟩, hrest⟩ := exec_adc_adds h1 h2
  refine ⟨t, ht, ?_, ?_, ?_, ?_, ?_, hrest⟩
  · rw [hA, addWithCarry_result_toNat]
  · rw [hC, addWithCarry_carry]
  · rw [hV, hA, addWithCarry_overflow]
  · rw [hN, hA]
  · rw [hZ, hA]

/-- Settles O20: the same sum with the operand's bits inverted, read as a difference. -/
theorem subtractWithBorrowResultAndFlags : Obligations.SubtractWithBorrowResultAndFlags := by
  intro o s s1 op h1
  refine ⟨fun b s2 h2 => ?completes, readHandler_errors (exec_sbc o s) h1⟩
  obtain ⟨t, ht, ⟨hA, hC, hV, hN, hZ⟩, hrest⟩ := exec_sbc_adds h1 h2
  refine ⟨t, ht, ?_, ?_, ?_, ?_, ?_, hrest⟩
  · rw [hA, addWithCarry_not_result]
  · rw [hC, addWithCarry_not_carry]
  · rw [hV, hA, addWithCarry_overflow]
  · rw [hN, hA]
  · rw [hZ, hA]

/-- Settles O21: both leave a sum with the byte as added, of which the two equalities hold. -/
theorem overflowIsSignedAndCarryIsTheSourcesWording : Obligations.OverflowIsSignedAndCarryIsTheSourcesWording := by
  intro o s s1 s2 t op b v h1 h2 h
  obtain ⟨hA, hC, hV, -, -⟩ : t.HasSum (addWithCarry s.A v (s.flag .C)) := by
    obtain ⟨ht, rfl⟩ | ⟨ht, rfl⟩ := h
    · obtain ⟨t', ht', hsum, -⟩ := exec_adc_adds h1 h2
      cases ht.symm.trans ht'
      exact hsum
    · obtain ⟨t', ht', hsum, -⟩ := exec_sbc_adds h1 h2
      cases ht.symm.trans ht'
      exact hsum
  rw [hV, hC, hA]
  exact ⟨addWithCarry_overflow_signed _ _ _, addWithCarry_carry_source _ _ _⟩

end Sys2Proof.Machine
end

section
/-! PROOF. Shifts, rotates, increments and decrements (42_shift_incdec.md R130–R135): the results as numbers, the
read-modify-write sequence on memory; O24, O25 and O26. -/

namespace Sys2Proof.Machine

/-! The results, on bytes alone. -/

theorem shiftLeft_toNat (v : Byte) (c : Bool) : (shiftLeft v c).result.toNat = 2 * v.toNat % 256 := by
  show (v <<< 1).toNat = _
  rw [BitVec.toNat_shiftLeft, Nat.shiftLeft_eq, Nat.mul_comm]

theorem shiftRight_toNat (v : Byte) (c : Bool) : (shiftRight v c).result.toNat = v.toNat / 2 := by
  show (v >>> 1).toNat = _
  rw [BitVec.toNat_ushiftRight, Nat.shiftRight_eq_div_pow]

/-- The prior carry goes into the bit the shift frees, so it is added (R132). -/
theorem rotateLeft_toNat (v : Byte) (c : Bool) :
    (rotateLeft v c).result.toNat = 2 * v.toNat % 256 + if c then 1 else 0 := by
  have hfree : v <<< 1 &&& (if c then 0x01 else 0x00) = 0 := by
    cases c <;> ext k hk <;> simp
    omega
  have hsum := shiftLeft_toNat v c
  show (v <<< 1 ||| if c then 0x01 else 0x00).toNat = _
  rw [← BitVec.add_eq_or_of_and_eq_zero _ _ hfree, BitVec.toNat_add]
  cases c <;> simp [shiftLeft] at hsum ⊢ <;> omega

/-- The same at the other end (R133). -/
theorem rotateRight_toNat (v : Byte) (c : Bool) :
    (rotateRight v c).result.toNat = v.toNat / 2 + if c then 128 else 0 := by
  have hfree : v >>> 1 &&& (if c then 0x80 else 0x00) = 0 := by
    cases c <;> ext k hk <;> simp
    interval_cases k <;> simp [BitVec.getLsbD_of_ge]
  have hsum := shiftRight_toNat v c
  have hv := v.isLt
  show (v >>> 1 ||| if c then 0x80 else 0x00).toNat = _
  rw [← BitVec.add_eq_or_of_and_eq_zero _ _ hfree, BitVec.toNat_add]
  cases c <;> simp [shiftRight] at hsum ⊢ <;> omega

/-- LSR clears bit 7 (R131). -/
theorem shiftRight_msb (v : Byte) (c : Bool) : (shiftRight v c).result.msb = false := by
  have hv := v.isLt
  rw [BitVec.msb_eq_decide, shiftRight_toNat]
  exact decide_eq_false (by omega)

/-- ROR puts the prior carry in bit 7 (R133). -/
theorem rotateRight_msb (v : Byte) (c : Bool) : (rotateRight v c).result.msb = c := by
  have hv := v.isLt
  rw [BitVec.msb_eq_decide, rotateRight_toNat]
  cases c <;> simp
  omega

variable {i : Instr} {m : Mnemonic} {o : Operand} {s s1 s2 t : State} {op : Resolved} {a : Addr} {v r : Byte} {b1 b2 : Bus}
  {f : Byte → Bool → Shifted}

/-! The Accumulator forms. -/

/-- A shift of A completes in every state, with no access. -/
theorem shiftHandler_accumulator_completes (hi : exec i s = shiftHandler m f .accumulator s) (hregs : regsWritten i = [.A])
    (hflags : flagsWritten i = [.C, .N, .Z]) (hcost : baseCycles m .accumulator = 2) :
    ∃ t, exec i s = .next t ∧ t.A = (f s.A (s.flag .C)).result ∧ t.flag .C = (f s.A (s.flag .C)).carry ∧
      t.flag .N = (f s.A (s.flag .C)).result.msb ∧ t.flag .Z = (t.A == 0) ∧ t.PC = s.PC ∧ t.bus = s.bus ∧ t.cycles = 2 ∧
      State.Frame [.A] [.C, .N, .Z] [] s t := by
  have hexec := hi.trans (shiftHandler_accumulator f)
  have hframe := frame_of_exec (stored := []) hexec fun _ _ => rfl
  rw [hregs, hflags] at hframe
  exact ⟨_, hexec, rfl, by simp, by simp, by simp, rfl, rfl, hcost, hframe⟩

/-- Settles O24: the four Accumulator forms, each with its result as a number. -/
theorem accumulatorShifts : Obligations.AccumulatorShifts := by
  intro s
  refine ⟨?asl, ?lsr, ?rol, ?ror⟩
  case asl =>
    obtain ⟨t, ht, hA, hC, hN, hrest⟩ := shiftHandler_accumulator_completes (exec_asl .accumulator s) rfl rfl rfl
    exact ⟨t, ht, by rw [hA, shiftLeft_toNat], hC, by rw [hN, hA], hrest⟩
  case lsr =>
    obtain ⟨t, ht, hA, hC, hN, hrest⟩ := shiftHandler_accumulator_completes (exec_lsr .accumulator s) rfl rfl rfl
    exact ⟨t, ht, by rw [hA, shiftRight_toNat], hC, by rw [hN, shiftRight_msb], hrest⟩
  case rol =>
    obtain ⟨t, ht, hA, hC, hN, hrest⟩ := shiftHandler_accumulator_completes (exec_rol .accumulator s) rfl rfl rfl
    exact ⟨t, ht, by rw [hA, rotateLeft_toNat], hC, by rw [hN, hA], hrest⟩
  case ror =>
    obtain ⟨t, ht, hA, hC, hN, hrest⟩ := shiftHandler_accumulator_completes (exec_ror .accumulator s) rfl rfl rfl
    exact ⟨t, ht, by rw [hA, rotateRight_toNat], hC, by rw [hN, rotateRight_msb], hrest⟩

/-! One read and one write of memory. -/

/-- The bytes of memory but one are as before after the resolver, a read and a write there. -/
theorem byteAt_of_modify (h0 : resolve o s = .next (op, s1)) (hr : s1.bus.read a = (some v, b1))
    (hw : b1.write a r = (true, b2)) {a' : Addr} (ha' : a' ∉ [a]) : b2.ram.read a'.toNat = s.byteAt a' := by
  rw [(Bus.write_leaves hw).2 a' (mt List.mem_singleton.mpr ha'), (Bus.read_leaves hr).1]
  exact (resolve_onlyRead h0).byteAt a'

/-- A shift on memory writes no register. -/
theorem regsWritten_of_memory_shift (ho : o ≠ .accumulator) :
    regsWritten (.asl o) = [] ∧ regsWritten (.lsr o) = [] ∧ regsWritten (.rol o) = [] ∧ regsWritten (.ror o) = [] := by
  cases o with
  | accumulator => exact absurd rfl ho
  | _ => exact ⟨rfl, rfl, rfl, rfl⟩

theorem shiftHandler_memory_completes (hi : exec i s = shiftHandler m f o s) (hregs : regsWritten i = [])
    (hflags : flagsWritten i = [.C, .N, .Z]) (h0 : resolve o s = .next (op, s1)) (ha : operandAddress op s1 = .next a)
    (hr : s1.bus.read a = (some v, b1)) (hw : b1.write a r = (true, b2)) (hres : r = (f v (s.flag .C)).result) :
    ∃ t, exec i s = .next t ∧ t.bus = b2 ∧ t.flag .C = (f v (s.flag .C)).carry ∧ t.flag .N = r.msb ∧ t.flag .Z = (r == 0) ∧
      t.PC = s.PC ∧ t.cycles = baseCycles m o.mode ∧ State.Frame [] [.C, .N, .Z] [a] s t := by
  have hread := resolve_onlyRead h0
  have hC : s1.flag .C = s.flag .C := hread.flag .C
  have hexec := hi.trans (shiftHandler_memory h0 ha hr (by rwa [hC, ← hres]))
  have hframe := frame_of_exec (stored := [a]) hexec fun a' ha' => byteAt_of_modify h0 hr hw ha'
  rw [hregs, hflags] at hframe
  exact ⟨_, hexec, rfl, by simp [hC], by simp [hC, hres], by simp [hC, hres], hread.inside.PC, rfl, hframe⟩

/-- How a shift on memory ends in an error. -/
theorem shiftHandler_memory_errors {isResult : Byte → Byte → Prop} (hi : exec i s = shiftHandler m f o s)
    (ho : o ≠ .accumulator) (h0 : resolve o s = .next (op, s1))
    (hresult : ∀ v r, isResult v r → r = (f v (s.flag .C)).result) : ModifyErrors i isResult op s s1 := by
  have hmode : o.mode ≠ .accumulator := by cases o <;> simp [Operand.mode] at ho ⊢
  have hC : s1.flag .C = s.flag .C := (resolve_onlyRead h0).flag .C
  rw [← hC] at hresult
  simp only [shiftHandler, h0, andThen_next, hmode, if_false] at hi
  exact modifyMemory_errors hi fun v r _ h => hresult v r h

/-- Settles O25: each shift names its result by a number, which is the handler's. -/
theorem memoryShifts : Obligations.MemoryShifts := by
  intro o s s1 op ho h0
  obtain ⟨hasl, hlsr, hrol, hror⟩ := regsWritten_of_memory_shift ho
  have isAsl (v r : Byte) (h : r.toNat = 2 * v.toNat % 256) : r = (shiftLeft v (s.flag .C)).result :=
    BitVec.eq_of_toNat_eq (h.trans (shiftLeft_toNat v _).symm)
  have isLsr (v r : Byte) (h : r.toNat = v.toNat / 2) : r = (shiftRight v (s.flag .C)).result :=
    BitVec.eq_of_toNat_eq (h.trans (shiftRight_toNat v _).symm)
  have isRol (v r : Byte) (h : r.toNat = 2 * v.toNat % 256 + if s.flag .C then 1 else 0) :
      r = (rotateLeft v (s.flag .C)).result := BitVec.eq_of_toNat_eq (h.trans (rotateLeft_toNat v _).symm)
  have isRor (v r : Byte) (h : r.toNat = v.toNat / 2 + if s.flag .C then 128 else 0) :
      r = (rotateRight v (s.flag .C)).result := BitVec.eq_of_toNat_eq (h.trans (rotateRight_toNat v _).symm)
  refine ⟨fun a v r b1 b2 ha hr hw => ⟨fun h => ?asl, fun h => ?lsr, fun h => ?rol, fun h => ?ror⟩,
    shiftHandler_memory_errors (exec_asl o s) ho h0 isAsl, shiftHandler_memory_errors (exec_lsr o s) ho h0 isLsr,
    shiftHandler_memory_errors (exec_rol o s) ho h0 isRol, shiftHandler_memory_errors (exec_ror o s) ho h0 isRor⟩
  case asl => exact shiftHandler_memory_completes (exec_asl o s) hasl rfl h0 ha hr hw (isAsl v r h)
  case rol => exact shiftHandler_memory_completes (exec_rol o s) hrol rfl h0 ha hr hw (isRol v r h)
  case lsr =>
    obtain ⟨t, ht, hbus, hC, hN, hrest⟩ :=
      shiftHandler_memory_completes (exec_lsr o s) hlsr rfl h0 ha hr hw (isLsr v r h)
    exact ⟨t, ht, hbus, hC, by rw [hN, isLsr v r h, shiftRight_msb], hrest⟩
  case ror =>
    obtain ⟨t, ht, hbus, hC, hN, hrest⟩ :=
      shiftHandler_memory_completes (exec_ror o s) hror rfl h0 ha hr hw (isRor v r h)
    exact ⟨t, ht, hbus, hC, by rw [hN, isRor v r h, rotateRight_msb], hrest⟩

theorem incDecHandler_completes {count : Byte → Byte} (hi : exec i s = incDecHandler m count o s)
    (hregs : regsWritten i = []) (hflags : flagsWritten i = [.N, .Z]) (h0 : resolve o s = .next (op, s1))
    (ha : operandAddress op s1 = .next a) (hr : s1.bus.read a = (some v, b1)) (hw : b1.write a r = (true, b2))
    (hres : r = count v) :
    ∃ t, exec i s = .next t ∧ t.bus = b2 ∧ t.flag .N = r.msb ∧ t.flag .Z = (r == 0) ∧ t.PC = s.PC ∧
      t.cycles = baseCycles m o.mode ∧ State.Frame [] [.N, .Z] [a] s t := by
  subst hres
  have hexec := hi.trans (incDecHandler_of h0 ha hr hw)
  have hframe := frame_of_exec (stored := [a]) hexec fun a' ha' => byteAt_of_modify h0 hr hw ha'
  rw [hregs, hflags] at hframe
  exact ⟨_, hexec, rfl, by simp, by simp, (resolve_onlyRead h0).inside.PC, rfl, hframe⟩

theorem incDecHandler_errors {count : Byte → Byte} {isResult : Byte → Byte → Prop}
    (hi : exec i s = incDecHandler m count o s) (h0 : resolve o s = .next (op, s1))
    (hresult : ∀ v r, isResult v r → r = count v) : ModifyErrors i isResult op s s1 := by
  simp only [incDecHandler, h0, andThen_next] at hi
  exact modifyMemory_errors hi fun v r _ h => hresult v r h

/-- Settles O26: plus and minus one modulo 256 are the handlers' results. -/
theorem memoryIncrementAndDecrement : Obligations.MemoryIncrementAndDecrement := by
  intro o s s1 op h0
  have isInc (v r : Byte) (h : r.toNat = (v.toNat + 1) % 256) : r = v + 1 :=
    BitVec.eq_of_toNat_eq (h.trans (BitVec.toNat_add v 1).symm)
  have isDec (v r : Byte) (h : r.toNat = (v.toNat + 255) % 256) : r = v - 1 :=
    BitVec.eq_of_toNat_eq (h.trans (toNat_sub_one_byte v).symm)
  refine ⟨fun a v r b1 b2 ha hr hw => ⟨fun h => ?inc, fun h => ?dec⟩, incDecHandler_errors (exec_inc o s) h0 isInc,
    incDecHandler_errors (exec_dec o s) h0 isDec⟩
  case inc => exact incDecHandler_completes (exec_inc o s) rfl rfl h0 ha hr hw (isInc v r h)
  case dec => exact incDecHandler_completes (exec_dec o s) rfl rfl h0 ha hr hw (isDec v r h)

end Sys2Proof.Machine
end

section
/-! PROOF. Branches, JMP and JSR (43_compare_branch_jump.md R153–R163): O30, O31, O32. -/

namespace Sys2Proof.Machine

variable {i : Instr} {m : Mnemonic} {o : Operand} {s s1 t : State} {op : Resolved} {a : Addr} {f : Flag} {v : Bool}

/-- A branch goes to its target exactly when the tested flag has the tested value. -/
theorem branchHandler_goes {cond : Byte → Bool} {d : Byte} (hi : exec i s = branchHandler m cond (.relative d) s)
    (hcond : cond s.P = true ↔ s.flag f = v) (hcost : baseCycles m .relative = 2) :
    ∃ t, exec i s = .next t ∧
      (t.PC.toNat : Int) = (if s.flag f = v then ((s.PC.toNat : Int) + d.toInt) % 65536 else s.PC.toNat) ∧
      t.cycles = (if s.flag f = v then (if t.PC.toNat / 256 = s.PC.toNat / 256 then 3 else 4) else 2) ∧
      t.bus = s.bus ∧ State.Frame [] [] [] s t := by
  rw [hi, branchHandler_relative]
  by_cases htaken : s.flag f = v
  · simp only [hcond, htaken, if_true]
    refine ⟨_, rfl, relative_toNat s.PC d, ?_, rfl, ((State.Wrote.withPC _).finish _ _ _).frame fun _ _ => rfl⟩
    simp only [finish_cycles, finish_PC, State.withPC_PC, Operand.mode, hcost, hiByte_bne_iff]
    split <;> simp_all
  · simp only [hcond, htaken, if_false]
    exact ⟨_, rfl, rfl, hcost, rfl, ((State.Wrote.refl (pc := true) s).finish _ _ _).frame fun _ _ => rfl⟩

/-- Settles O30: each of the eight is a branch on its flag and value. -/
theorem branchesGoWhereTheFlagSays : Obligations.BranchesGoWhereTheFlagSays := by
  intro s d i f v h
  simp only [List.mem_cons, Prod.mk.injEq, List.not_mem_nil, or_false] at h
  obtain ⟨rfl, rfl, rfl⟩ | ⟨rfl, rfl, rfl⟩ | ⟨rfl, rfl, rfl⟩ | ⟨rfl, rfl, rfl⟩ | ⟨rfl, rfl, rfl⟩ | ⟨rfl, rfl, rfl⟩ |
    ⟨rfl, rfl, rfl⟩ | ⟨rfl, rfl, rfl⟩ := h
  · exact branchHandler_goes (exec_bcc _ s) (by simp [State.flag]) rfl
  · exact branchHandler_goes (exec_bcs _ s) Iff.rfl rfl
  · exact branchHandler_goes (exec_beq _ s) Iff.rfl rfl
  · exact branchHandler_goes (exec_bmi _ s) Iff.rfl rfl
  · exact branchHandler_goes (exec_bne _ s) (by simp [State.flag]) rfl
  · exact branchHandler_goes (exec_bpl _ s) (by simp [State.flag]) rfl
  · exact branchHandler_goes (exec_bvc _ s) (by simp [State.flag]) rfl
  · exact branchHandler_goes (exec_bvs _ s) Iff.rfl rfl

theorem exec_jmp_of_address (h0 : resolve o s = .next (op, s1)) (ha : operandAddress op s1 = .next a) :
    exec (.jmp o) s = .next (finish .jmp o 0 (s1.withPC a)) := by
  show execJmp o s = _
  simp only [execJmp, h0, andThen_next, ha]

/-- Settles O31: once the address is known, JMP writes PC alone. -/
theorem jumpLoadsPC : Obligations.JumpLoadsPC := by
  intro o s s1 op a h0 ha
  have hexec := exec_jmp_of_address h0 ha
  exact ⟨_, hexec, rfl, rfl, rfl, frame_of_exec hexec fun a' _ => (resolve_onlyRead h0).byteAt a'⟩

/-! The bytes of an address, as the statements write them. -/

theorem ofNat_high (a : Addr) : BitVec.ofNat 8 (a.toNat / 256) = hiByte a := by
  rw [← hiByte_toNat, BitVec.ofNat_toNat, BitVec.setWidth_eq]

theorem ofNat_low (a : Addr) : BitVec.ofNat 8 (a.toNat % 256) = loByte a := by
  rw [← loByte_toNat, BitVec.ofNat_toNat, BitVec.setWidth_eq]

theorem sub_two (b : Byte) : b - 2 = b - 1 - 1 := by bv_omega
theorem sub_three (b : Byte) : b - 3 = b - 1 - 1 - 1 := by bv_omega
theorem add_two (b : Byte) : b + 2 = b + 1 + 1 := by bv_omega
theorem add_three (b : Byte) : b + 3 = b + 1 + 1 + 1 := by bv_omega

theorem exec_jsr_of_pushWord_next (h : pushWord (s.PC - 1) s = .next t) :
    exec (.jsr (.absolute a)) s = .next (finish .jsr (.absolute a) 0 (t.withPC a)) := by
  show execJsr (.absolute a) s = _
  simp only [execJsr, resolve, operandAddress, andThen_next, h]

theorem exec_jsr_of_pushWord_fault {e : Fault} (h : pushWord (s.PC - 1) s = .fault e) :
    exec (.jsr (.absolute a)) s = .fault e := by
  show execJsr (.absolute a) s = _
  simp only [execJsr, resolve, operandAddress, andThen_next, h, andThen_fault]

/-- Settles O32: JSR ends as its two pushes do, and where both are taken, PC is left to write. -/
theorem jumpToSubroutinePushesItsLastByteAddress : Obligations.JumpToSubroutinePushesItsLastByteAddress := by
  intro s a
  rw [ofNat_high, ofNat_low, sub_two]
  refine ⟨fun b1 h1 => ?firstFails, fun b1 h1 => ⟨fun b2 h2 => ?secondFails, fun b2 h2 => ?completes⟩⟩
  case firstFails => exact exec_jsr_of_pushWord_fault (pushWord_first_fails h1)
  case secondFails => exact exec_jsr_of_pushWord_fault (pushWord_second_fails h1 h2)
  case completes =>
    have hpush := pushWord_of_accesses h1 h2
    have hexec := exec_jsr_of_pushWord_next (a := a) hpush
    obtain ⟨-, -, hbytes⟩ := (pushWord_ends _ s).next hpush
    refine ⟨_, hexec, rfl, rfl, rfl, rfl, frame_of_exec hexec fun a' ha' => ?_⟩
    obtain ⟨h1', h2'⟩ := not_or.mp (mt List.mem_pair.mpr ha')
    exact hbytes a' h1' h2'

end Sys2Proof.Machine
end

section
/-! PROOF. Pulls, interrupt entry and return (44_stack_flags.md R172, R173; 45_interrupt_misc.md R190, R191; 60_exceptions.md
R210, R211): one statement of an entry, access by access, for BRK, IRQ and NMI; O36, O40, O41, O42 and O43. -/

namespace Sys2Proof.Machine

variable {i : Instr} {m : Mnemonic} {s t : State} {v p lo hi : Byte} {b b1 b2 b3 : Bus} {e : Fault}

theorem impliedHandler_of_next {f : State → Res State} (hi : exec i s = impliedHandler m f s) (h : f s = .next t) :
    exec i s = .next (finish m .implied 0 t) := by
  rw [hi, impliedHandler, h, andThen_next]

theorem impliedHandler_of_fault {f : State → Res State} (hi : exec i s = impliedHandler m f s) (h : f s = .fault e) :
    exec i s = .fault e := by
  rw [hi, impliedHandler, h, andThen_fault]

/-! Pulls. -/

theorem pop_then_of_some {use : Byte × State → State} (h : s.bus.read (stackAddr (s.S + 1)) = (some v, b)) :
    (andThen (pop s) fun r => .next (use r)) = .next (use (v, (s.withS (s.S + 1)).withBus b)) := by
  rw [pop_of_some h, andThen_next]

theorem pop_then_of_none {use : Byte × State → State} (h : s.bus.read (stackAddr (s.S + 1)) = (none, b)) :
    (andThen (pop s) fun r => .next (use r)) =
      .fault (.busError .invalidRead (stackAddr (s.S + 1)) ((s.withS (s.S + 1)).withBus b)) := by
  rw [pop_of_none h, andThen_fault]

/-- A read leaves the bytes of memory. -/
theorem byteAt_of_read {a : Addr} {answer : Option Byte} (h : s.bus.read a = (answer, b)) (a' : Addr) :
    b.ram.read a'.toNat = s.byteAt a' := congrArg (fun ram : Memory => ram.read a'.toNat) (Bus.read_leaves h).1

/-- Settles O36: both pop one byte; PLA puts it in A and sets N and Z, PLP writes P from it. -/
theorem pullsIncrementSThenRead : Obligations.PullsIncrementSThenRead := by
  intro s
  refine ⟨fun v b h => ⟨?pla, ?plp⟩, fun b h => ⟨?plaFails, ?plpFails⟩⟩
  case pla =>
    have hexec := impliedHandler_of_next (exec_pla s) (pop_then_of_some h)
    exact ⟨_, hexec, rfl, by simp, by simp, rfl, rfl, rfl, rfl, frame_of_exec hexec fun a _ => byteAt_of_read h a⟩
  case plp =>
    have hexec := impliedHandler_of_next (exec_plp s) (pop_then_of_some h)
    have hflag (f : Flag) (hf : f ∉ [Flag.B, .U]) : getFlag f (restoredStatus v) = getFlag f v :=
      (getFlag_restoredStatus f v).trans (if_neg (by simpa using hf))
    exact ⟨_, hexec, rfl, getFlag_restoredStatus .B v, getFlag_restoredStatus .U v, hflag .N (by decide),
      hflag .V (by decide), hflag .D (by decide), hflag .I (by decide), hflag .Z (by decide), hflag .C (by decide), rfl, rfl,
      rfl, rfl, frame_of_exec hexec fun a _ => byteAt_of_read h a⟩
  case plaFails => exact impliedHandler_of_fault (exec_pla s) (pop_then_of_none h)
  case plpFails => exact impliedHandler_of_fault (exec_plp s) (pop_then_of_none h)

/-! Interrupt entry (R215). -/

/-- An entry, access by access: the return address high byte first, the image, the vector low byte first; where an access fails
the call ends there, the pushes before it done, and I and PC not written (R204). -/
def EntersInterrupt (call : Res State) (s : State) (ret : Addr) (image : Byte) (low high : Addr) : Prop :=
  (∀ b1 : Bus, s.bus.write (stackAddr s.S) (hiByte ret) = (false, b1) →
    call = .fault (.busError .invalidWrite (stackAddr s.S) { s with bus := b1 })) ∧
  ∀ b1 : Bus, s.bus.write (stackAddr s.S) (hiByte ret) = (true, b1) →
  (∀ b2 : Bus, b1.write (stackAddr (s.S - 1)) (loByte ret) = (false, b2) →
    call = .fault (.busError .invalidWrite (stackAddr (s.S - 1)) { s with S := s.S - 1, bus := b2 })) ∧
  ∀ b2 : Bus, b1.write (stackAddr (s.S - 1)) (loByte ret) = (true, b2) →
  (∀ b3 : Bus, b2.write (stackAddr (s.S - 1 - 1)) image = (false, b3) →
    call = .fault (.busError .invalidWrite (stackAddr (s.S - 1 - 1)) { s with S := s.S - 1 - 1, bus := b3 })) ∧
  ∀ b3 : Bus, b2.write (stackAddr (s.S - 1 - 1)) image = (true, b3) →
  (∀ b4 : Bus, b3.read low = (none, b4) →
    call = .fault (.busError .invalidRead low { s with S := s.S - 1 - 1 - 1, bus := b4 })) ∧
  ∀ (lo : Byte) (b4 : Bus), b3.read low = (some lo, b4) →
  (∀ b5 : Bus, b4.read high = (none, b5) →
    call = .fault (.busError .invalidRead high { s with S := s.S - 1 - 1 - 1, bus := b5 })) ∧
  ∀ (hi : Byte) (b5 : Bus), b4.read high = (some hi, b5) →
    ∃ t, call = .next t ∧ t.PC.toNat = hi.toNat * 256 + lo.toNat ∧ t.S = s.S - 1 - 1 - 1 ∧ t.flag .I = true ∧ t.bus = b5 ∧
      t.cycles = 7 ∧ State.Frame [.S] [.I] [stackAddr s.S, stackAddr (s.S - 1), stackAddr (s.S - 1 - 1)] s t

/-- The frame of a call that enters and reports its cycle count. -/
theorem enterInterrupt_frame {ret vector : Addr} {image : Byte} {n : Nat}
    (h : enterInterrupt ret image vector s = .next t) :
    State.Frame [.S] [.I] [stackAddr s.S, stackAddr (s.S - 1), stackAddr (s.S - 1 - 1)] s (t.withCycles n) := by
  obtain ⟨-, -, hbytes⟩ := (enterInterrupt_ends ret image vector s).next h
  have hwrote := (enterInterrupt_withCycles_ends ret image vector n s).next (by rw [h, andThen_next])
  refine hwrote.frame fun a ha => ?_
  simp only [List.mem_cons, List.not_mem_nil, or_false, not_or] at ha
  obtain ⟨h0, h1, h2⟩ := ha
  exact hbytes a h0 h1 h2

/-- A call that is the entry and then its cycle count enters so. -/
theorem entersInterrupt {call : Res State} {ret low high : Addr} {image : Byte} {n : Nat}
    (hcall : call = andThen (enterInterrupt ret image low s) fun t => .next (t.withCycles n)) (hn : n = 7)
    (hhigh : high = low + 1) : EntersInterrupt call s ret image low high := by
  subst hhigh
  have hfails {e : Fault} (h : enterInterrupt ret image low s = .fault e) : call = .fault e := by
    rw [hcall, h, andThen_fault]
  refine ⟨fun b1 h1 => ?high, fun b1 h1 => ⟨fun b2 h2 => ?low, fun b2 h2 => ⟨fun b3 h3 => ?image, fun b3 h3 =>
    ⟨fun b4 h4 => ?vectorLow, fun lo b4 h4 => ⟨fun b5 h5 => ?vectorHigh, fun hi b5 h5 => ?enters⟩⟩⟩⟩⟩
  case high => exact hfails (enterInterrupt_push_fails (pushWord_first_fails h1))
  case low => exact hfails (enterInterrupt_push_fails (pushWord_second_fails h1 h2))
  case image => exact hfails (enterInterrupt_image_fails h1 h2 h3)
  case vectorLow =>
    exact hfails (enterInterrupt_vector_fails h1 h2 h3 fun t ht => read16_low_fails (by rwa [ht]))
  case vectorHigh =>
    exact hfails (enterInterrupt_vector_fails h1 h2 h3 fun t ht => read16_high_fails (by rwa [ht]) h5)
  case enters =>
    have henter := enterInterrupt_of_accesses h1 h2 h3 h4 h5
    refine ⟨_, by rw [hcall, henter, andThen_next], word_toNat hi lo, rfl, ?_, rfl, hn, enterInterrupt_frame henter⟩
    exact (getFlag_setFlag .I .I true s.P).trans (if_pos rfl)

/-- Settles O40: BRK is the entry with the address after its signature byte and the image with Break set. -/
theorem breakTakesTheInterruptEntry : Obligations.BreakTakesTheInterruptEntry := by
  intro s
  simp only [ofNat_high, ofNat_low, sub_two, sub_three]
  exact entersInterrupt (n := baseCycles .brk .implied + 0) (exec_brk s) rfl rfl

/-- The image with Break clear, as the statement writes it. -/
theorem imageWithoutBreak_eq (p : Byte) : p &&& 0xEF ||| 0x20 = imageWithoutBreak p := rfl

/-- Settles O43: both calls are the entry with the current PC and the image with Break clear; IRQ where I does not mask it. -/
theorem hardwareInterruptEntry : Obligations.HardwareInterruptEntry := by
  intro s call low high h
  simp only [ofNat_high, ofNat_low, sub_two, sub_three, imageWithoutBreak_eq]
  obtain ⟨rfl, hI, rfl, rfl⟩ | ⟨rfl, rfl, rfl⟩ := h
  · exact entersInterrupt (by rw [irq, hI]; rfl) rfl rfl
  · exact entersInterrupt (call := nmi s) rfl rfl rfl

/-- Settles O42: I masks the call, which writes the cycle count alone. -/
theorem maskedIrqIsIgnored : Obligations.MaskedIrqIsIgnored := by
  intro s hI
  rw [irq, if_pos hI, State.withCycles]

/-! Return from interrupt. -/

theorem returnFromInterrupt_status_fails (h1 : s.bus.read (stackAddr (s.S + 1)) = (none, b1)) :
    returnFromInterrupt s = .fault (.busError .invalidRead (stackAddr (s.S + 1)) ((s.withS (s.S + 1)).withBus b1)) := by
  simp only [returnFromInterrupt, pop_of_none h1, andThen_fault]

/-- A failing pop of the address ends the return, P and PC not written. -/
theorem returnFromInterrupt_address_fails (h1 : s.bus.read (stackAddr (s.S + 1)) = (some p, b1))
    (h : popWord ((s.withS (s.S + 1)).withBus b1) = .fault e) : returnFromInterrupt s = .fault e := by
  simp only [returnFromInterrupt, pop_of_some h1, andThen_next, h, andThen_fault]

/-- Settles O41: RTI ends as its three pops do, and where all are answered, P and PC are left to write. -/
theorem returnFromInterruptRestoresPAndPC : Obligations.ReturnFromInterruptRestoresPAndPC := by
  intro s
  rw [add_two, add_three]
  refine ⟨fun b1 h1 => ?status, fun p b1 h1 => ⟨fun b2 h2 => ?low, fun lo b2 h2 => ⟨fun b3 h3 => ?high, fun hi b3 h3 =>
    ?returns⟩⟩⟩
  case status => exact impliedHandler_of_fault (exec_rti s) (returnFromInterrupt_status_fails h1)
  case low =>
    exact impliedHandler_of_fault (exec_rti s) (returnFromInterrupt_address_fails h1
      (popWord_first_fails (s := (s.withS (s.S + 1)).withBus b1) h2))
  case high =>
    exact impliedHandler_of_fault (exec_rti s) (returnFromInterrupt_address_fails h1
      (popWord_second_fails (s := (s.withS (s.S + 1)).withBus b1) h2 h3))
  case returns =>
    have hreturn := returnFromInterrupt_of_accesses h1 h2 h3
    have hexec := impliedHandler_of_next (exec_rti s) hreturn
    obtain ⟨-, -, hram⟩ := (returnFromInterrupt_ends s).next hreturn
    refine ⟨_, hexec, rfl, word_toNat hi lo, rfl, rfl, rfl, frame_of_exec hexec fun a _ => ?_⟩
    exact congrArg (fun ram : Memory => ram.read a.toNat) hram

end Sys2Proof.Machine
end

section
/-! PROOF. The stack as memory (10_state.md R26; 60_exceptions.md R216): what is pushed is popped again, for every S; O34, O37
and O44. -/

namespace Sys2Proof.Machine

variable {s t : State} {b b' : Bus}

theorem stackAddr_toNat (sp : Byte) : (stackAddr sp).toNat = 256 + sp.toNat := by
  have hsp := sp.isLt
  have hpage : Config.stackPage.toNat = 256 := rfl
  rw [stackAddr, BitVec.toNat_add, BitVec.toNat_setWidth, hpage]
  omega

theorem stackAddr_ne {sp sp' : Byte} (h : sp ≠ sp') : stackAddr sp ≠ stackAddr sp' := by
  intro heq
  have := congrArg BitVec.toNat heq
  rw [stackAddr_toNat, stackAddr_toNat] at this
  exact h (BitVec.eq_of_toNat_eq (by omega))

/-- Memory is canonical, and the stack page is plain memory that can be written. -/
structure Bus.StackIsMemory (b : Bus) : Prop where
  wf : b.ram.wf = true
  readable : ∀ sp, b.readable (stackAddr sp) = true
  writable : ∀ sp, b.writable (stackAddr sp) = true
  memory : ∀ sp, b.isDevice (stackAddr sp) = false

/-- The ranges are the host's, so every access leaves the stack page memory. -/
theorem Bus.StackIsMemory.of_follows (h : b.StackIsMemory) (k : b.Follows b') : b'.StackIsMemory where
  wf := k.wf h.wf
  readable sp := (k.readable _).trans (h.readable sp)
  writable sp := (k.writable _).trans (h.writable sp)
  memory sp := (k.isDevice _).trans (h.memory sp)

/-- A bus that answers every read is mapped everywhere for reads, and likewise for writes. -/
theorem State.BusAnswers.stackIsMemory (h : s.BusAnswers) (hwf : s.bus.ram.wf = true)
    (hmemory : ∀ sp, s.bus.isDevice (stackAddr sp) = false) : s.bus.StackIsMemory where
  wf := hwf
  readable sp := by
    obtain ⟨v, b, hr⟩ := h.read (stackAddr sp)
    by_contra hn
    simp [Bus.read, hn] at hr
  writable sp := by
    obtain ⟨b, hw⟩ := h.write (stackAddr sp) 0
    by_contra hn
    simp [Bus.write, hn] at hw
  memory := hmemory

/-- A push on such a stack is taken, and the byte is there. -/
theorem push_of_stackIsMemory (h : s.bus.StackIsMemory) (v : Byte) :
    ∃ t, push v s = .next t ∧ s.Inside t ∧ t.S = s.S - 1 ∧ t.byteAt (stackAddr s.S) = v ∧
      ∀ a, a ≠ stackAddr s.S → t.byteAt a = s.byteAt a := by
  obtain ⟨b, hw, hv⟩ := Bus.write_plain v (h.writable s.S) (h.memory s.S) h.wf
  have hpush := push_of_taken hw
  obtain ⟨hinside, hS, hbytes⟩ := (push_ends v s).next hpush
  exact ⟨_, hpush, hinside, hS, hv, hbytes⟩

/-- A pop on such a stack answers the byte that is there, and changes S alone. -/
theorem pop_of_stackIsMemory (h : s.bus.StackIsMemory) :
    pop s = .next (s.byteAt (stackAddr (s.S + 1)), s.withS (s.S + 1)) :=
  pop_of_some (Bus.read_plain (h.readable _) (h.memory _))

theorem pushWord_of_stackIsMemory (h : s.bus.StackIsMemory) (a : Addr) :
    ∃ t, pushWord a s = .next t ∧ s.Inside t ∧ t.S = s.S - 1 - 1 ∧ t.byteAt (stackAddr s.S) = hiByte a ∧
      t.byteAt (stackAddr (s.S - 1)) = loByte a ∧
      ∀ a', a' ≠ stackAddr s.S → a' ≠ stackAddr (s.S - 1) → t.byteAt a' = s.byteAt a' := by
  obtain ⟨s1, hpush1, hin1, hS1, hv1, -⟩ := push_of_stackIsMemory h (hiByte a)
  obtain ⟨s2, hpush2, -, -, hv2, hbytes2⟩ := push_of_stackIsMemory (h.of_follows hin1.bus) (loByte a)
  have hpush : pushWord a s = .next s2 := by rw [pushWord, hpush1, andThen_next, hpush2]
  obtain ⟨hinside, hS, hbytes⟩ := (pushWord_ends a s).next hpush
  rw [hS1] at hv2 hbytes2
  exact ⟨s2, hpush, hinside, hS, (hbytes2 _ (stackAddr_ne (by bv_omega))).trans hv1, hv2, hbytes⟩

theorem popWord_of_stackIsMemory (h : s.bus.StackIsMemory) :
    popWord s = .next (word (s.byteAt (stackAddr (s.S + 1 + 1))) (s.byteAt (stackAddr (s.S + 1))), s.withS (s.S + 1 + 1)) := by
  rw [popWord, pop_of_stackIsMemory h, andThen_next]
  simp only [pop_of_stackIsMemory (s := s.withS (s.S + 1)) h, andThen_next]
  rfl

/-- Settles O34: RTS pops the two bytes that JSR pushed, and adds the one that JSR took off. -/
theorem subroutineRoundTrip : Obligations.SubroutineRoundTrip := by
  intro s a hwf hstack
  have hmem : s.bus.StackIsMemory := ⟨hwf, fun sp => (hstack sp).1.1, fun sp => (hstack sp).2, fun sp => (hstack sp).1.2⟩
  obtain ⟨s1, hpush, hinside, hS, hhigh, hlow, hbytes⟩ := pushWord_of_stackIsMemory hmem (s.PC - 1)
  have hS1 : s1.S + 1 = s.S - 1 := by rw [hS]; bv_omega
  have hS2 : s.S - 1 + 1 = s.S := BitVec.sub_add_cancel s.S 1
  have hpop := popWord_of_stackIsMemory (s := finish .jsr (.absolute a) 0 (s1.withPC a)) (hmem.of_follows hinside.bus)
  simp only [finish_S, State.withPC_S, finish_byteAt, State.withPC_byteAt, hS1, hS2, hhigh, hlow, word_hi_lo] at hpop
  refine ⟨_, _, exec_jsr_of_pushWord_next hpush, rfl, exec_rts_of_popWord_next hpop, BitVec.sub_add_cancel s.PC 1, rfl, ?_⟩
  refine .of_inside hinside rfl rfl (fun r _ => ?regs) (fun f _ => congrArg (getFlag f) hinside.P) (fun a' ha' => ?memory)
  case regs =>
    cases r with
    | A => exact hinside.A
    | X => exact hinside.X
    | Y => exact hinside.Y
    | S => rfl
  case memory =>
    obtain ⟨h1, h2⟩ := not_or.mp (mt List.mem_pair.mpr ha')
    exact hbytes a' h1 h2

/-! Many pushes. -/

/-- PHA on a bus that answers. -/
theorem exec_pha_of_busAnswers (h : s.BusAnswers) : ∃ t, exec .pha s = .next t ∧ t.S = s.S - 1 ∧ t.BusAnswers := by
  obtain ⟨b, hw⟩ := h.write (stackAddr s.S) s.A
  obtain ⟨t, ht, hS, -, -, -, -⟩ := pushHandler_completes (exec_pha s) hw
  exact ⟨t, ht, hS, h.of_follows ((exec_ends .pha s).next ht).bus⟩

/-- `n` PHAs in a row lower S by `n` modulo 256. -/
theorem iterate_pha (n : Nat) (h : s.BusAnswers) :
    ∃ t, (fun x : Res State => andThen x (exec .pha))^[n] (.next s) = .next t ∧ t.S = s.S - BitVec.ofNat 8 n := by
  induction n generalizing s with
  | zero => exact ⟨s, rfl, (BitVec.sub_zero s.S).symm⟩
  | succ n ih =>
    obtain ⟨s1, h1, hS1, hanswers⟩ := exec_pha_of_busAnswers h
    obtain ⟨t, ht, hS⟩ := ih hanswers
    refine ⟨t, by rw [Function.iterate_succ_apply, andThen_next, h1, ht], ?_⟩
    rw [hS, hS1, BitVec.ofNat_add]
    bv_omega

/-- Settles O37: 256 is 0 modulo 256. -/
theorem twoHundredFiftySixPushesWrapS : Obligations.TwoHundredFiftySixPushesWrapS := by
  intro s h
  obtain ⟨t, ht, hS⟩ := iterate_pha 256 h
  exact ⟨t, ht, hS.trans (BitVec.sub_zero s.S)⟩

/-! Entry and return. -/

/-- A state as an entry leaves it: the stack page is memory and holds what was pushed; but for P's I, PC, S, the bus and the
cycle count the state is `s`. -/
structure State.Entered (s : State) (ret : Addr) (image : Byte) (t : State) : Prop where
  A : t.A = s.A
  X : t.X = s.X
  Y : t.Y = s.Y
  S : t.S = s.S - 1 - 1 - 1
  stack : t.bus.StackIsMemory
  high : t.byteAt (stackAddr s.S) = hiByte ret
  low : t.byteAt (stackAddr (s.S - 1)) = loByte ret
  image : t.byteAt (stackAddr (s.S - 1 - 1)) = image

theorem State.Entered.withCycles {ret : Addr} {image : Byte} (h : s.Entered ret image t) (n : Nat) :
    s.Entered ret image (t.withCycles n) := ⟨h.A, h.X, h.Y, h.S, h.stack, h.high, h.low, h.image⟩

/-- On a bus that answers, with memory in the stack page, an entry is taken. -/
theorem enterInterrupt_entered (hmem : s.bus.StackIsMemory) (hanswers : s.BusAnswers) (ret : Addr) (image : Byte)
    (vector : Addr) : ∃ t, enterInterrupt ret image vector s = .next t ∧ s.Entered ret image t := by
  obtain ⟨s1, hpush1, hin1, hS1, hhigh, hlow, -⟩ := pushWord_of_stackIsMemory hmem ret
  obtain ⟨s2, hpush2, hin2, hS2, himage, hbytes2⟩ := push_of_stackIsMemory (hmem.of_follows hin1.bus) image
  obtain ⟨lo, b1, hr1⟩ := (hanswers.of_follows (hin1.trans hin2).bus).read vector
  obtain ⟨hram1, hfollows1⟩ := Bus.read_leaves hr1
  have hfollows := (hin1.trans hin2).bus.trans hfollows1
  obtain ⟨hi, b2, hr2⟩ := State.BusAnswers.read (s := s2.withBus b1) (hanswers.of_follows hfollows) (vector + 1)
  obtain ⟨hram2, hfollows2⟩ := Bus.read_leaves hr2
  have hbyte (a : Addr) : b2.ram.read a.toNat = s2.byteAt a := by rw [hram2, State.withBus_bus, hram1]; rfl
  rw [hS1] at hS2 himage hbytes2
  refine ⟨((s2.withBus b2).setFlag .I true).withPC (word hi lo), ?_, (hin1.trans hin2).A, (hin1.trans hin2).X,
    (hin1.trans hin2).Y, hS2, hmem.of_follows (hfollows.trans hfollows2), ?_, ?_, (hbyte _).trans himage⟩
  · simp only [enterInterrupt, hpush1, hpush2, read16_of_accesses hr1 hr2, andThen_next]
  · exact (hbyte _).trans ((hbytes2 _ (stackAddr_ne (by bv_omega))).trans hhigh)
  · exact (hbyte _).trans ((hbytes2 _ (stackAddr_ne (by bv_omega))).trans hlow)

/-- RTI from a state as an entry leaves it: P from the image, PC the pushed address, S as before the entry. -/
theorem exec_rti_of_entered {ret : Addr} {image : Byte} (h : s.Entered ret image t) :
    ∃ u, exec .rti t = .next u ∧ u.PC = ret ∧ u.P = restoredStatus image ∧ u.S = s.S ∧ u.A = s.A ∧ u.X = s.X ∧ u.Y = s.Y := by
  have hS1 : t.S + 1 = s.S - 1 - 1 := by rw [h.S]; bv_omega
  have hS2 : s.S - 1 - 1 + 1 = s.S - 1 := by bv_omega
  have hS3 : s.S - 1 + 1 = s.S := by bv_omega
  have hpop := pop_of_stackIsMemory h.stack
  have hpopWord := popWord_of_stackIsMemory (s := t.withS (t.S + 1)) h.stack
  simp only [State.withS_S, State.withS_byteAt, State.withS_withS, hS1, hS2, hS3, h.high, h.low, h.image, word_hi_lo]
    at hpop hpopWord
  have hreturn : returnFromInterrupt t = .next (((t.withS s.S).withP (restoredStatus image)).withPC ret) := by
    simp only [returnFromInterrupt, hpop, andThen_next, hpopWord]
  exact ⟨_, impliedHandler_of_next (exec_rti t) hreturn, rfl, rfl, rfl, h.A, h.X, h.Y⟩

theorem restoredStatus_imageWithBreak (p : Byte) : restoredStatus (imageWithBreak p) = p ||| 0x30 := by
  rw [restoredStatus, imageWithBreak, BitVec.or_assoc, BitVec.or_self]

/-- Break and Unused are forced on the way back, so the image's Break does not show (R191, R216). -/
theorem restoredStatus_imageWithoutBreak (p : Byte) : restoredStatus (imageWithoutBreak p) = p ||| 0x30 := by
  apply eq_of_getFlag_eq
  intro f
  cases f <;> simp [restoredStatus, imageWithoutBreak, getFlag, Flag.bit]

/-- Settles O44: each of the three calls is an entry and then a cycle count, and RTI undoes an entry. -/
theorem interruptRoundTrip : Obligations.InterruptRoundTrip := by
  intro s hwf hanswers hdevice
  have hmem := hanswers.stackIsMemory hwf hdevice
  have hentered := enterInterrupt_entered hmem hanswers
  refine ⟨?brk, fun hI => ?irq, ?nmi⟩
  case brk =>
    obtain ⟨t, ht, hstate⟩ := hentered (s.PC + 1) (imageWithBreak s.P) Config.irqVector
    obtain ⟨u, hu, hPC, hP, hrest⟩ := exec_rti_of_entered (hstate.withCycles (baseCycles .brk .implied + 0))
    exact ⟨_, u, impliedHandler_of_next (exec_brk s) ht, hu, hPC, hP.trans (restoredStatus_imageWithBreak _), hrest⟩
  case irq =>
    obtain ⟨t, ht, hstate⟩ := hentered s.PC (imageWithoutBreak s.P) Config.irqVector
    obtain ⟨u, hu, hPC, hP, hrest⟩ := exec_rti_of_entered (hstate.withCycles Config.interruptCycles)
    have hirq : irq s = .next (t.withCycles Config.interruptCycles) := by simp [irq, hI, ht]
    exact ⟨_, u, hirq, hu, hPC, hP.trans (restoredStatus_imageWithoutBreak _), hrest⟩
  case nmi =>
    obtain ⟨t, ht, hstate⟩ := hentered s.PC (imageWithoutBreak s.P) Config.nmiVector
    obtain ⟨u, hu, hPC, hP, hrest⟩ := exec_rti_of_entered (hstate.withCycles Config.interruptCycles)
    have hnmi : nmi s = .next (t.withCycles Config.interruptCycles) := by rw [nmi, ht, andThen_next]
    exact ⟨_, u, hnmi, hu, hPC, hP.trans (restoredStatus_imageWithoutBreak _), hrest⟩

end Sys2Proof.Machine
end

section
/-! PROOF. The bus seen from the core (20_memory.md R60, R61; 70_reset_and_hazards.md R249): plain memory, and a device that
sees the listed accesses and no other; O59 and O60. -/

namespace Sys2Proof.Machine

/-- Settles O59: the write is the memory's, and the bus it leaves has the ranges of before. -/
theorem plainMemoryReadsTheLastWrite : Obligations.PlainMemoryReadsTheLastWrite := by
  intro s t a v hs ⟨hread, hdevice⟩ h
  obtain ⟨b, hw, rfl⟩ := memWrite_eq_next.mp h
  obtain ⟨hfollows, hbytes⟩ := Bus.write_leaves hw
  refine ⟨?reads, hbytes⟩
  have hwritable : s.bus.writable a = true := by
    by_contra hn
    simp [Bus.write, hn] at hw
  obtain ⟨b', hw', hv⟩ := Bus.write_plain v hwritable hdevice hs.memory
  obtain rfl : b' = b := by simpa [hw] using hw'.symm
  have hplain := Bus.read_plain ((hfollows.readable a).trans hread) ((hfollows.isDevice a).trans hdevice)
  rw [hv] at hplain
  exact memRead_of_some (s := s.withBus b') hplain

variable {b : Bus} {a : Addr}

/-- A device answers or fails a read by the free value, and has then seen it. -/
theorem Bus.read_device (hr : b.readable a = true) (hd : b.isDevice a = true) :
    b.read a = (Config.deviceRead b.log a, { b with log := .read a (Config.deviceRead b.log a) :: b.log }) := by
  simp [Bus.read, hr, hd]

theorem Bus.write_device (hw : b.writable a = true) (hd : b.isDevice a = true) (v : Byte) :
    b.write a v = (Config.deviceWrite b.log a v, { b with log := .write a v (Config.deviceWrite b.log a v) :: b.log }) := by
  simp [Bus.write, hw, hd]

/-- Settles O60: the resolver makes no access, so the accesses of each instruction are its own, by the outcome of each. -/
theorem deviceSeesExactlyTheListedAccesses : Obligations.DeviceSeesExactlyTheListedAccesses := by
  intro s a hreadable hwritable hdevice
  have h0 : resolve (.absolute a) s = .next (.address a, s) := rfl
  have ha : operandAddress (.address a) s = .next a := rfl
  have hread := Bus.read_device hreadable hdevice
  refine ⟨?lda, ?sta, ?inc⟩
  case lda =>
    split <;> rename_i hanswer <;> rw [hanswer] at hread
    · exact (readHandler_errors (exec_lda (.absolute a) s) h0).1 a _ ha hread
    · have hvalue : operandValue (.address a) s = .next (_, s.withBus _) := memRead_of_some hread
      obtain ⟨t, ht, hA, -, -, -, hbus, -⟩ :=
        readHandler_putNZ (value := fun _ b => b) (exec_lda (.absolute a) s) rfl rfl h0 hvalue
      exact ⟨t, ht, hA, hbus⟩
  case sta =>
    have hwrite := Bus.write_device hwritable hdevice s.A
    split <;> rename_i htaken <;> rw [htaken] at hwrite
    · exact (storeHandler_errors (exec_sta (.absolute a) s) h0).1 a _ ha hwrite
    · obtain ⟨t, ht, hbus, -⟩ := storeHandler_completes (exec_sta (.absolute a) s) h0 ha hwrite
      exact ⟨t, ht, hbus⟩
  case inc =>
    have herrors := incDecHandler_errors (isResult := fun v r => r = v + 1) (exec_inc (.absolute a) s) h0 fun _ _ h => h
    split <;> rename_i hanswer <;> rw [hanswer] at hread
    · exact herrors.1 a _ ha hread
    · rename_i v
      have hwrite := Bus.write_device (b := { s.bus with log := .read a (some v) :: s.bus.log }) hwritable hdevice (v + 1)
      split <;> rename_i htaken <;> rw [htaken] at hwrite
      · exact herrors.2.1 a v (v + 1) _ _ ha hread rfl hwrite
      · obtain ⟨t, ht, hbus, -⟩ := incDecHandler_completes (exec_inc (.absolute a) s) rfl rfl h0 ha hread hwrite rfl
        exact ⟨t, ht, hbus⟩

end Sys2Proof.Machine
end
